-- ==== Sys2Proof/Word.lean ====
section
/-! DEFINITION. The word types of the block: an operation word has 32 bits (`30_encoding.md` R78), the serializer's
value and mask 16 (`10_state.md` R13), a bank byte 8 (`20_memory.md` R41), a nibble 4 and a device address on the wire 7
(`30_encoding.md` R72). A level or wire bit is a `Bool`: `true` is 1, high (`00_scope.md` R9). -/

namespace Sys2Proof

/-- A host operation word, bits 31..0 (R78). -/
abbrev OpWord := BitVec 32

/-- The serializer's value and mask (R13: `SER_WIDTH = 16`, `00_scope.md` R6). -/
abbrev SerWord := BitVec 16

/-- One byte of a framebuffer bank (R41), a command code (R76). -/
abbrev Byte := BitVec 8

/-- A 4-bit nibble, the unit of display data on the wire (glossary of `00_scope.md`). -/
abbrev Nibble := BitVec 4

/-- A 7-bit device address as a write frame carries it (R72). -/
abbrev DeviceAddr := BitVec 7

/-- A chip index, `u_2` (R80). -/
abbrev Chip := BitVec 2

/-- The level of a line, or one bit on the wire: `true` is 1, high; `false` is 0, low (R9). -/
abbrev Level := Bool

end Sys2Proof
end

