-- ==== Sys2Proof/Config.lean ====
section
/-! DEFINITION. What an implementation of the block fixes, and the free values. The open parameters of the spec are
`N`, `HAS_RD` (`00_scope.md` R4), `CC` (`30_encoding.md` R76), `INIT_CMDS` (`43_flush_init.md` R184) and `FB_INIT`
(`10_state.md` R16). The last three are opaque constants with no body: nothing can be proved of their values. -/

namespace Sys2Proof

/-- The straps fixed at construction (`00_scope.md` R4): the module count `N` and whether the read-clock role exists. -/
structure Straps where
  n     : Nat
  hasRd : Bool
  deriving DecidableEq, Repr

/-- `N ∈ {1, 2, 3, 4}` (R4). -/
abbrev Straps.legal (p : Straps) : Prop := 1 ≤ p.n ∧ p.n ≤ 4

/-- The command-code table `CC`, a record of 8-bit codes (`30_encoding.md` R76). -/
structure CommandCodes where
  sysDis     : Byte
  sysEn      : Byte
  ledOff     : Byte
  ledOn      : Byte
  blinkOff   : Byte
  blinkOn    : Byte
  masterMode : Byte
  extClk     : Byte
  nmosCom8   : Byte
  nmosCom16  : Byte
  pmosCom8   : Byte
  pmosCom16  : Byte
  pwmBase    : Byte
  deriving DecidableEq, Repr, Inhabited

namespace Config

/-- The straps of `State.reset`. DESIGN CHOICE (log 1): four modules and a read-clock line, so that every line the
spec names exists; `State.resetWith` takes any straps, and the statements hold for every `N` and `HAS_RD`. -/
def straps : Straps := { n := 4, hasRd := true }

/-- The table `CC` (R76): a parameter, no value of it can be proved (log 4). -/
opaque cc : CommandCodes

/-- The function `INIT_CMDS` from the drive-mode constant to the command codes `INIT` sends (R184): a parameter, no
value of it can be proved (log 5). -/
opaque initCmds : Byte → List Byte

/-- `FB_INIT` (R16): the free byte that byte `addr` of bank `bank` (0 or 1) holds right after the allocation numbered
`draw`. No value of it can be proved (log 3). -/
opaque fbInit : (draw bank addr : Nat) → Byte

/-- The default codes of R76. PRESUMED (log 4): the spec marks them 'from general knowledge, not in source'. Used by
the tests alone, never by a meaning. -/
def defaultCodes : CommandCodes :=
  { sysDis := 0x00, sysEn := 0x01, ledOff := 0x02, ledOn := 0x03, blinkOff := 0x08, blinkOn := 0x09,
    masterMode := 0x14, extClk := 0x1C, nmosCom8 := 0x20, nmosCom16 := 0x24, pmosCom8 := 0x28,
    pmosCom16 := 0x2C, pwmBase := 0xA0 }

/-- The default initialization list of R184, over a code table. PRESUMED (log 5). Used by the tests alone. -/
def defaultInitCmds (codes : CommandCodes) (mode : Byte) : List Byte :=
  [codes.sysDis, mode, codes.masterMode, codes.sysEn, codes.ledOn]

end Config

end Sys2Proof
end

