-- ==== Sys2Proof/Syntax.lean ====
section
/-! DEFINITION. The instructions: one constructor for each row of `spec/opcode_table.json`, the 23 operations of
`30_encoding.md` R81 with their operands as R80 and R85 give them, and the three wire frames of part A (R71 to R73). -/

namespace Sys2Proof

/-- The geometry `G` (`00_scope.md` R5): `geom` 0 is WIDE, 1 is TALL (`30_encoding.md` R80). -/
inductive Geometry where
  | wide
  | tall
  deriving DecidableEq, Repr

/-- A framebuffer bank, `FB[0]` or `FB[1]` (`10_state.md` R16). -/
inductive Bank where
  | bank0
  | bank1
  deriving DecidableEq, Repr

/-- The instructions of the block. Operands have their widths in their types where the word's field is plain; `k` of
`SHIFT` (1..16, R85) and the coordinates (any integers in the rules, -128..127 in the word, R80) are numbers, and
`WellFormed.lean` says which of them a word can carry. -/
inductive Instr where
  /-- `SHIFT value, k` (`40_serializer_mux.md` R101). -/
  | shift (value : SerWord) (k : Nat)
  /-- `SELECT chip` (R102). -/
  | select (chip : Chip)
  /-- `RELEASE chip` (R103). -/
  | release (chip : Chip)
  /-- `CMD chip, code` (`41_frame_encoder.md` R120). -/
  | cmd (chip : Chip) (code : Byte)
  /-- `WR chip, addr, nib` (R121). -/
  | wr (chip : Chip) (addr : Byte) (nib : Nibble)
  /-- `SWB chip, addr` (R122). -/
  | swb (chip : Chip) (addr : Byte)
  /-- `SWN nib` (R123). -/
  | swn (nib : Nibble)
  /-- `SWE chip` (R124). -/
  | swe (chip : Chip)
  /-- `BRIGHT chip, level` (R125). -/
  | bright (chip : Chip) (level : Nibble)
  /-- `BLINK chip, on` (R126). -/
  | blink (chip : Chip) (on : Bool)
  /-- `CCLR chip` (R127). -/
  | cclr (chip : Chip)
  /-- `RDD chip, addr` (R128). -/
  | rdd (chip : Chip) (addr : Byte)
  /-- `SETPX x, y` (`42_framebuffer.md` R151). -/
  | setpx (x y : Int)
  /-- `CLRPX x, y` (R152). -/
  | clrpx (x y : Int)
  /-- `DRAWPX x, y, color` (R153). -/
  | drawpx (x y : Int) (color : Byte)
  /-- `GETPX x, y` (R154). -/
  | getpx (x y : Int)
  /-- `CLS` (R155). -/
  | cls
  /-- `FILLS` (R156). -/
  | fills
  /-- `SETBYTE addr, val` (R157). -/
  | setbyte (addr : Byte) (val : Byte)
  /-- `SETACT idx` (R158). -/
  | setact (idx : Bank)
  /-- `SWAP` (R159). -/
  | swap
  /-- `FLUSH` (`43_flush_init.md` R180). -/
  | flush
  /-- `INIT chip, mode, geom` (R183). -/
  | init (chip : Chip) (mode : Byte) (geom : Geometry)
  /-- The 12-bit command frame on the wire, row FRAME_COMMAND (`30_encoding.md` R71). -/
  | frameCommand (code : Byte)
  /-- The 14-bit single write frame on the wire, row FRAME_WRITE (R72). -/
  | frameWrite (addr : DeviceAddr) (nib : Nibble)
  /-- The first 10 bits of the successive write frame, row FRAME_SUCCESSIVE_HEAD (R73). -/
  | frameSuccessiveHead (addr : DeviceAddr)
  deriving DecidableEq, Repr

/-- What an encoded instruction is: a 32-bit operation word at the host port (`30_encoding.md` part B, R78), or a list
of bits in wire order, first bit first (part A, R70). The rows FRAME_* of the opcode table are of the second kind
(log 7). -/
inductive Encoded where
  | opWord (w : OpWord)
  | wireFrame (bits : List Bool)
  deriving DecidableEq, Repr

end Sys2Proof
end

