-- ==== Sys2Proof/WellFormed.lean ====
section
/-! DEFINITION. Which instructions an encoding can carry: the operand ranges of `30_encoding.md` R80 and R85 that the
operand's type does not already say. "An operand outside its range cannot be encoded" (R85). -/

namespace Sys2Proof

/-- A coordinate that the 8-bit two's complement field can hold: -128..127 (R80). -/
def coordFits (v : Int) : Bool := decide (-128 ≤ v) && decide (v ≤ 127)

/-- `k` of `SHIFT` is a bit count 1..16 (R80: `k = n + 1` with `n` a `u_4`). -/
def countFits (k : Nat) : Bool := decide (1 ≤ k) && decide (k ≤ 16)

/-- The operands of `i` fit the fields of its encoding. -/
def Instr.wf : Instr → Bool
  | .shift _ k => countFits k
  | .select _ => true
  | .release _ => true
  | .cmd _ _ => true
  | .wr _ _ _ => true
  | .swb _ _ => true
  | .swn _ => true
  | .swe _ => true
  | .bright _ _ => true
  | .blink _ _ => true
  | .cclr _ => true
  | .rdd _ _ => true
  | .setpx x y => coordFits x && coordFits y
  | .clrpx x y => coordFits x && coordFits y
  | .drawpx x y _ => coordFits x && coordFits y
  | .getpx x y => coordFits x && coordFits y
  | .cls => true
  | .fills => true
  | .setbyte _ _ => true
  | .setact _ => true
  | .swap => true
  | .flush => true
  | .init _ _ _ => true
  | .frameCommand _ => true
  | .frameWrite _ _ => true
  | .frameSuccessiveHead _ => true

/-- The instruction is one of the 23 host operations of R81, not a wire frame of part A. -/
def Instr.isOperation : Instr → Bool
  | .frameCommand _ => false
  | .frameWrite _ _ => false
  | .frameSuccessiveHead _ => false
  | .shift _ _ => true
  | .select _ => true
  | .release _ => true
  | .cmd _ _ => true
  | .wr _ _ _ => true
  | .swb _ _ => true
  | .swn _ => true
  | .swe _ => true
  | .bright _ _ => true
  | .blink _ _ => true
  | .cclr _ => true
  | .rdd _ _ => true
  | .setpx _ _ => true
  | .clrpx _ _ => true
  | .drawpx _ _ _ => true
  | .getpx _ _ => true
  | .cls => true
  | .fills => true
  | .setbyte _ _ => true
  | .setact _ => true
  | .swap => true
  | .flush => true
  | .init _ _ _ => true

end Sys2Proof
end

