-- ==== Sys2Proof/Decode.lean ====
section
/-! DEFINITION. Bits in wire order, the decoder of operation words (`30_encoding.md` R79 to R83) and of wire frames
(R70 to R74), and after it the encoder, written from the same tables. -/

namespace Sys2Proof

/-! ## Bits in wire order -/

/-- The low `k` bits of `v`, most significant first: `v[k-1], ..., v[0]` (`20_memory.md` R46). -/
def msbFirst {w : Nat} (v : BitVec w) : Nat → List Bool
  | 0 => []
  | k + 1 => v.getLsbD k :: msbFirst v k

/-- The number whose binary digits are `bits`, first bit most significant. -/
def natOfBits (bits : List Bool) : Nat := bits.foldl (fun acc b => 2 * acc + b.toNat) 0

/-- The `k`-bit field whose wire order is `bits` (R46). -/
def fieldOfBits (k : Nat) (bits : List Bool) : BitVec k := BitVec.ofNat k (natOfBits bits)

/-- The tag of a command frame, `"100"` (R74). -/
def commandTag : BitVec 3 := 0b100#3

/-- The tag of both write frames, `"101"` (R74). -/
def writeTag : BitVec 3 := 0b101#3

/-- The 12 bits of the command frame of R71: tag, code, padding 0. -/
def commandFrameBits (code : Byte) : List Bool :=
  msbFirst commandTag 3 ++ msbFirst code 8 ++ [false]

/-- The first 10 bits of the successive write frame of R73, which are the first 10 of the single write frame. -/
def writeHeadBits (addr : DeviceAddr) : List Bool := msbFirst writeTag 3 ++ msbFirst addr 7

/-- The 14 bits of the single write frame of R72: tag, address, nibble. -/
def writeFrameBits (addr : DeviceAddr) (nib : Nibble) : List Bool := writeHeadBits addr ++ msbFirst nib 4

/-! ## Fields of an operation word (R79) -/

/-- `opw[31:24]`. -/
def opcodeField (w : OpWord) : BitVec 8 := w.extractLsb' 24 8

/-- `opw[23:20]`: the field `n` of `SHIFT`. -/
def nField (w : OpWord) : BitVec 4 := w.extractLsb' 20 4

/-- `opw[17:16]`. -/
def chipField (w : OpWord) : Chip := w.extractLsb' 16 2

/-- `opw[23:16]`: the field `x`. -/
def xField (w : OpWord) : BitVec 8 := w.extractLsb' 16 8

/-- `opw[15:8]`: the fields `addr`, `y` and `mode`. -/
def midField (w : OpWord) : BitVec 8 := w.extractLsb' 8 8

/-- `opw[15:0]`: the field `value`. -/
def valueField (w : OpWord) : BitVec 16 := w.extractLsb' 0 16

/-- `opw[7:0]`: the fields `code`, `color` and `val`. -/
def lowField (w : OpWord) : BitVec 8 := w.extractLsb' 0 8

/-- `opw[3:0]`: the fields `nib` and `level`. -/
def nibField (w : OpWord) : BitVec 4 := w.extractLsb' 0 4

/-- `opw[0]`: the fields `on`, `idx` and `geom`. -/
def bitField (w : OpWord) : Bool := w.getLsbD 0

/-- `sext_8` (`00_scope.md` R8, `30_encoding.md` R80): an 8-bit field read as signed. -/
def sext8 (v : BitVec 8) : Int := v.toInt

/-- `geom` 0 is WIDE, 1 is TALL (R80). -/
def geometryOfBit (b : Bool) : Geometry := if b then .tall else .wide

/-- `idx` is the bank number (R80). -/
def bankOfBit (b : Bool) : Bank := if b then .bank1 else .bank0

/-! ## The opcode map (R81) -/

/-- One row of the opcode map: the opcode byte, `match` and `mask`, and the operand assembly of R80. -/
structure OpRow where
  opcode   : BitVec 8
  pattern  : OpWord
  mask     : OpWord
  assemble : OpWord → Instr

/-- The rows of SER and MUX (R81, `40_serializer_mux.md`). -/
def serializerRows : List OpRow :=
  [ ⟨0x01, 0x01000000, 0xFF0F0000, fun w => .shift (valueField w) ((nField w).toNat + 1)⟩,
    ⟨0x02, 0x02000000, 0xFFFCFFFF, fun w => .select (chipField w)⟩,
    ⟨0x03, 0x03000000, 0xFFFCFFFF, fun w => .release (chipField w)⟩ ]

/-- The rows of ENC (R81, `41_frame_encoder.md`). -/
def encoderRows : List OpRow :=
  [ ⟨0x10, 0x10000000, 0xFFFCFF00, fun w => .cmd (chipField w) (lowField w)⟩,
    ⟨0x11, 0x11000000, 0xFFFC00F0, fun w => .wr (chipField w) (midField w) (nibField w)⟩,
    ⟨0x12, 0x12000000, 0xFFFC00FF, fun w => .swb (chipField w) (midField w)⟩,
    ⟨0x13, 0x13000000, 0xFFFFFFF0, fun w => .swn (nibField w)⟩,
    ⟨0x14, 0x14000000, 0xFFFCFFFF, fun w => .swe (chipField w)⟩,
    ⟨0x15, 0x15000000, 0xFFFCFFF0, fun w => .bright (chipField w) (nibField w)⟩,
    ⟨0x16, 0x16000000, 0xFFFCFFFE, fun w => .blink (chipField w) (bitField w)⟩,
    ⟨0x17, 0x17000000, 0xFFFCFFFF, fun w => .cclr (chipField w)⟩,
    ⟨0x18, 0x18000000, 0xFFFC00FF, fun w => .rdd (chipField w) (midField w)⟩ ]

/-- The rows of FB (R81, `42_framebuffer.md`). -/
def framebufferRows : List OpRow :=
  [ ⟨0x20, 0x20000000, 0xFF0000FF, fun w => .setpx (sext8 (xField w)) (sext8 (midField w))⟩,
    ⟨0x21, 0x21000000, 0xFF0000FF, fun w => .clrpx (sext8 (xField w)) (sext8 (midField w))⟩,
    ⟨0x22, 0x22000000, 0xFF000000, fun w => .drawpx (sext8 (xField w)) (sext8 (midField w)) (lowField w)⟩,
    ⟨0x23, 0x23000000, 0xFF0000FF, fun w => .getpx (sext8 (xField w)) (sext8 (midField w))⟩,
    ⟨0x24, 0x24000000, 0xFFFFFFFF, fun _ => .cls⟩,
    ⟨0x25, 0x25000000, 0xFFFFFFFF, fun _ => .fills⟩,
    ⟨0x26, 0x26000000, 0xFFFF0000, fun w => .setbyte (midField w) (lowField w)⟩,
    ⟨0x27, 0x27000000, 0xFFFFFFFE, fun w => .setact (bankOfBit (bitField w))⟩,
    ⟨0x28, 0x28000000, 0xFFFFFFFF, fun _ => .swap⟩ ]

/-- The rows of FLUSH and initialization (R81, `43_flush_init.md`). -/
def flushRows : List OpRow :=
  [ ⟨0x30, 0x30000000, 0xFFFFFFFF, fun _ => .flush⟩,
    ⟨0x40, 0x40000000, 0xFFFC00FE,
      fun w => .init (chipField w) (midField w) (geometryOfBit (bitField w))⟩ ]

/-- The opcode map: 23 rows, in the order of R81. -/
def opRows : List OpRow := serializerRows ++ encoderRows ++ framebufferRows ++ flushRows

/-- A word `w` is the operation of row `r` exactly when `w & mask = match` (R81). -/
def OpRow.accepts (r : OpRow) (w : OpWord) : Bool := w &&& r.mask == r.pattern

/-! ## The decoder -/

/-- Why a word or a bit string is no instruction (R82). All three are executed as `IllegalOpWord`. -/
inductive Illegal where
  /-- The opcode byte is not one of the 23 listed. -/
  | reservedOpcode
  /-- The opcode is listed and a must-be-zero bit of its format is 1. -/
  | mustBeZero
  /-- The bits are none of the wire frames of R71 to R73. -/
  | notAFrame
  deriving DecidableEq, Repr

/-- The row whose opcode byte is `w`'s (R83: the rows are mutually exclusive because their opcode bytes differ). -/
def rowOf (w : OpWord) : Option OpRow := opRows.find? (fun r => r.opcode == opcodeField w)

/-- The decoder of operation words, total on all of them (R83). Checks that depend on state are not part of it. -/
def decodeWord (w : OpWord) : Except Illegal Instr :=
  match rowOf w with
  | none => .error .reservedOpcode
  | some r => if r.accepts w then .ok (r.assemble w) else .error .mustBeZero

/-- The decoder of wire frames: a receiver tells frames apart by the first three bits and the length of the window
(R74, R84). A 14-bit window with a write tag is read as a single write frame (R73: with `n = 1` the two are bit for bit
the same). DESIGN CHOICE (log 7): of the successive write frames of R73, `10 + 4·n` bits long, this reads `n = 0`, the
table's row, and `n = 1`; one with `n ≥ 2` nibbles is no row of the table and is refused as `notAFrame`. -/
def decodeFrame (bits : List Bool) : Except Illegal Instr :=
  if bits.take 3 = msbFirst commandTag 3 then
    if bits.length = 12 ∧ bits.drop 11 = [false] then
      .ok (.frameCommand (fieldOfBits 8 ((bits.drop 3).take 8)))
    else .error .notAFrame
  else if bits.take 3 = msbFirst writeTag 3 then
    if bits.length = 14 then
      .ok (.frameWrite (fieldOfBits 7 ((bits.drop 3).take 7)) (fieldOfBits 4 (bits.drop 10)))
    else if bits.length = 10 then .ok (.frameSuccessiveHead (fieldOfBits 7 (bits.drop 3)))
    else .error .notAFrame
  else .error .notAFrame

/-- The decoder: operation words and wire frames are two spaces (`opcode_table.json`, its column `space`). -/
def decode : Encoded → Except Illegal Instr
  | .opWord w => decodeWord w
  | .wireFrame bits => decodeFrame bits

/-! ## The encoder -/

/-- A field whose least significant bit is bit `lo` of the word, all other bits 0 (R79). -/
def place {k : Nat} (v : BitVec k) (lo : Nat) : OpWord := v.setWidth 32 <<< lo

/-- Place an opcode, the byte [23:16], the byte [15:8] and the byte [7:0] (R79). -/
def placeBytes (opcode b2 b1 b0 : BitVec 8) : OpWord :=
  place opcode 24 ||| place b2 16 ||| place b1 8 ||| place b0 0

/-- A coordinate in its 8-bit two's complement field (R80). -/
def coordField (v : Int) : BitVec 8 := BitVec.ofInt 8 v

/-- The byte [23:16] of the formats with a `chip`: bits [23:18] zero (R79). -/
def chipByte (chip : Chip) : BitVec 8 := chip.setWidth 8

/-- A byte whose low nibble is a field and whose high nibble is zero (R79). -/
def nibByte (nib : Nibble) : BitVec 8 := nib.setWidth 8

/-- A byte whose bit 0 is a field and whose other bits are zero (R79). -/
def bitByte (b : Bool) : BitVec 8 := (BitVec.ofBool b).setWidth 8

/-- The bit of `geom` (R80). -/
def bitOfGeometry : Geometry → Bool
  | .wide => false
  | .tall => true

/-- The bit of `idx` (R80). -/
def bitOfBank : Bank → Bool
  | .bank0 => false
  | .bank1 => true

/-- The encoder, inverse of the decoder: "place the opcode and the fields, all other bits 0" (R83). -/
def encode : Instr → Encoded
  | .shift value k => .opWord (place 0x01#8 24 ||| place (BitVec.ofNat 4 (k - 1)) 20 ||| place value 0)
  | .select chip => .opWord (placeBytes 0x02 (chipByte chip) 0 0)
  | .release chip => .opWord (placeBytes 0x03 (chipByte chip) 0 0)
  | .cmd chip code => .opWord (placeBytes 0x10 (chipByte chip) 0 code)
  | .wr chip addr nib => .opWord (placeBytes 0x11 (chipByte chip) addr (nibByte nib))
  | .swb chip addr => .opWord (placeBytes 0x12 (chipByte chip) addr 0)
  | .swn nib => .opWord (placeBytes 0x13 0 0 (nibByte nib))
  | .swe chip => .opWord (placeBytes 0x14 (chipByte chip) 0 0)
  | .bright chip level => .opWord (placeBytes 0x15 (chipByte chip) 0 (nibByte level))
  | .blink chip on => .opWord (placeBytes 0x16 (chipByte chip) 0 (bitByte on))
  | .cclr chip => .opWord (placeBytes 0x17 (chipByte chip) 0 0)
  | .rdd chip addr => .opWord (placeBytes 0x18 (chipByte chip) addr 0)
  | .setpx x y => .opWord (placeBytes 0x20 (coordField x) (coordField y) 0)
  | .clrpx x y => .opWord (placeBytes 0x21 (coordField x) (coordField y) 0)
  | .drawpx x y color => .opWord (placeBytes 0x22 (coordField x) (coordField y) color)
  | .getpx x y => .opWord (placeBytes 0x23 (coordField x) (coordField y) 0)
  | .cls => .opWord (placeBytes 0x24 0 0 0)
  | .fills => .opWord (placeBytes 0x25 0 0 0)
  | .setbyte addr val => .opWord (placeBytes 0x26 0 addr val)
  | .setact idx => .opWord (placeBytes 0x27 0 0 (bitByte (bitOfBank idx)))
  | .swap => .opWord (placeBytes 0x28 0 0 0)
  | .flush => .opWord (placeBytes 0x30 0 0 0)
  | .init chip mode geom => .opWord (placeBytes 0x40 (chipByte chip) mode (bitByte (bitOfGeometry geom)))
  | .frameCommand code => .wireFrame (commandFrameBits code)
  | .frameWrite addr nib => .wireFrame (writeFrameBits addr nib)
  | .frameSuccessiveHead addr => .wireFrame (writeHeadBits addr)

/-! ## The opcode table's numbering of bits -/

/-- The encoded instruction whose bits are the number `w` in a table row of `nbits` bits. A row of fewer than 32 bits
is a wire frame, read as the number its bits make sent MSB first (R71: `0x800 | (code << 1)`, R72: `0x2800 | ...`, R73);
the three ranges do not meet. Every other number is an operation word, zero above `nbits`. -/
def tableEncoded (nbits w : Nat) : Encoded :=
  if nbits < 32 then
    if 0x2800 ≤ w ∧ w < 0x3000 then .wireFrame (msbFirst (BitVec.ofNat 14 w) 14)
    else if 0x800 ≤ w ∧ w < 0xA00 then .wireFrame (msbFirst (BitVec.ofNat 12 w) 12)
    else if 0x280 ≤ w ∧ w < 0x300 then .wireFrame (msbFirst (BitVec.ofNat 10 w) 10)
    else .opWord (BitVec.ofNat 32 w)
  else .opWord (BitVec.ofNat 32 w)

/-- What the decoder reads from a table row's bits, `none` where it refuses. -/
def decodeTableWord (nbits w : Nat) : Option Instr := (decode (tableEncoded nbits w)).toOption

end Sys2Proof
end

