-- ==== Sys2Proof/Machine/Operands.lean ====
section
/-! DEFINITION. What the operands mean: the constants of the geometry (`00_scope.md` R5), the address translation from
pixels to bytes (`20_memory.md` R42 to R44), the walk of a flush (`43_flush_init.md` R181), the nibbles of a byte (R47)
and the codes of the derived commands (`30_encoding.md` R77, `41_frame_encoder.md` R126). -/

namespace Sys2Proof

/-- `Wm`, the pixel width of one module (R5). -/
def Geometry.moduleWidth : Geometry → Nat
  | .wide => 32
  | .tall => 24

/-- `Hm`, the pixel height of one module (R5). -/
def Geometry.moduleHeight : Geometry → Nat
  | .wide => 8
  | .tall => 16

/-- `STRIDE`, the bytes of a pixel row (R5). -/
def Geometry.stride : Geometry → Nat
  | .wide => 4
  | .tall => 3

/-- `BPM = ceil(Wm*Hm/8)`, the bytes of a module (R5). -/
def Geometry.bytesPerModule (g : Geometry) : Nat := (g.moduleWidth * g.moduleHeight + 7) / 8

/-- `W`, the width of the canvas (R5). -/
def Geometry.width (g : Geometry) : Nat := g.moduleWidth

/-- `H = Hm·N`, the height of the canvas (R5). -/
def Geometry.height (g : Geometry) (n : Nat) : Nat := g.moduleHeight * n

/-- `S = BPM·N`, the bytes of a bank (R5). -/
def Geometry.bankSize (g : Geometry) (n : Nat) : Nat := g.bytesPerModule * n

/-- Bank number 0 or 1 (R16). -/
def Bank.index : Bank → Nat
  | .bank0 => 0
  | .bank1 => 1

/-- `1 - ACT` (`42_framebuffer.md` R159). -/
def Bank.other : Bank → Bank
  | .bank0 => .bank1
  | .bank1 => .bank0

namespace Machine

/-- The pixel is in range: `0 ≤ x < W` and `0 ≤ y < H`, compared as signed integers (R42). -/
def inRange (g : Geometry) (n : Nat) (x y : Int) : Bool :=
  decide (0 ≤ x) && decide (x < (g.width : Int)) && decide (0 ≤ y) && decide (y < (g.height n : Int))

/-- `addr(x, y)` of R43, used for in-range pixels only. -/
def pixelAddr (g : Geometry) (x y : Int) : Nat :=
  match g with
  | .wide => (x.toNat >>> 3) + (y.toNat <<< 2)
  | .tall => (x.toNat >>> 3) + (y.toNat * 2 + y.toNat)

/-- The bit of an in-range pixel within its byte, `7 - (x mod 8)` (R44). -/
def pixelBit (x : Int) : Nat := 7 - x.toNat % 8

/-- `walk(G, N)`: every bank address in wire order, byte-column outer, row inner (R181). -/
def walk (g : Geometry) (n : Nat) : List Nat :=
  (List.range g.stride).flatMap fun c => (List.range (g.height n)).map fun y => c + g.stride * y

/-- `b[7:4]`, sent first (R47). -/
def highNibble (b : Byte) : Nibble := b.extractLsb' 4 4

/-- `b[3:0]`, sent second (R47). -/
def lowNibble (b : Byte) : Nibble := b.extractLsb' 0 4

/-- The brightness code: `PWM_BASE | level` at 8 bits (R77). -/
def brightCode (codes : CommandCodes) (level : Nibble) : Byte := codes.pwmBase ||| level.setWidth 8

/-- The code `BLINK` sends (R126). -/
def blinkCode (codes : CommandCodes) (on : Bool) : Byte := if on then codes.blinkOn else codes.blinkOff

/-- `addr[6:0]`: what a write frame carries of an 8-bit address (R75). -/
def deviceAddr (addr : Byte) : DeviceAddr := addr.setWidth 7

end Machine

end Sys2Proof
end

