-- ==== Sys2Proof/Machine/Flags.lean ====
section
/-! DEFINITION. The block has no flags and no condition codes (`10_state.md` R21): no operation writes or reads one.
What it computes on single bits is here: the byte updates and the bit test of the pixel operations
(`42_framebuffer.md` R161 (4) to (6)). -/

namespace Sys2Proof.Machine

/-- `m = 1 << (7 - (x mod 8))`, a one-hot byte (R151, R161 (4)). -/
def pixelMask (x : Int) : Byte := 1#8 <<< pixelBit x

/-- Turn the pixel's bit on: OR with the mask (R151). -/
def setPixelBit (b : Byte) (x : Int) : Byte := b ||| pixelMask x

/-- Turn the pixel's bit off: AND with the mask's 8-bit complement (R152). -/
def clearPixelBit (b : Byte) (x : Int) : Byte := b &&& ~~~(pixelMask x)

/-- The pixel's bit as a number, 1 or 0: logical right shift and AND with 1 (R154, R161 (6)). -/
def testPixelBit (b : Byte) (x : Int) : Nat := ((b >>> pixelBit x) &&& 1#8).toNat

end Sys2Proof.Machine
end

