-- ==== Sys2Proof/Machine/Lines.lean ====
section
/-! DEFINITION. The lines of the block, the line actions and what an action does to the latches (`00_scope.md` R9,
`10_state.md` R12), and the list of actions of the reset procedure (`70_reset_and_hazards.md` R221). -/

namespace Sys2Proof.Machine

/-- The line names (R9). `cs i` is `CSi`; it exists for `i < N`. -/
inductive Line where
  | data
  | wr
  | cs (i : Nat)
  | rd
  | lock
  deriving DecidableEq, Repr

/-- A line action (R9). -/
inductive Action where
  /-- `set(L, v)`. -/
  | set (l : Line) (v : Level)
  /-- `cfg_out(L)`. -/
  | cfgOut (l : Line)
  deriving DecidableEq, Repr

/-- The line latches `LINE[L]` (R12). The list `cs` has one level for each select line that exists; `rd` is `none`
when the block has no read-clock line. -/
structure Lines where
  data : Level
  wr   : Level
  cs   : List Level
  rd   : Option Level
  lock : Level
  deriving DecidableEq, Repr

/-- The level of a line, `none` when the line does not exist (R10: `LINE[CSi]`, `i ≥ N`, and `RD` are absent). -/
def Lines.level (ls : Lines) : Line → Option Level
  | .data => some ls.data
  | .wr => some ls.wr
  | .cs i => ls.cs[i]?
  | .rd => ls.rd
  | .lock => some ls.lock

/-- `LINE[L] <- v` (R9). A line that does not exist has no latch. -/
def Lines.drive (ls : Lines) (l : Line) (v : Level) : Lines :=
  match l with
  | .data => { ls with data := v }
  | .wr => { ls with wr := v }
  | .cs i => { ls with cs := ls.cs.set i v }
  | .rd => { ls with rd := ls.rd.map fun _ => v }
  | .lock => { ls with lock := v }

/-- What one action does to the latches: `cfg_out` does nothing (R9). -/
def Lines.perform (ls : Lines) : Action → Lines
  | .set l v => ls.drive l v
  | .cfgOut _ => ls

/-- The latches after reset (R22). -/
def Lines.afterReset (p : Straps) : Lines :=
  { data := false, wr := true, cs := List.replicate p.n true,
    rd := if p.hasRd then some true else none, lock := false }

/-- `cfg_out(L) ; set(L, v)`. -/
def idleActions (l : Line) (v : Level) : List Action := [.cfgOut l, .set l v]

/-- The actions of the reset procedure, in the order of R221. -/
def resetActions (p : Straps) : List Action :=
  (List.range p.n).flatMap (fun i => idleActions (.cs i) true) ++
  idleActions .wr true ++ idleActions .data false ++
  (if p.hasRd then idleActions .rd true else []) ++ idleActions .lock false

end Sys2Proof.Machine
end

