-- ==== Sys2Proof/Machine/State.lean ====
section
/-! DEFINITION. The state of the block: exactly what `10_state.md` R10 lists, the ghost lists of `00_scope.md` R7 (the
action trace and the responses), and two fields of the model's own (`port`, log 6, and `draws`, log 3); the reasons a
step can stop; and the state after reset (R22, `70_reset_and_hazards.md` R221). -/

namespace Sys2Proof.Machine

/-- A bank's bytes: (address, byte) pairs, addresses strictly rising. A bank that exists lists every one of its `S`
bytes; an address that is not listed does not exist and reads as no value (`20_memory.md` R41, R52; log 9). -/
abbrev Memory := List Host.Cell

/-- The state of the block. -/
structure State where
  /-- The strap `N`, the number of chips (R11). -/
  n : Nat
  /-- The strap `HAS_RD` (R11). -/
  hasRd : Bool
  /-- The line latches `LINE` (R12). -/
  lines : Lines
  /-- `SR.val` (R13). -/
  srVal : SerWord
  /-- `SR.mask` (R13). -/
  srMask : SerWord
  /-- `INITED` (R14). -/
  inited : Bool
  /-- `GEOM`, without value before the first `INIT` (R15). -/
  geom : Option Geometry
  /-- `FB[0]` (R16), empty while it does not exist. -/
  fb0 : Memory
  /-- `FB[1]` (R16), empty while it does not exist. -/
  fb1 : Memory
  /-- The active selector `ACT` (R17). -/
  act : Bank
  /-- The action trace `T`, ghost, oldest action first (R24). -/
  trace : List Action
  /-- The responses of `GETPX` and `RDD`, ghost, in issue order (R7 (b), R19; log 8). -/
  responses : List Nat
  /-- MODEL: the operations the host presents and the block has not yet accepted, the next one first (log 6). -/
  port : List Encoded
  /-- MODEL: how many times bank contents have been drawn; numbers the free bytes of `FB_INIT` (log 3). -/
  draws : Nat
  deriving DecidableEq, Repr

/-- The reasons a step ends in a fault. The block itself raises no exception (`60_exceptions.md` R200): both mark a read
that the spec says is never made, and no state that meets the invariant R23 reaches either. -/
inductive Fault where
  /-- A byte address with no byte in the active bank. Raised by every read or write of a bank byte; `MemRead` and
  `MemWrite` are "defined only for `0 ≤ a < S`" (`00_scope.md` R8). Safe: the model stops. -/
  | byteAbsent (addr : Nat)
  /-- A read of `GEOM` while it has no value. Raised by every operation that needs the geometry; "the absent value is
  never read" (R15). Safe: the model stops. -/
  | geometryAbsent
  deriving DecidableEq, Repr

/-- The reasons a step is refused: the closed list of `60_exceptions.md` R202, and `notModelled`. A refusal ends the run
with no state changed. All are safe: the model stops where the spec gives no behaviour. -/
inductive Refusal where
  /-- An instruction of the opcode table with no meaning in this model, by its mnemonic. Raised by `exec` alone; no arm
  raises it now. -/
  | notModelled (mnemonic : String)
  /-- `IllegalOpWord` (R82): raised by `step` when the word presented is no instruction, and by `SHIFT` for a
  count that no word can carry (log 12). -/
  | illegalOpWord
  /-- `ChipOutOfRange` (R105): raised by every operation with a `chip` operand when `chip ≥ N`. -/
  | chipOutOfRange
  /-- `NotInitialised` (R150): raised by the framebuffer operations and `FLUSH` while `INITED = 0`. -/
  | notInitialised
  /-- `PokeOutOfRange` (R157): raised by `SETBYTE` when `addr ≥ S`. -/
  | pokeOutOfRange
  deriving DecidableEq, Repr

/-- What a meaning answers. -/
abbrev Result := Host.Outcome State Fault Refusal

/-- The state after the reset procedure of R221 with the straps `p`: the values of R22, `SR.val` at the value log 2
names, nothing at the port, no response. -/
def State.resetWith (p : Straps) : State :=
  { n := p.n, hasRd := p.hasRd, lines := Lines.afterReset p, srVal := 0, srMask := 0, inited := false, geom := none,
    fb0 := [], fb1 := [], act := .bank0, trace := resetActions p, responses := [], port := [], draws := 0 }

/-- The state right after reset, with the straps of `Config.straps` (log 1). -/
def State.reset : State := State.resetWith Config.straps

end Sys2Proof.Machine
end

