-- ==== Sys2Proof/Machine/Ops.lean ====
section
/-! DEFINITION. The shared operations: line actions (`00_scope.md` R9), the serializer (`40_serializer_mux.md` R100,
R101), the multiplexer (R102, R103), the checks in the order of `60_exceptions.md` R205, the bank accesses
(`00_scope.md` R8), the frames (`41_frame_encoder.md` R120 to R124), the fetch of the next operation, and a later reset
(`70_reset_and_hazards.md` R224). Taking an exception and returning from one do not exist on this hardware (R200, R206,
R207). -/

namespace Sys2Proof.Machine

/-! ## Line actions -/

/-- `set(L, v)`: the latch takes the level and the action is appended to `T`, changed level or not (R9). -/
def setLine (l : Line) (v : Level) (s : State) : State :=
  { s with lines := s.lines.drive l v, trace := s.trace ++ [.set l v] }

/-- `emit_bit(b)`: clock low, data, clock high (R100). -/
def emitBit (b : Bool) (s : State) : State :=
  setLine .wr true (setLine .data b (setLine .wr false s))

/-! ## The serializer (R101) -/

/-- The loop of R101: while the mask is not zero, send the bit of `SR.val` under it and shift the mask right. The first
argument bounds the number of rounds; 16 are enough for a 16-bit mask. -/
def shiftLoop : Nat → State → State
  | 0, s => s
  | k + 1, s =>
    if s.srMask = 0 then s
    else
      let s' := emitBit (s.srVal &&& s.srMask != 0) s
      shiftLoop k { s' with srMask := s'.srMask >>> 1 }

/-- `SHIFT value, k`: load `SR.val` and the one-hot `SR.mask = 1 << (k - 1)`, then the loop (R101). -/
def shiftOut (value : SerWord) (k : Nat) (s : State) : State :=
  shiftLoop 16 { s with srVal := value, srMask := 1#16 <<< (k - 1) }

/-- One field of `k` bits through one `SHIFT` (`30_encoding.md` R75). -/
def shiftField {w : Nat} (v : BitVec w) (k : Nat) (s : State) : State := shiftOut (v.setWidth 16) k s

/-! ## The multiplexer -/

/-- `set(CS<chip>, 0)` (R102). -/
def selectChip (chip : Chip) (s : State) : State := setLine (.cs chip.toNat) false s

/-- `set(CS<chip>, 1)` (R103). -/
def releaseChip (chip : Chip) (s : State) : State := setLine (.cs chip.toNat) true s

/-! ## Checks (R205) -/

/-- The chip-range check of R105, made before any action. -/
def ifChip (chip : Chip) (s : State) (r : Result) : Result :=
  if chip.toNat < s.n then r else .refused .chipOutOfRange

/-- The check of R150: the banks exist. -/
def ifInited (s : State) (r : Result) : Result :=
  if s.inited then r else .refused .notInitialised

/-- A read of `GEOM` (R15). -/
def withGeometry (s : State) (k : Geometry → Result) : Result :=
  match s.geom with
  | some g => k g
  | none => .fault .geometryAbsent

/-! ## The banks -/

/-- The byte at an address, `none` where no byte is (R8, R41). -/
def Memory.read : Memory → Nat → Option Byte
  | [], _ => none
  | (a, b) :: rest, x => if a = x then some b else Memory.read rest x

/-- Replace the byte at an address that has one. -/
def Memory.write : Memory → Nat → Byte → Memory
  | [], _, _ => []
  | (a, b) :: rest, x, v => if a = x then (a, v) :: rest else (a, b) :: Memory.write rest x v

/-- The canonical form: addresses strictly rising. An address that is not listed reads as no value, so no entry can
equal what an unlisted address reads as (log 9). -/
abbrev Memory.wf (m : Memory) : Prop := (m.map Prod.fst).Pairwise (· < ·)

/-- The addresses a bank has bytes at. -/
def Memory.addresses (m : Memory) : List Nat := m.map Prod.fst

/-- `FB[b]`. -/
def State.bank (s : State) : Bank → Memory
  | .bank0 => s.fb0
  | .bank1 => s.fb1

/-- `FB[b]` replaced. -/
def State.withBank (s : State) (b : Bank) (m : Memory) : State :=
  match b with
  | .bank0 => { s with fb0 := m }
  | .bank1 => { s with fb1 := m }

/-- One byte of a bank, `none` where there is none. -/
def State.byte (s : State) (b : Bank) (a : Nat) : Option Byte := (s.bank b).read a

/-- `MemRead(a, 1)`: the byte at `a` of the active bank (R8). -/
def withByte (a : Nat) (s : State) (k : Byte → Result) : Result :=
  match s.byte s.act a with
  | some b => k b
  | none => .fault (.byteAbsent a)

/-- `MemWrite(a, 1, v)`: byte `a` of the active bank takes `v` (R8). -/
def memWrite (a : Nat) (v : Byte) (s : State) : Result :=
  withByte a s fun _ => .next (s.withBank s.act ((s.bank s.act).write a v))

/-- `MemWrite(a, 1, v)` for each address of a list, in order (R155, R156). -/
def writeAll : List Nat → Byte → State → Result
  | [], _, s => .next s
  | a :: rest, v, s =>
    match memWrite a v s with
    | .next s' => writeAll rest v s'
    | .fault f => .fault f
    | .refused r => .refused r

/-- A pixel write (R151, R152): checks, then the read-modify-write of one byte, or no effect out of range. -/
def updatePixel (f : Byte → Int → Byte) (x y : Int) (s : State) : Result :=
  ifInited s (withGeometry s fun g =>
    if inRange g s.n x y then
      withByte (pixelAddr g x y) s fun b => memWrite (pixelAddr g x y) (f b x) s
    else .next s)

/-- The whole active bank written with one byte (R155, R156). -/
def fillBank (v : Byte) (s : State) : Result :=
  ifInited s (withGeometry s fun g => writeAll (List.range (g.bankSize s.n)) v s)

/-- A response handed to the host (R19), kept in the ghost list (R7 (b)). -/
def respond (v : Nat) (s : State) : State := { s with responses := s.responses ++ [v] }

/-! ## The frames (`30_encoding.md` part A, R75: each field by one `SHIFT`) -/

/-- The bits of a command frame: tag, code, padding 0 (R71, R120). -/
def shiftCommand (code : Byte) (s : State) : State :=
  shiftField 0#1 1 (shiftField code 8 (shiftField commandTag 3 s))

/-- Tag and address of a write frame. Of an address with more than 7 bits the low 7 go out (R75). -/
def shiftWriteHead {w : Nat} (addr : BitVec w) (s : State) : State :=
  shiftField addr 7 (shiftField writeTag 3 s)

/-- One nibble (R123). -/
def shiftNibble (nib : Nibble) (s : State) : State := shiftField nib 4 s

/-- A whole command frame to one chip: select, bits, release (R120). -/
def sendCommand (chip : Chip) (code : Byte) (s : State) : State :=
  releaseChip chip (shiftCommand code (selectChip chip s))

/-- A whole single write frame to one chip (R121). -/
def sendWrite (chip : Chip) (addr : Byte) (nib : Nibble) (s : State) : State :=
  releaseChip chip (shiftNibble nib (shiftWriteHead addr (selectChip chip s)))

/-- The start of a successive write frame: select, tag, address (R122). -/
def beginStream (chip : Chip) (addr : Byte) (s : State) : State := shiftWriteHead addr (selectChip chip s)

/-- A command frame for each code of a list, in list order (`43_flush_init.md` R184). -/
def sendCommands (chip : Chip) : List Byte → State → State
  | [], s => s
  | code :: rest, s => sendCommands chip rest (sendCommand chip code s)

/-- A single write frame of the zero nibble for each address of a list, in list order (R127). -/
def clearAddresses (chip : Chip) : List Nat → State → State
  | [], s => s
  | a :: rest, s => clearAddresses chip rest (sendWrite chip (BitVec.ofNat 8 a) 0 s)

/-- The 256 writes of `CCLR`, `a` ascending from 0 (R127). -/
def clearChip (chip : Chip) (s : State) : State := clearAddresses chip (List.range 256) s

/-- The bytes of the active bank at a list of addresses, each as two nibbles, high first (R180, R47). -/
def streamBytes : List Nat → State → Result
  | [], s => .next s
  | a :: rest, s =>
    withByte a s fun b => streamBytes rest (shiftNibble (lowNibble b) (shiftNibble (highNibble b) s))

/-! ## Initialization -/

/-- The contents of bank `b` right after an allocation: one free byte for each of `size` addresses (R16). -/
def drawBank (draw : Nat) (b : Bank) (size : Nat) : Memory :=
  (List.range size).map fun a => (a, Config.fbInit draw b.index a)

/-- The first `INIT`: latch the geometry, allocate both banks with unspecified contents, set `INITED`. A later one does
none of this and ignores its `geom` (R183). -/
def allocate (g : Geometry) (s : State) : State :=
  if s.inited then s
  else
    { s with
      geom := some g
      fb0 := drawBank s.draws .bank0 (g.bankSize s.n)
      fb1 := drawBank s.draws .bank1 (g.bankSize s.n)
      inited := true
      draws := s.draws + 1 }

/-! ## The port, and a later reset -/

/-- The next operation the host presents, and the state once the block has accepted it; `none` while the host presents
none (R54, R78, R220; log 6). -/
def fetch (s : State) : Option (Encoded × State) :=
  match s.port with
  | [] => none
  | e :: rest => some (e, { s with port := rest })

/-- A later reset: the reset procedure again, with possibly different straps (R224). Nothing of the block's state
survives; only the model's counter of draws goes on, so that new banks are a new draw (log 3, log 16). -/
def State.reconstruct (p : Straps) (s : State) : State := { State.resetWith p with draws := s.draws }

end Sys2Proof.Machine
end

