-- ==== Sys2Proof/Machine/Encoder.lean ====
section
/-! DEFINITION. ENC: the nine operations of `41_frame_encoder.md` (R120 to R128). None touches a bank, `ACT`, `GEOM` or
`INITED`, and none requires `INITED = 1`. -/

namespace Sys2Proof.Machine

/-- `CMD chip, code` (R120). -/
def execCmd (chip : Chip) (code : Byte) (s : State) : Result := ifChip chip s (.next (sendCommand chip code s))

/-- `WR chip, addr, nib` (R121). -/
def execWr (chip : Chip) (addr : Byte) (nib : Nibble) (s : State) : Result :=
  ifChip chip s (.next (sendWrite chip addr nib s))

/-- `SWB chip, addr` (R122): the select line stays low. -/
def execSwb (chip : Chip) (addr : Byte) (s : State) : Result := ifChip chip s (.next (beginStream chip addr s))

/-- `SWN nib` (R123): to whichever chips are selected; no check. -/
def execSwn (nib : Nibble) (s : State) : Result := .next (shiftNibble nib s)

/-- `SWE chip` (R124): `RELEASE` under another name. -/
def execSwe (chip : Chip) (s : State) : Result := ifChip chip s (.next (releaseChip chip s))

/-- `BRIGHT chip, level` (R125): a `CMD` with the code of R77. -/
def execBright (chip : Chip) (level : Nibble) (s : State) : Result :=
  ifChip chip s (.next (sendCommand chip (brightCode Config.cc level) s))

/-- `BLINK chip, on` (R126). -/
def execBlink (chip : Chip) (on : Bool) (s : State) : Result :=
  ifChip chip s (.next (sendCommand chip (blinkCode Config.cc on) s))

/-- `CCLR chip` (R127). -/
def execCclr (chip : Chip) (s : State) : Result := ifChip chip s (.next (clearChip chip s))

/-- `RDD chip, addr` (R128): response 0, no action, for every address. -/
def execRdd (chip : Chip) (_addr : Byte) (s : State) : Result := ifChip chip s (.next (respond 0 s))

end Sys2Proof.Machine
end

