-- ==== Sys2Proof/Machine/Flush.lean ====
section
/-! DEFINITION. FLUSH and initialization (`43_flush_init.md` R180 to R184). -/

namespace Sys2Proof.Machine

/-- `FLUSH` (R180): `LOCK` up, one successive write frame of the whole active bank to chip 0 in the order of R181,
`LOCK` down. There is no chip check, "since `0 < N` always". -/
def execFlush (s : State) : Result :=
  ifInited s (withGeometry s fun g =>
    match streamBytes (walk g s.n) (beginStream 0 0 (setLine .lock true s)) with
    | .next s' => .next (setLine .lock false (releaseChip 0 s'))
    | .fault f => .fault f
    | .refused r => .refused r)

/-- `INIT chip, mode, geom` (R183): the allocation on the first one, then on every one the command frames of
`INIT_CMDS(mode)` and the 256 writes of `CCLR`, to that chip. -/
def execInit (chip : Chip) (mode : Byte) (geom : Geometry) (s : State) : Result :=
  ifChip chip s (.next (clearChip chip (sendCommands chip (Config.initCmds mode) (allocate geom s))))

end Sys2Proof.Machine
end

