-- ==== Sys2Proof/Machine/Framebuffer.lean ====
section
/-! DEFINITION. FB: the nine operations of `42_framebuffer.md` (R151 to R159). None performs a line action. Each needs
`INITED = 1` (R150). -/

namespace Sys2Proof.Machine

/-- `SETPX x, y` (R151). -/
def execSetpx (x y : Int) (s : State) : Result := updatePixel setPixelBit x y s

/-- `CLRPX x, y` (R152). -/
def execClrpx (x y : Int) (s : State) : Result := updatePixel clearPixelBit x y s

/-- `DRAWPX x, y, color` (R153): every colour but 0 turns the pixel on. -/
def execDrawpx (x y : Int) (color : Byte) (s : State) : Result :=
  if color ≠ 0 then updatePixel setPixelBit x y s else updatePixel clearPixelBit x y s

/-- `GETPX x, y` (R154): response 1 if the pixel is on, 0 if it is off or out of range. -/
def execGetpx (x y : Int) (s : State) : Result :=
  ifInited s (withGeometry s fun g =>
    if inRange g s.n x y then
      withByte (pixelAddr g x y) s fun b => .next (respond (testPixelBit b x) s)
    else .next (respond 0 s))

/-- `CLS` (R155). -/
def execCls (s : State) : Result := fillBank 0x00#8 s

/-- `FILLS` (R156). -/
def execFills (s : State) : Result := fillBank 0xFF#8 s

/-- `SETBYTE addr, val` (R157): refused when `addr ≥ S`, never clipped. -/
def execSetbyte (addr val : Byte) (s : State) : Result :=
  ifInited s (withGeometry s fun g =>
    if addr.toNat < g.bankSize s.n then memWrite addr.toNat val s else .refused .pokeOutOfRange)

/-- `SETACT idx` (R158). -/
def execSetact (idx : Bank) (s : State) : Result := ifInited s (.next { s with act := idx })

/-- `SWAP` (R159): the index flip. -/
def execSwap (s : State) : Result := ifInited s (.next { s with act := s.act.other })

end Sys2Proof.Machine
end

