-- ==== Sys2Proof/Machine/Serializer.lean ====
section
/-! DEFINITION. SER and MUX: `SHIFT`, `SELECT`, `RELEASE` (`40_serializer_mux.md` R101 to R103). -/

namespace Sys2Proof.Machine

/-- `SHIFT value, k` (R101). Neither `INITED` nor a selected chip is required. A count outside 1 to 16 cannot be encoded
(R85, R101 (c)): no word decodes to it, and it is refused (log 12). -/
def execShift (value : SerWord) (k : Nat) (s : State) : Result :=
  if countFits k then .next (shiftOut value k s) else .refused .illegalOpWord

/-- `SELECT chip` (R102). -/
def execSelect (chip : Chip) (s : State) : Result := ifChip chip s (.next (selectChip chip s))

/-- `RELEASE chip` (R103). -/
def execRelease (chip : Chip) (s : State) : Result := ifChip chip s (.next (releaseChip chip s))

end Sys2Proof.Machine
end

