-- ==== Sys2Proof/Machine/WireFrames.lean ====
section
/-! DEFINITION. The three wire-frame rows of the opcode table (`30_encoding.md` R71 to R73): the serializer puts exactly
the row's bits on the wire, field by field (R75). A row has no `chip` field, so nothing is selected or released; the
frame operations of `41_frame_encoder.md` are these between a select and a release (log 7). -/

namespace Sys2Proof.Machine

/-- FRAME_COMMAND (R71): the 12 bits `100 c7..c0 0`. -/
def execFrameCommand (code : Byte) (s : State) : Result := .next (shiftCommand code s)

/-- FRAME_WRITE (R72): the 14 bits `101 a6..a0 d3..d0`. -/
def execFrameWrite (addr : DeviceAddr) (nib : Nibble) (s : State) : Result :=
  .next (shiftNibble nib (shiftWriteHead addr s))

/-- FRAME_SUCCESSIVE_HEAD (R73): the 10 bits `101 a6..a0`. -/
def execFrameSuccessiveHead (addr : DeviceAddr) (s : State) : Result := .next (shiftWriteHead addr s)

end Sys2Proof.Machine
end

