-- ==== Sys2Proof/Machine/Dispatch.lean ====
section
/-! DEFINITION. One arm for each constructor of `Instr`. -/

namespace Sys2Proof.Machine

def exec (i : Instr) (s : State) : Host.Outcome State Fault Refusal :=
  match i with
  | .shift value k => Sys2Proof.Machine.execShift value k s
  | .select chip => Sys2Proof.Machine.execSelect chip s
  | .release chip => Sys2Proof.Machine.execRelease chip s
  | .cmd chip code => Sys2Proof.Machine.execCmd chip code s
  | .wr chip addr nib => Sys2Proof.Machine.execWr chip addr nib s
  | .swb chip addr => Sys2Proof.Machine.execSwb chip addr s
  | .swn nib => Sys2Proof.Machine.execSwn nib s
  | .swe chip => Sys2Proof.Machine.execSwe chip s
  | .bright chip level => Sys2Proof.Machine.execBright chip level s
  | .blink chip on => Sys2Proof.Machine.execBlink chip on s
  | .cclr chip => Sys2Proof.Machine.execCclr chip s
  | .rdd chip addr => Sys2Proof.Machine.execRdd chip addr s
  | .setpx x y => Sys2Proof.Machine.execSetpx x y s
  | .clrpx x y => Sys2Proof.Machine.execClrpx x y s
  | .drawpx x y color => Sys2Proof.Machine.execDrawpx x y color s
  | .getpx x y => Sys2Proof.Machine.execGetpx x y s
  | .cls => Sys2Proof.Machine.execCls s
  | .fills => Sys2Proof.Machine.execFills s
  | .setbyte addr val => Sys2Proof.Machine.execSetbyte addr val s
  | .setact idx => Sys2Proof.Machine.execSetact idx s
  | .swap => Sys2Proof.Machine.execSwap s
  | .flush => Sys2Proof.Machine.execFlush s
  | .init chip mode geom => Sys2Proof.Machine.execInit chip mode geom s
  | .frameCommand code => Sys2Proof.Machine.execFrameCommand code s
  | .frameWrite addr nib => Sys2Proof.Machine.execFrameWrite addr nib s
  | .frameSuccessiveHead addr => Sys2Proof.Machine.execFrameSuccessiveHead addr s

end Sys2Proof.Machine
end

