-- ==== Sys2Proof/Machine/Step.lean ====
section
/-! DEFINITION. One step: the block accepts the next operation the host presents and runs it to completion
(`20_memory.md` R54). While the host presents none it waits (`70_reset_and_hazards.md` R220). -/

namespace Sys2Proof.Machine

/-- One step (R54, R83, R205): take the next operation from the port, decode it, run it. Something that is no
instruction is refused before anything else (R82). With nothing at the port the block waits and its state stands. -/
def step (s : State) : Host.Outcome State Fault Refusal :=
  match fetch s with
  | none => .next s
  | some (e, s') =>
    match decode e with
    | .ok i => exec i s'
    | .error _ => .refused .illegalOpWord

/-- `s` with the instruction whose table bits are `w` presented at the port, before everything already there (log 6). -/
def State.withFetchWord (s : State) (nbits w : Nat) : State := { s with port := tableEncoded nbits w :: s.port }

end Sys2Proof.Machine
end

