-- ==== Sys2Proof/Machine/Views.lean ====
section
/-! DEFINITION. The action trace `T` and its views (`10_state.md` R24 to R26): the transition trace `T2`, the
received-bit view `T3`; and the actions that a list of bits or a frame stands for (`40_serializer_mux.md` R100). -/

namespace Sys2Proof.Machine

/-- The straps of a state. -/
def State.straps (s : State) : Straps := { n := s.n, hasRd := s.hasRd }

/-! ## Actions of bits and frames -/

/-- The three actions of each bit, in order (R100). -/
def bitActions (bits : List Bool) : List Action :=
  bits.flatMap fun b => [.set .wr false, .set .data b, .set .wr true]

/-- The actions of one frame to one chip: select, bits, release (`30_encoding.md` R70). -/
def frameActions (chip : Nat) (bits : List Bool) : List Action :=
  .set (.cs chip) false :: bitActions bits ++ [.set (.cs chip) true]

/-- The state after the bits `bits` went out of the serializer, `SR.val` left at `v` and `DATA` at `last`. -/
def State.afterBits (s : State) (v : SerWord) (bits : List Bool) (last : Level) : State :=
  { s with
    lines := { s.lines with wr := true, data := last }
    srVal := v
    srMask := 0
    trace := s.trace ++ bitActions bits }

/-- The state after frames to one chip, each with its own select and release: the select line is high, `SR.val` is left
at `v` and `DATA` at `last`. -/
def State.afterFrames (s : State) (chip : Nat) (v : SerWord) (frames : List (List Bool)) (last : Level) : State :=
  { s with
    lines := { s.lines with cs := s.lines.cs.set chip true, wr := true, data := last }
    srVal := v
    srMask := 0
    trace := s.trace ++ frames.flatMap (frameActions chip) }

/-- The state after one whole frame to a chip. -/
def State.afterFrame (s : State) (chip : Nat) (v : SerWord) (bits : List Bool) (last : Level) : State :=
  { s with
    lines := { s.lines with cs := s.lines.cs.set chip true, wr := true, data := last }
    srVal := v
    srMask := 0
    trace := s.trace ++ frameActions chip bits }

/-- The bits of the write of the zero nibble at device address `a` (`41_frame_encoder.md` R127). -/
def clearBits (a : Nat) : List Bool := writeFrameBits (deviceAddr (BitVec.ofNat 8 a)) 0

/-! ## The level a trace leaves a line at -/

/-- The `v` of the last `set(l, v)` in a trace, `none` if there is none (R12). -/
def lastLevel (l : Line) : List Action → Option Level
  | [] => none
  | .cfgOut _ :: rest => lastLevel l rest
  | .set l' v :: rest => (lastLevel l rest).or (if l' = l then some v else none)

/-- The action drives the line `l`. -/
def Action.drives (l : Line) : Action → Bool
  | .set l' _ => l' = l
  | .cfgOut _ => false

/-! ## `T2` (R25) -/

/-- Replay with the levels known so far: a `set` is kept if the line's level before it differs, `cfg_out` is dropped. -/
def transitionsFrom : List (Line × Level) → List Action → List Action
  | _, [] => []
  | known, .cfgOut _ :: rest => transitionsFrom known rest
  | known, .set l v :: rest =>
    if known.lookup l = some v then transitionsFrom known rest
    else .set l v :: transitionsFrom ((l, v) :: known) rest

/-- The transition trace `T2`: replay of `T` from every line undriven (R25). -/
def State.transitionTrace (s : State) : List Action := transitionsFrom [] s.trace

/-! ## `T3` (R26) -/

/-- A window `(i, bits)`: what chip `i` receives while its select line is low. -/
abbrev Window := Nat × List Bool

/-- The replay of R26: the levels, the open windows and the finished ones. -/
structure Replay where
  lines  : Lines
  opened : List Window
  out    : List Window
  deriving DecidableEq, Repr

/-- The effect of one action on the windows, with the levels before it (R26). -/
def Replay.windows (r : Replay) : Action → List Window × List Window
  | .set (.cs i) v =>
    if v = false ∧ r.lines.level (.cs i) = some true then
      (r.opened.filter (fun w => w.1 ≠ i) ++ [(i, [])], r.out)
    else if v = true ∧ r.lines.level (.cs i) = some false then
      (r.opened.filter (fun w => w.1 ≠ i), r.out ++ [(i, (r.opened.lookup i).getD [])])
    else (r.opened, r.out)
  | .set .wr v =>
    if v = true ∧ r.lines.wr = false then
      (r.opened.map (fun w => (w.1, w.2 ++ [r.lines.data])), r.out)
    else (r.opened, r.out)
  | _ => (r.opened, r.out)

/-- One action of the replay. -/
def Replay.act (r : Replay) (a : Action) : Replay :=
  { lines := r.lines.perform a, opened := (r.windows a).1, out := (r.windows a).2 }

/-- The replay's start: the reset levels of R22, no window. -/
def Replay.start (p : Straps) : Replay := { lines := Lines.afterReset p, opened := [], out := [] }

/-- The replay of every action after the reset actions (R26). -/
def State.received (s : State) : Replay :=
  (s.trace.drop (resetActions s.straps).length).foldl Replay.act (Replay.start s.straps)

/-- The finished windows of `T3`, in the order they were closed (R26). -/
def State.windows (s : State) : List Window := s.received.out

/-- The windows of `T3` still open at the end, "marked unfinished" (R26), in the order they were opened. -/
def State.unfinished (s : State) : List Window := s.received.opened

end Sys2Proof.Machine
end

