-- ==== Sys2Proof/Safety.lean ====
section
/-! DEFINITION. The terms in which claims speak of safe runs: the invariant of `10_state.md` R23, the states a run can
reach, a run of several operations, and the duties of the host that can be said of a list of operations or of a state
(`70_reset_and_hazards.md` R223, R231, R232). -/

namespace Sys2Proof

/-- The operations of `42_framebuffer.md`. -/
def Instr.isFramebuffer : Instr → Bool
  | .setpx _ _ | .clrpx _ _ | .drawpx _ _ _ | .getpx _ _ | .cls | .fills | .setbyte _ _ | .setact _ | .swap => true
  | .shift _ _ | .select _ | .release _ | .cmd _ _ | .wr _ _ _ | .swb _ _ | .swn _ | .swe _ | .bright _ _ => false
  | .blink _ _ | .cclr _ | .rdd _ _ | .flush | .init _ _ _ => false
  | .frameCommand _ | .frameWrite _ _ | .frameSuccessiveHead _ => false

namespace Machine

/-- The invariants of R23 with what R10 to R16 say of the same elements: what holds between operations in every
reachable state. -/
structure State.Inv (s : State) : Prop where
  /-- `N ∈ {1, 2, 3, 4}` (R4). -/
  straps_legal : s.straps.legal
  /-- `LINE[CSi]` exists exactly for `i < N` (R12). -/
  cs_count : s.lines.cs.length = s.n
  /-- `LINE[RD]` exists exactly when `HAS_RD`, and is 1 always (R12, R23 (h)). -/
  rd_high : s.lines.rd = if s.hasRd then some true else none
  /-- `LINE[WR] = 1` between operations (R23 (f)). -/
  wr_high : s.lines.wr = true
  /-- `LINE[LOCK] = 0` between operations (R23 (g)). -/
  lock_low : s.lines.lock = false
  /-- `SR.mask = 0` between operations (R23 (e)). -/
  mask_zero : s.srMask = 0
  /-- `INITED = 0` if and only if `GEOM` has no value (R23 (a)). -/
  geom_inited : s.inited = s.geom.isSome
  /-- `INITED = 0` if and only if the banks are absent (R23 (a)). -/
  banks_absent : s.inited = false → s.fb0 = [] ∧ s.fb1 = []
  /-- Both banks have exactly the addresses `0..S-1`, in rising order (R16, R23 (c)). -/
  banks_present : ∀ g, s.geom = some g →
    s.fb0.addresses = List.range (g.bankSize s.n) ∧ s.fb1.addresses = List.range (g.bankSize s.n)
  /-- `T` begins with the actions of reset (R22, R24). -/
  trace_reset : resetActions s.straps <+: s.trace
  /-- `LINE[L]` equals the `v` of the last `set(L, v)` in `T` (R12). -/
  trace_levels : ∀ l, s.lines.level l = lastLevel l s.trace
  /-- A response is 0 or 1 (R19). -/
  responses_bits : ∀ r ∈ s.responses, r ≤ 1

/-- A state that a run can reach: reset with legal straps, the host presenting one more operation at any time, a step of
the block. -/
inductive Reachable : State → Prop where
  | reset (p : Straps) (h : p.legal) : Reachable (State.resetWith p)
  | present (s : State) (e : Encoded) (h : Reachable s) : Reachable { s with port := s.port ++ [e] }
  | step (s t : State) (h : Reachable s) (hs : step s = .next t) : Reachable t

/-- Operations run one after the other, as the host issues them (`20_memory.md` R54); the first fault or refusal ends
the run (`60_exceptions.md` R202). -/
def runOps : List Instr → State → Result
  | [], s => .next s
  | i :: rest, s =>
    match exec i s with
    | .next s' => runOps rest s'
    | .fault f => .fault f
    | .refused r => .refused r

/-- The chip-range condition of R105. -/
def chipRefusal (chip : Chip) (s : State) : Option Refusal :=
  if chip.toNat < s.n then none else some .chipOutOfRange

/-- The condition of `42_framebuffer.md` R150. -/
def bankRefusal (s : State) : Option Refusal := if s.inited then none else some .notInitialised

/-- The refusal that `60_exceptions.md` R201 and R205 give an instruction that decodes, in a state; `none` where R201
gives it an outcome. The checks stand in the order of R205: decode (a count no word can carry, log 12), chip range, `INITED`,
poke range. -/
def expectedRefusal (s : State) : Instr → Option Refusal
  | .shift _ k => if countFits k then none else some .illegalOpWord
  | .swn _ => none
  | .select chip | .release chip | .cmd chip _ | .wr chip _ _ | .swb chip _ | .swe chip | .bright chip _ =>
    chipRefusal chip s
  | .blink chip _ | .cclr chip | .rdd chip _ | .init chip _ _ => chipRefusal chip s
  | .setpx _ _ | .clrpx _ _ | .drawpx _ _ _ | .getpx _ _ | .cls | .fills | .setact _ | .swap | .flush =>
    bankRefusal s
  | .setbyte addr _ =>
    match s.geom with
    | none => some .notInitialised
    | some g => if addr.toNat < g.bankSize s.n then none else some .pokeOutOfRange
  | .frameCommand _ | .frameWrite _ _ | .frameSuccessiveHead _ => none

/-- What `GETPX x, y` would answer of bank `b` for an in-range pixel under geometry `g` (R154); `none` where the bank
has no such byte. -/
def State.pixel (s : State) (b : Bank) (g : Geometry) (x y : Int) : Option Nat :=
  (s.byte b (pixelAddr g x y)).map fun v => testPixelBit v x

/-- Everything but the bytes of the banks is the same. -/
def State.sameButBanks (s t : State) : Prop := { t with fb0 := s.fb0, fb1 := s.fb1 } = s

/-- Everything the wire operations do not write is the same: all but `LINE`, `SR` and `T`. -/
def State.sameButWire (s t : State) : Prop :=
  { t with lines := s.lines, srVal := s.srVal, srMask := s.srMask, trace := s.trace } = s

/-- No chip is selected: every select line is high. -/
abbrev State.noneSelected (s : State) : Prop := ∀ v ∈ s.lines.cs, v = true

/-- At most one select line is low: the host's duty of R232. -/
abbrev State.oneSelected (s : State) : Prop := (s.lines.cs.filter (fun v => v = false)).length ≤ 1

/-- The successive-write bracket, a duty of the host (R231): after `SWB chip` only `SWN` and operations of
`42_framebuffer.md` until `SWE chip`, and every `SWB` has its `SWE`. The argument is the chip whose frame is open. -/
def bracketOk : Option Chip → List Instr → Bool
  | none, [] => true
  | some _, [] => false
  | none, .swb chip _ :: rest => bracketOk (some chip) rest
  | none, _ :: rest => bracketOk none rest
  | some c, .swe chip :: rest => if chip = c then bracketOk none rest else false
  | some c, .swn _ :: rest => bracketOk (some c) rest
  | some c, i :: rest => if i.isFramebuffer then bracketOk (some c) rest else false

/-- The boot of R223 steps 1 and 2: `INIT` of every chip with the same geometry, then each bank chosen and cleared. -/
def bootOps (n : Nat) (mode : Byte) (geom : Geometry) : List Instr :=
  (List.range n).map (fun i => Instr.init (BitVec.ofNat 2 i) mode geom) ++
  [.setact .bank0, .cls, .setact .bank1, .cls]

end Machine

end Sys2Proof
end

