-- ==== Sys2Proof/Certificates/Slice0/Obligations.lean ====
section
/-! DEFINITION. The statements for the provers. Each docstring names the rules of `spec/` its statement rests on. `log n`
is `notes/assumptions/n.md`. Free values (`Config.cc`, `Config.initCmds`, `Config.fbInit`) are opaque: every statement
holds whatever they are. -/

open Sys2Proof Sys2Proof.Machine

/-! ## Reset and the invariant -/

/-- R22, R221: the values after reset and the list of reset actions, for all straps. `SR.val` is unspecified there and
is left out (log 2). -/
def Obligations.ResetGivesTheSpecifiedState : Prop :=
  ∀ p : Straps, p.legal →
    (State.resetWith p).n = p.n ∧ (State.resetWith p).hasRd = p.hasRd ∧
    (∀ i, (State.resetWith p).lines.level (.cs i) = if i < p.n then some true else none) ∧
    (State.resetWith p).lines.level .wr = some true ∧ (State.resetWith p).lines.level .data = some false ∧
    (State.resetWith p).lines.level .rd = (if p.hasRd then some true else none) ∧
    (State.resetWith p).lines.level .lock = some false ∧
    (State.resetWith p).srMask = 0 ∧ (State.resetWith p).inited = false ∧ (State.resetWith p).geom = none ∧
    (State.resetWith p).fb0 = [] ∧ (State.resetWith p).fb1 = [] ∧ (State.resetWith p).act = .bank0 ∧
    (State.resetWith p).trace =
      (List.range p.n).flatMap (fun i => [.cfgOut (.cs i), .set (.cs i) true]) ++
      [.cfgOut .wr, .set .wr true, .cfgOut .data, .set .data false] ++
      (if p.hasRd then [.cfgOut .rd, .set .rd true] else []) ++ [.cfgOut .lock, .set .lock false] ∧
    (State.resetWith p).trace.length = 2 * (p.n + (if p.hasRd then 4 else 3))

/-- R23 and R10 to R16 at reset: the invariant holds right after reset, for all straps and for `State.reset`. -/
def Obligations.ResetMeetsTheInvariant : Prop :=
  (∀ p : Straps, p.legal → (State.resetWith p).Inv) ∧ State.reset.Inv

/-- R224: nothing of the block's state survives a later reset; only the model's own counter of draws goes on (log 16). -/
def Obligations.LaterResetForgetsEverything : Prop :=
  ∀ (p : Straps) (s s' : State), s.draws = s'.draws →
    s.reconstruct p = s'.reconstruct p ∧
    ∀ d, { s.reconstruct p with draws := d } = { State.resetWith p with draws := d }

/-- Every step from a state that meets the invariant of R23 leads to one that meets it. -/
def Obligations.StepKeepsTheInvariant : Prop := ∀ s t : State, s.Inv → step s = .next t → t.Inv

/-- R23 (a) to (h): the invariants in every reachable state, and what never changes once `INITED = 1`. -/
def Obligations.ReachableStatesMeetTheInvariants : Prop :=
  ∀ s : State, Reachable s →
    (s.inited = false ↔ s.fb0 = [] ∧ s.fb1 = []) ∧ (s.inited = false ↔ s.geom = none) ∧
    (∀ t, step s = .next t → s.inited = true → t.inited = true ∧ t.geom = s.geom ∧ t.n = s.n) ∧
    s.fb0.addresses = s.fb1.addresses ∧
    (∀ g, s.geom = some g → s.fb0.length = g.bankSize s.n) ∧
    (s.act = .bank0 ∨ s.act = .bank1) ∧ s.srMask = 0 ∧ s.lines.level .wr = some true ∧
    s.lines.level .lock = some false ∧ (∀ v, s.lines.level .rd = some v → v = true)

/-- Every reachable state meets the whole invariant `State.Inv`, in which the trace begins with the reset actions and
`LINE[L]` equals the `v` of the last `set(L, v)` in `T` (R12, R22). -/
def Obligations.ReachableLinesFollowTheTrace : Prop :=
  ∀ s : State, Reachable s →
    s.Inv ∧ (∀ l, s.lines.level l = lastLevel l s.trace) ∧ resetActions s.straps <+: s.trace

/-- The canonical form of the banks: every instruction keeps it, in every state. -/
def Obligations.EveryInstructionKeepsBanksCanonical : Prop :=
  ∀ (i : Instr) (s t : State), exec i s = .next t → s.fb0.wf ∧ s.fb1.wf → t.fb0.wf ∧ t.fb1.wf

/-! ## Encoding -/

/-- Decoding the encoding of every instruction whose operands fit gives it back (R83; the wire frames R71 to R73). -/
def Obligations.DecodeOfEncodeIsTheInstruction : Prop :=
  ∀ i : Instr, i.wf = true → decode (encode i) = .ok i

/-- Encoding what a legal word decodes to gives the word back, and its operands fit (R83). -/
def Obligations.EncodeOfDecodeIsTheWord : Prop :=
  ∀ (w : OpWord) (i : Instr), decodeWord w = .ok i →
    encode i = .opWord w ∧ i.wf = true ∧ i.isOperation = true

/-- The match and mask columns of R81, in its order. -/
def opcodeMap : List (OpWord × OpWord) :=
  [(0x01000000, 0xFF0F0000), (0x02000000, 0xFFFCFFFF), (0x03000000, 0xFFFCFFFF), (0x10000000, 0xFFFCFF00),
   (0x11000000, 0xFFFC00F0), (0x12000000, 0xFFFC00FF), (0x13000000, 0xFFFFFFF0), (0x14000000, 0xFFFCFFFF),
   (0x15000000, 0xFFFCFFF0), (0x16000000, 0xFFFCFFFE), (0x17000000, 0xFFFCFFFF), (0x18000000, 0xFFFC00FF),
   (0x20000000, 0xFF0000FF), (0x21000000, 0xFF0000FF), (0x22000000, 0xFF000000), (0x23000000, 0xFF0000FF),
   (0x24000000, 0xFFFFFFFF), (0x25000000, 0xFFFFFFFF), (0x26000000, 0xFFFF0000), (0x27000000, 0xFFFFFFFE),
   (0x28000000, 0xFFFFFFFF), (0x30000000, 0xFFFFFFFF), (0x40000000, 0xFFFC00FE)]

/-- R81, R82: a word is an operation exactly when it matches a row of the opcode map, no word matches two, and the step
refuses a word that matches none. -/
def Obligations.LegalWordsAreThoseOfTheMap : Prop :=
  (∀ w : OpWord, (∃ i, decodeWord w = .ok i) ↔ ∃ r ∈ opcodeMap, w &&& r.2 = r.1) ∧
  (∀ (w : OpWord) (r q : OpWord × OpWord), r ∈ opcodeMap → q ∈ opcodeMap → w &&& r.2 = r.1 → w &&& q.2 = q.1 → r = q) ∧
  (∀ (w : OpWord) (s : State) (rest : List Encoded), s.port = .opWord w :: rest →
    (∀ r ∈ opcodeMap, w &&& r.2 ≠ r.1) → step s = .refused .illegalOpWord)

/-- Words of `95_test_vectors.md` V23, and one of V7, and the instructions they stand for, one at least for each family (R79, R80). -/
def Obligations.WordsOfTheVectorsDecode : Prop :=
  decodeWord 0x01200005 = .ok (.shift 0x5 3) ∧ decodeWord 0x02030000 = .ok (.select 3) ∧
  decodeWord 0x1101250A = .ok (.wr 1 0x25 0xA) ∧ decodeWord 0x17020000 = .ok (.cclr 2) ∧
  decodeWord 0x200A0300 = .ok (.setpx 10 3) ∧ decodeWord 0x22FFFFFF = .ok (.drawpx (-1) (-1) 0xFF) ∧
  decodeWord 0x27000001 = .ok (.setact .bank1) ∧ decodeWord 0x30000000 = .ok .flush ∧
  decodeWord 0x4003FF01 = .ok (.init 3 0xFF .tall) ∧ decodeWord 0x01210005 = .error .mustBeZero ∧
  decodeWord 0x19000000 = .error .reservedOpcode

/-- A step runs exactly the decoded instruction with the operation taken from the port; it refuses what is no
instruction; with nothing presented the block waits (R54, R82, R83, R220; the port is the model's own, log 6). -/
def Obligations.StepRunsTheDecodedInstruction : Prop :=
  (∀ (s : State) (e : Encoded) (rest : List Encoded) (i : Instr), s.port = e :: rest → decode e = .ok i →
    step s = exec i { s with port := rest }) ∧
  (∀ (s : State) (e : Encoded) (rest : List Encoded) (r : Illegal), s.port = e :: rest → decode e = .error r →
    step s = .refused .illegalOpWord) ∧
  (∀ s : State, s.port = [] → step s = .next s)

/-! ## Serializer and multiplexer -/

/-- R100: one bit is clock low, data, clock high. -/
def Obligations.OneBitIsThreeActions : Prop :=
  ∀ (v : SerWord) (s : State), ∃ t, exec (.shift v 1) s = .next t ∧
    t.trace = s.trace ++ [.set .wr false, .set .data (v.getLsbD 0), .set .wr true] ∧
    t.lines.level .wr = some true ∧ t.lines.level .data = some (v.getLsbD 0)

/-- R101: `SHIFT value, k` sends `value[k-1]` down to `value[0]`, `3·k` actions, from every state, and changes nothing
but `SR`, `WR`, `DATA` and `T`; every selected chip and no other receives the bits; two shifts of `k1 + k2 ≤ 16` bits
are one shift of the concatenation, which R101 marks as derived, the spec's own inference. -/
def Obligations.ShiftSendsTheLowBitsMsbFirst : Prop :=
  (∀ (v : SerWord) (n : BitVec 4),
    encode (.shift v (n.toNat + 1)) = .opWord (place 0x01#8 24 ||| place n 20 ||| place v 0)) ∧
  (∀ (v : SerWord) (k : Nat) (s : State), 1 ≤ k → k ≤ 16 →
    exec (.shift v k) s = .next (s.afterBits v (msbFirst v k) (v.getLsbD 0)) ∧
    (s.afterBits v (msbFirst v k) (v.getLsbD 0)).trace.length = s.trace.length + 3 * k ∧
    (∀ j, j < k → (msbFirst v k)[j]? = some (v.getLsbD (k - 1 - j)))) ∧
  (∀ (v : SerWord) (k : Nat) (s t : State), s.Inv → 1 ≤ k → k ≤ 16 → exec (.shift v k) s = .next t →
    t.unfinished = s.unfinished.map (fun w => (w.1, w.2 ++ msbFirst v k)) ∧ t.windows = s.windows) ∧
  (∀ (v w : SerWord) (k m : Nat) (s t : State), 1 ≤ k → 1 ≤ m → k + m ≤ 16 →
    runOps [.shift v k, .shift w m] s = .next t →
    ∃ t', exec (.shift ((v <<< m) ||| (w &&& ((1#16 <<< m) - 1#16))) (k + m)) s = .next t' ∧
      t'.trace = t.trace ∧ t'.lines = t.lines)

/-- R102: `SELECT chip` drives only its own select line low, one action, nothing else; refused when `chip ≥ N`. A
released chip gets a new, empty window; for a selected one there is no transition and no new window. That the new
window stands last among the open ones is the model's choice (log 18). -/
def Obligations.SelectDrivesOnlyItsLineLow : Prop :=
  ∀ (chip : Chip) (s : State),
    encode (.select chip) = .opWord (placeBytes 0x02 (chipByte chip) 0 0) ∧
    (chip.toNat < s.n → exec (.select chip) s = .next { s with
      lines := { s.lines with cs := s.lines.cs.set chip.toNat false },
      trace := s.trace ++ [.set (.cs chip.toNat) false] }) ∧
    (s.n ≤ chip.toNat → exec (.select chip) s = .refused .chipOutOfRange) ∧
    (∀ t, s.Inv → exec (.select chip) s = .next t → s.lines.level (.cs chip.toNat) = some false →
      t.lines = s.lines ∧ t.transitionTrace = s.transitionTrace ∧ t.windows = s.windows ∧
      t.unfinished = s.unfinished) ∧
    (∀ t, s.Inv → exec (.select chip) s = .next t → s.lines.level (.cs chip.toNat) = some true →
      t.windows = s.windows ∧ t.unfinished = s.unfinished ++ [(chip.toNat, [])])

/-- R103: `RELEASE chip` drives only its own select line high, one action, nothing else; refused when `chip ≥ N`. It
ends the frame of a selected chip; for a released one no level changes. -/
def Obligations.ReleaseDrivesOnlyItsLineHigh : Prop :=
  ∀ (chip : Chip) (s : State),
    encode (.release chip) = .opWord (placeBytes 0x03 (chipByte chip) 0 0) ∧
    (chip.toNat < s.n → exec (.release chip) s = .next { s with
      lines := { s.lines with cs := s.lines.cs.set chip.toNat true },
      trace := s.trace ++ [.set (.cs chip.toNat) true] }) ∧
    (s.n ≤ chip.toNat → exec (.release chip) s = .refused .chipOutOfRange) ∧
    (∀ t bits, s.Inv → exec (.release chip) s = .next t → (chip.toNat, bits) ∈ s.unfinished →
      t.windows = s.windows ++ [(chip.toNat, bits)] ∧
      t.unfinished = s.unfinished.filter (fun w => w.1 ≠ chip.toNat)) ∧
    (∀ t, s.Inv → exec (.release chip) s = .next t → s.lines.level (.cs chip.toNat) = some true →
      t.lines = s.lines ∧ t.windows = s.windows ∧ t.unfinished = s.unfinished)

/-- R104, R26: the open windows are exactly those of the selected chips, however many are selected; whatever an
operation that only shifts puts on the wire is appended to every open window, and no window is finished. -/
def Obligations.BitsReachEverySelectedChip : Prop :=
  ∀ s : State, s.Inv →
    (∀ i, i ∈ s.unfinished.map Prod.fst ↔ s.lines.level (.cs i) = some false) ∧
    (∀ (i : Instr) (bits : List Bool) (t : State),
      (∃ v k, 1 ≤ k ∧ k ≤ 16 ∧ i = .shift v k ∧ bits = msbFirst v k) ∨
      (∃ nib, i = .swn nib ∧ bits = msbFirst nib 4) ∨
      (∃ code, i = .frameCommand code ∧ bits = [true, false, false] ++ msbFirst code 8 ++ [false]) ∨
      (∃ addr nib, i = .frameWrite addr nib ∧ bits = [true, false, true] ++ msbFirst addr 7 ++ msbFirst nib 4) ∨
      (∃ addr, i = .frameSuccessiveHead addr ∧ bits = [true, false, true] ++ msbFirst addr 7) →
      exec i s = .next t →
      t.unfinished = s.unfinished.map (fun w => (w.1, w.2 ++ bits)) ∧ t.windows = s.windows)

/-- R105: every operation with a `chip` operand is refused when `chip ≥ N`, whatever else the state is. -/
def Obligations.ChipOutOfRangeIsRefused : Prop :=
  ∀ (chip : Chip) (s : State), s.n ≤ chip.toNat →
    exec (.select chip) s = .refused .chipOutOfRange ∧ exec (.release chip) s = .refused .chipOutOfRange ∧
    (∀ code, exec (.cmd chip code) s = .refused .chipOutOfRange) ∧
    (∀ addr nib, exec (.wr chip addr nib) s = .refused .chipOutOfRange) ∧
    (∀ addr, exec (.swb chip addr) s = .refused .chipOutOfRange) ∧ exec (.swe chip) s = .refused .chipOutOfRange ∧
    (∀ level, exec (.bright chip level) s = .refused .chipOutOfRange) ∧
    (∀ on, exec (.blink chip on) s = .refused .chipOutOfRange) ∧ exec (.cclr chip) s = .refused .chipOutOfRange ∧
    (∀ addr, exec (.rdd chip addr) s = .refused .chipOutOfRange) ∧
    (∀ mode geom, exec (.init chip mode geom) s = .refused .chipOutOfRange)

/-! ## Frame encoder -/

/-- R120, R71: `CMD` sends `"100"`, the code MSB first and `"0"` between select and release of one chip, and changes
nothing else; with no chip selected it is one window; a chip selected before receives the bits in its open window.
The value left in `SR.val` is the model's own, a frame being shifted field by field (log 15). -/
def Obligations.CommandFrameHasTwelveBits : Prop :=
  ∀ (chip : Chip) (code : Byte) (s : State),
    encode (.cmd chip code) = .opWord (placeBytes 0x10 (chipByte chip) 0 code) ∧
    (chip.toNat < s.n → exec (.cmd chip code) s = .next
      (s.afterFrame chip.toNat 0 ([true, false, false] ++ msbFirst code 8 ++ [false]) false)) ∧
    (s.n ≤ chip.toNat → exec (.cmd chip code) s = .refused .chipOutOfRange) ∧
    (∀ t, s.Inv → exec (.cmd chip code) s = .next t →
      t.windows = s.windows ++ [(chip.toNat, (s.unfinished.lookup chip.toNat).getD [] ++
        ([true, false, false] ++ msbFirst code 8 ++ [false]))] ∧
      t.unfinished = (s.unfinished.filter (fun w => w.1 ≠ chip.toNat)).map
        (fun w => (w.1, w.2 ++ ([true, false, false] ++ msbFirst code 8 ++ [false])))) ∧
    (∀ t, s.Inv → s.noneSelected → exec (.cmd chip code) s = .next t →
      t.windows = s.windows ++ [(chip.toNat, [true, false, false] ++ msbFirst code 8 ++ [false])] ∧
      t.unfinished = [] ∧ t.trace.length = s.trace.length + 38)

/-- R121, R72: `WR` sends `"101"`, the low 7 bits of the address and the nibble between select and release of one chip;
with no chip selected it is one window; a chip selected before receives the bits in its open window.
The value left in `SR.val` is the model's own, a frame being shifted field by field (log 15). -/
def Obligations.WriteFrameHasFourteenBits : Prop :=
  ∀ (chip : Chip) (addr : Byte) (nib : Nibble) (s : State),
    encode (.wr chip addr nib) = .opWord (placeBytes 0x11 (chipByte chip) addr (nibByte nib)) ∧
    (chip.toNat < s.n → exec (.wr chip addr nib) s = .next (s.afterFrame chip.toNat (nib.setWidth 16)
      ([true, false, true] ++ msbFirst addr 7 ++ msbFirst nib 4) (nib.getLsbD 0))) ∧
    (s.n ≤ chip.toNat → exec (.wr chip addr nib) s = .refused .chipOutOfRange) ∧
    (∀ t, s.Inv → exec (.wr chip addr nib) s = .next t →
      t.windows = s.windows ++ [(chip.toNat, (s.unfinished.lookup chip.toNat).getD [] ++
        ([true, false, true] ++ msbFirst addr 7 ++ msbFirst nib 4))] ∧
      t.unfinished = (s.unfinished.filter (fun w => w.1 ≠ chip.toNat)).map
        (fun w => (w.1, w.2 ++ ([true, false, true] ++ msbFirst addr 7 ++ msbFirst nib 4)))) ∧
    (∀ t, s.Inv → s.noneSelected → exec (.wr chip addr nib) s = .next t →
      t.windows = s.windows ++ [(chip.toNat, [true, false, true] ++ msbFirst addr 7 ++ msbFirst nib 4)] ∧
      t.unfinished = [] ∧ t.trace.length = s.trace.length + 44)

/-- R122: `SWB` selects one chip, sends `"101"` and the low 7 bits of the address, and leaves the chip selected; the
windows are given for the case with no chip selected before.
The value left in `SR.val` is the model's own, a frame being shifted field by field (log 15). -/
def Obligations.StreamBeginLeavesTheChipSelected : Prop :=
  ∀ (chip : Chip) (addr : Byte) (s : State),
    encode (.swb chip addr) = .opWord (placeBytes 0x12 (chipByte chip) addr 0) ∧
    (chip.toNat < s.n → exec (.swb chip addr) s = .next { s with
      lines := { s.lines with cs := s.lines.cs.set chip.toNat false, wr := true, data := addr.getLsbD 0 },
      srVal := addr.setWidth 16, srMask := 0,
      trace := s.trace ++ .set (.cs chip.toNat) false :: bitActions ([true, false, true] ++ msbFirst addr 7) }) ∧
    (s.n ≤ chip.toNat → exec (.swb chip addr) s = .refused .chipOutOfRange) ∧
    (∀ t, s.Inv → s.noneSelected → exec (.swb chip addr) s = .next t →
      t.unfinished = [(chip.toNat, [true, false, true] ++ msbFirst addr 7)] ∧ t.windows = s.windows ∧
      t.lines.level (.cs chip.toNat) = some false ∧ t.trace.length = s.trace.length + 31)

/-- R123: `SWN` sends the four bits of the nibble MSB first, 12 actions, from every state, to every open window. -/
def Obligations.StreamNibbleSendsFourBits : Prop :=
  ∀ (nib : Nibble) (s : State),
    encode (.swn nib) = .opWord (placeBytes 0x13 0 0 (nibByte nib)) ∧
    exec (.swn nib) s = .next (s.afterBits (nib.setWidth 16)
      [nib.getLsbD 3, nib.getLsbD 2, nib.getLsbD 1, nib.getLsbD 0] (nib.getLsbD 0)) ∧
    (∀ t, s.Inv → exec (.swn nib) s = .next t → t.trace.length = s.trace.length + 12 ∧ t.windows = s.windows ∧
      t.unfinished = s.unfinished.map (fun w =>
        (w.1, w.2 ++ [nib.getLsbD 3, nib.getLsbD 2, nib.getLsbD 1, nib.getLsbD 0])))

/-- R124: `SWE` releases one chip, one action; the chip's open window is finished with the bits it has. -/
def Obligations.StreamEndClosesTheWindow : Prop :=
  ∀ (chip : Chip) (s : State),
    encode (.swe chip) = .opWord (placeBytes 0x14 (chipByte chip) 0 0) ∧
    (chip.toNat < s.n → exec (.swe chip) s = .next { s with
      lines := { s.lines with cs := s.lines.cs.set chip.toNat true },
      trace := s.trace ++ [.set (.cs chip.toNat) true] }) ∧
    (s.n ≤ chip.toNat → exec (.swe chip) s = .refused .chipOutOfRange) ∧
    (∀ t bits, s.Inv → exec (.swe chip) s = .next t → (chip.toNat, bits) ∈ s.unfinished →
      t.windows = s.windows ++ [(chip.toNat, bits)] ∧ ∀ b, (chip.toNat, b) ∉ t.unfinished) ∧
    (∀ t, s.Inv → exec (.swe chip) s = .next t → s.lines.level (.cs chip.toNat) = some true →
      t.windows = s.windows ∧ t.unfinished = s.unfinished ∧ t.lines = s.lines)

/-- A successive write frame spelled as `SWB`, any number of `SWN` and `SWE` is one window of `10 + 4·n` bits (R73,
R84), for every list of nibbles. -/
def Obligations.StreamIsOneWindow : Prop :=
  ∀ (chip : Chip) (addr : Byte) (nibs : List Nibble) (s : State), s.Inv → s.noneSelected → chip.toNat < s.n →
    ∃ t, runOps (.swb chip addr :: nibs.map .swn ++ [.swe chip]) s = .next t ∧
      t.windows = s.windows ++
        [(chip.toNat, [true, false, true] ++ msbFirst addr 7 ++ nibs.flatMap (fun d => msbFirst d 4))] ∧
      t.unfinished = [] ∧ t.lines.cs = s.lines.cs

/-- R125, R77: `BRIGHT chip, level` is the `CMD` of the code `PWM_BASE | level`, in every state and for every table.
The value left in `SR.val` is the model's own, a frame being shifted field by field (log 15). -/
def Obligations.BrightnessIsTheOredCommand : Prop :=
  ∀ (chip : Chip) (level : Nibble) (s : State),
    encode (.bright chip level) = .opWord (placeBytes 0x15 (chipByte chip) 0 (nibByte level)) ∧
    exec (.bright chip level) s = exec (.cmd chip (Config.cc.pwmBase ||| level.setWidth 8)) s ∧
    (chip.toNat < s.n → exec (.bright chip level) s = .next (s.afterFrame chip.toNat 0
      ([true, false, false] ++ msbFirst (Config.cc.pwmBase ||| level.setWidth 8) 8 ++ [false]) false)) ∧
    (s.n ≤ chip.toNat → exec (.bright chip level) s = .refused .chipOutOfRange)

/-- R126: `BLINK chip, on` is the `CMD` of `BLINK_ON` or `BLINK_OFF`, in every state and for every table.
The value left in `SR.val` is the model's own, a frame being shifted field by field (log 15). -/
def Obligations.BlinkIsItsCommand : Prop :=
  ∀ (chip : Chip) (on : Bool) (s : State),
    encode (.blink chip on) = .opWord (placeBytes 0x16 (chipByte chip) 0 (bitByte on)) ∧
    exec (.blink chip on) s = exec (.cmd chip (if on then Config.cc.blinkOn else Config.cc.blinkOff)) s ∧
    (chip.toNat < s.n → exec (.blink chip on) s = .next (s.afterFrame chip.toNat 0
      ([true, false, false] ++ msbFirst (if on then Config.cc.blinkOn else Config.cc.blinkOff) 8 ++ [false]) false)) ∧
    (s.n ≤ chip.toNat → exec (.blink chip on) s = .refused .chipOutOfRange)

/-- R127: `CCLR` sends 256 single write frames of the zero nibble, window `a` with the low 7 bits of `a`, ascending.
The value left in `SR.val` is the model's own, a frame being shifted field by field (log 15). -/
def Obligations.ChipClearSendsAllAddressesTwice : Prop :=
  ∀ (chip : Chip) (s : State),
    encode (.cclr chip) = .opWord (placeBytes 0x17 (chipByte chip) 0 0) ∧
    (chip.toNat < s.n → exec (.cclr chip) s = .next (s.afterFrames chip.toNat 0 ((List.range 256).map fun a =>
      [true, false, true] ++ msbFirst (BitVec.ofNat 7 a) 7 ++ [false, false, false, false]) false)) ∧
    (s.n ≤ chip.toNat → exec (.cclr chip) s = .refused .chipOutOfRange) ∧
    (∀ t, s.Inv → s.noneSelected → exec (.cclr chip) s = .next t →
      t.windows = s.windows ++ (List.range 256).map (fun a =>
        (chip.toNat, [true, false, true] ++ msbFirst (BitVec.ofNat 7 a) 7 ++ [false, false, false, false])) ∧
      t.unfinished = [] ∧ t.trace.length = s.trace.length + 11264)

/-- R128: `RDD` answers 0 for every address, performs no action and changes no state. -/
def Obligations.ReadStubAnswersZero : Prop :=
  ∀ (chip : Chip) (addr : Byte) (s : State),
    encode (.rdd chip addr) = .opWord (placeBytes 0x18 (chipByte chip) addr 0) ∧
    (chip.toNat < s.n → exec (.rdd chip addr) s = .next { s with responses := s.responses ++ [0] }) ∧
    (s.n ≤ chip.toNat → exec (.rdd chip addr) s = .refused .chipOutOfRange)

/-- R70 to R73, R86: the wire frames' bits, and the frame operations as a frame between a select and a release. That a
frame row selects nothing itself is the model's reading (log 7).
The equation of `SWB` is over 7-bit addresses, `StreamBeginLeavesTheChipSelected` has the 8-bit ones.
The value left in `SR.val` is the model's own, a frame being shifted field by field (log 15). -/
def Obligations.FramesAreSelectBitsRelease : Prop :=
  (∀ (code : Byte) (s : State), exec (.frameCommand code) s = .next
    (s.afterBits 0 ([true, false, false] ++ msbFirst code 8 ++ [false]) false)) ∧
  (∀ (addr : DeviceAddr) (nib : Nibble) (s : State), exec (.frameWrite addr nib) s = .next
    (s.afterBits (nib.setWidth 16) ([true, false, true] ++ msbFirst addr 7 ++ msbFirst nib 4) (nib.getLsbD 0))) ∧
  (∀ (addr : DeviceAddr) (s : State), exec (.frameSuccessiveHead addr) s = .next
    (s.afterBits (addr.setWidth 16) ([true, false, true] ++ msbFirst addr 7) (addr.getLsbD 0))) ∧
  (∀ (chip : Chip) (code : Byte) (s : State),
    runOps [.select chip, .frameCommand code, .release chip] s = exec (.cmd chip code) s) ∧
  (∀ (chip : Chip) (addr : Byte) (nib : Nibble) (s : State),
    runOps [.select chip, .frameWrite (addr.setWidth 7) nib, .release chip] s = exec (.wr chip addr nib) s) ∧
  (∀ (chip : Chip) (addr : DeviceAddr) (s : State),
    runOps [.select chip, .frameSuccessiveHead addr] s = exec (.swb chip (addr.setWidth 8)) s) ∧
  (∀ (addr : DeviceAddr) (nib : Nibble) (s : State),
    runOps [.frameSuccessiveHead addr, .swn nib] s = exec (.frameWrite addr nib) s)

/-- None of the operations of `41_frame_encoder.md`, the primitives and the wire frames reads or writes a bank, `ACT`,
`GEOM` or `INITED`: run beside any other value of these it does the same and keeps that value. -/
def Obligations.EncoderIgnoresTheFramebuffer : Prop :=
  ∀ (i : Instr) (s t : State) (b : Bool) (g : Option Geometry) (m m' : Memory) (a : Bank),
    i.isFramebuffer = false → i ≠ .flush → (∀ c mode g', i ≠ .init c mode g') → exec i s = .next t →
    exec i { s with inited := b, geom := g, fb0 := m, fb1 := m', act := a } =
      .next { t with inited := b, geom := g, fb0 := m, fb1 := m', act := a }

/-! ## Framebuffer -/

/-- R5: the constants of the two geometries, for every module count. `S = STRIDE·H` is an inference R5 marks as derived,
and the size of TALL and its vertical stacking are the spec's own reading (`92_eei_decisions.md` D9). -/
def Obligations.GeometryConstants : Prop :=
  (Geometry.wide.moduleWidth = 32 ∧ Geometry.wide.moduleHeight = 8 ∧ Geometry.wide.bytesPerModule = 32) ∧
  (Geometry.tall.moduleWidth = 24 ∧ Geometry.tall.moduleHeight = 16 ∧ Geometry.tall.bytesPerModule = 48) ∧
  (∀ n, Geometry.wide.width = 32 ∧ Geometry.wide.height n = 8 * n ∧ Geometry.wide.stride = 4 ∧
    Geometry.wide.bankSize n = 32 * n) ∧
  (∀ n, Geometry.tall.width = 24 ∧ Geometry.tall.height n = 16 * n ∧ Geometry.tall.stride = 3 ∧
    Geometry.tall.bankSize n = 48 * n) ∧
  (∀ (g : Geometry) (n : Nat), g.bankSize n = g.stride * g.height n) ∧
  (∀ (g : Geometry) (n : Nat), 1 ≤ n → n ≤ 4 → 32 ≤ g.bankSize n ∧ g.bankSize n ≤ 192)

/-- R45: every in-range pixel has a byte of the bank and a bit of it, two pixels never share a bit, and every bit of
the bank is some in-range pixel. -/
def Obligations.PixelMapIsABijection : Prop :=
  ∀ (g : Geometry) (n : Nat),
    (∀ x y, inRange g n x y = true → pixelAddr g x y < g.bankSize n ∧ pixelBit x < 8) ∧
    (∀ x y x' y', inRange g n x y = true → inRange g n x' y' = true →
      pixelAddr g x y = pixelAddr g x' y' → pixelBit x = pixelBit x' → x = x' ∧ y = y') ∧
    (∀ a bit, a < g.bankSize n → bit < 8 →
      ∃ x y, inRange g n x y = true ∧ pixelAddr g x y = a ∧ pixelBit x = bit) ∧
    (∀ m x y, m < n → inRange g n x y = true →
      ((g.moduleHeight * m : Int) ≤ y ∧ y < g.moduleHeight * (m + 1) ↔
        g.bytesPerModule * m ≤ pixelAddr g x y ∧ pixelAddr g x y < g.bytesPerModule * (m + 1)))

/-- R42, R43, R44 in numbers: the range test is signed, the address is `(x >> 3) + STRIDE·y`, the bit is
`7 - (x mod 8)`. -/
def Obligations.PixelAddressingFormula : Prop :=
  (∀ (g : Geometry) (n : Nat) (x y : Int),
    inRange g n x y = true ↔ 0 ≤ x ∧ x < g.width ∧ 0 ≤ y ∧ y < g.height n) ∧
  (∀ (g : Geometry) (x y : Nat), pixelAddr g x y = x / 8 + g.stride * y) ∧
  (∀ x : Nat, pixelBit x = 7 - x % 8 ∧ pixelMask x = BitVec.ofNat 8 (2 ^ (7 - x % 8)))

/-- R150: the nine framebuffer operations and `FLUSH` are refused while `INITED = 0`. -/
def Obligations.UninitialisedIsRefused : Prop :=
  ∀ s : State, s.inited = false → ∀ i : Instr, i.isFramebuffer = true ∨ i = .flush →
    exec i s = .refused .notInitialised

/-- R151: `SETPX` in range turns on one bit of the active bank's byte and changes no other byte of either bank and
nothing else; out of range it has no effect. -/
def Obligations.SetPixelTurnsOnOneBit : Prop :=
  ∀ (x y : Int) (s : State),
    (coordFits x = true → coordFits y = true →
      encode (.setpx x y) = .opWord (placeBytes 0x20 (BitVec.ofInt 8 x) (BitVec.ofInt 8 y) 0)) ∧
    (s.inited = false → exec (.setpx x y) s = .refused .notInitialised) ∧
    (∀ g, s.Inv → s.geom = some g → inRange g s.n x y = false → exec (.setpx x y) s = .next s) ∧
    (∀ g, s.Inv → s.geom = some g → inRange g s.n x y = true →
      ∃ old t, s.byte s.act (pixelAddr g x y) = some old ∧ exec (.setpx x y) s = .next t ∧ s.sameButBanks t ∧
        (∀ b a, t.byte b a = if b = s.act ∧ a = pixelAddr g x y
          then some (old ||| (1#8 <<< (7 - x.toNat % 8))) else s.byte b a) ∧
        (∀ j, j < 8 → (old ||| (1#8 <<< (7 - x.toNat % 8))).getLsbD j =
          (decide (j = 7 - x.toNat % 8) || old.getLsbD j)))

/-- R152: `CLRPX` in range turns off one bit of the active bank's byte and changes no other byte of either bank and
nothing else; out of range it has no effect. -/
def Obligations.ClearPixelTurnsOffOneBit : Prop :=
  ∀ (x y : Int) (s : State),
    (coordFits x = true → coordFits y = true →
      encode (.clrpx x y) = .opWord (placeBytes 0x21 (BitVec.ofInt 8 x) (BitVec.ofInt 8 y) 0)) ∧
    (s.inited = false → exec (.clrpx x y) s = .refused .notInitialised) ∧
    (∀ g, s.Inv → s.geom = some g → inRange g s.n x y = false → exec (.clrpx x y) s = .next s) ∧
    (∀ g, s.Inv → s.geom = some g → inRange g s.n x y = true →
      ∃ old t, s.byte s.act (pixelAddr g x y) = some old ∧ exec (.clrpx x y) s = .next t ∧ s.sameButBanks t ∧
        (∀ b a, t.byte b a = if b = s.act ∧ a = pixelAddr g x y
          then some (old &&& ~~~(1#8 <<< (7 - x.toNat % 8))) else s.byte b a) ∧
        (∀ j, j < 8 → (old &&& ~~~(1#8 <<< (7 - x.toNat % 8))).getLsbD j =
          (!decide (j = 7 - x.toNat % 8) && old.getLsbD j)))

/-- R153: `DRAWPX` does exactly what `SETPX` does for every colour but 0, and what `CLRPX` does for 0, refusals and
clipping included; and it completes in every initialised state. -/
def Obligations.DrawPixelChoosesByColour : Prop :=
  ∀ (x y : Int) (color : Byte) (s : State),
    (coordFits x = true → coordFits y = true →
      encode (.drawpx x y color) = .opWord (placeBytes 0x22 (BitVec.ofInt 8 x) (BitVec.ofInt 8 y) color)) ∧
    (color ≠ 0 → exec (.drawpx x y color) s = exec (.setpx x y) s) ∧
    (color = 0 → exec (.drawpx x y color) s = exec (.clrpx x y) s) ∧
    (s.Inv → s.inited = true → ∃ t, exec (.drawpx x y color) s = .next t ∧ s.sameButBanks t)

/-- R154: `GETPX` answers 1 exactly when the pixel is in range and on, 0 otherwise, and changes no state. -/
def Obligations.GetPixelAnswersTheBit : Prop :=
  ∀ (x y : Int) (s : State),
    (coordFits x = true → coordFits y = true →
      encode (.getpx x y) = .opWord (placeBytes 0x23 (BitVec.ofInt 8 x) (BitVec.ofInt 8 y) 0)) ∧
    (s.inited = false → exec (.getpx x y) s = .refused .notInitialised) ∧
    (∀ g, s.Inv → s.geom = some g → inRange g s.n x y = false →
      exec (.getpx x y) s = .next { s with responses := s.responses ++ [0] }) ∧
    (∀ g, s.Inv → s.geom = some g → inRange g s.n x y = true →
      ∃ old, s.byte s.act (pixelAddr g x y) = some old ∧ exec (.getpx x y) s =
        .next { s with responses := s.responses ++ [if old.getLsbD (7 - x.toNat % 8) then 1 else 0] })

/-- R155, R156: `CLS` and `FILLS` make every byte of the active bank 0x00 and 0xFF, leave the other bank and everything
else. -/
def Obligations.FillsWriteTheWholeActiveBank : Prop :=
  ∀ (i : Instr) (v : Byte) (s : State), i = .cls ∧ v = 0x00 ∨ i = .fills ∧ v = 0xFF →
    encode .cls = .opWord 0x24000000 ∧ encode .fills = .opWord 0x25000000 ∧
    (s.inited = false → exec i s = .refused .notInitialised) ∧
    (∀ g, s.Inv → s.geom = some g → ∃ t, exec i s = .next t ∧ s.sameButBanks t ∧
      ∀ b a, t.byte b a = if b = s.act then (if a < g.bankSize s.n then some v else none) else s.byte b a)

/-- R157: `SETBYTE` writes one byte of the active bank, and is refused when `addr ≥ S`. -/
def Obligations.SetByteWritesOneByte : Prop :=
  ∀ (addr val : Byte) (s : State),
    encode (.setbyte addr val) = .opWord (placeBytes 0x26 0 addr val) ∧
    (s.inited = false → exec (.setbyte addr val) s = .refused .notInitialised) ∧
    (∀ g, s.Inv → s.geom = some g → g.bankSize s.n ≤ addr.toNat →
      exec (.setbyte addr val) s = .refused .pokeOutOfRange) ∧
    (∀ g, s.Inv → s.geom = some g → addr.toNat < g.bankSize s.n → ∃ t, exec (.setbyte addr val) s = .next t ∧
      s.sameButBanks t ∧ ∀ b a, t.byte b a = if b = s.act ∧ a = addr.toNat then some val else s.byte b a)

/-- R158, R159: `SETACT` and `SWAP` write `ACT` and nothing else. -/
def Obligations.BufferSelectionWritesOnlyAct : Prop :=
  ∀ s : State,
    (∀ idx, encode (.setact idx) = .opWord (placeBytes 0x27 0 0 (bitByte (decide (idx = .bank1))))) ∧
    encode .swap = .opWord 0x28000000 ∧
    (s.inited = true → (∀ idx, exec (.setact idx) s = .next { s with act := idx }) ∧
      exec .swap s = .next { s with act := if s.act = .bank0 then .bank1 else .bank0 }) ∧
    (s.inited = false → (∀ idx, exec (.setact idx) s = .refused .notInitialised) ∧
      exec .swap s = .refused .notInitialised)

/-- R160 (a) to (f): the laws of the framebuffer, in every state that meets the invariant with `INITED = 1`. -/
def Obligations.FramebufferLaws : Prop :=
  ∀ (s : State) (g : Geometry), s.Inv → s.geom = some g →
    (∀ x y, inRange g s.n x y = true →
      (∃ t, runOps [.setpx x y, .getpx x y] s = .next t ∧ t.responses = s.responses ++ [1]) ∧
      (∃ t, runOps [.clrpx x y, .getpx x y] s = .next t ∧ t.responses = s.responses ++ [0])) ∧
    (∀ x y color, inRange g s.n x y = false →
      exec (.getpx x y) s = .next { s with responses := s.responses ++ [0] } ∧ exec (.setpx x y) s = .next s ∧
      exec (.clrpx x y) s = .next s ∧ exec (.drawpx x y color) s = .next s) ∧
    runOps [.swap, .setact s.act] s = .next s ∧
    (∀ x y color t, (exec (.setpx x y) s = .next t ∨ exec (.clrpx x y) s = .next t ∨
        exec (.drawpx x y color) s = .next t) →
      ∀ b x' y', inRange g s.n x' y' = true → (x', y') ≠ (x, y) → t.pixel b g x' y' = s.pixel b g x' y') ∧
    (∀ x y, (∃ t, runOps [.cls, .getpx x y] s = .next t ∧ t.responses = s.responses ++ [0]) ∧
      (inRange g s.n x y = true →
        ∃ t, runOps [.fills, .getpx x y] s = .next t ∧ t.responses = s.responses ++ [1])) ∧
    (∀ i t, i.isFramebuffer = true → exec i s = .next t →
      (∀ a, t.byte s.act.other a = s.byte s.act.other a) ∧ t.geom = s.geom ∧ t.inited = s.inited ∧
      t.lines = s.lines ∧ t.trace = s.trace)

/-- No operation changes a byte of the bank that is not active, but for the first `INIT`, which brings both into being
(R41; the bank of the `ACT` before the operation). -/
def Obligations.InactiveBankIsNeverTouched : Prop :=
  ∀ (i : Instr) (s t : State), s.inited = true → exec i s = .next t →
    t.bank s.act.other = s.bank s.act.other

/-! ## Flush and initialization -/

/-- R181: the walk has every bank address once; position `p` holds `p div H + STRIDE·(p mod H)`; and the two
instances of the rule. -/
def Obligations.WalkIsByteColumnOrder : Prop :=
  (∀ (g : Geometry) (n : Nat), (walk g n).length = g.bankSize n ∧ (walk g n).Nodup ∧
    (∀ a, a ∈ walk g n ↔ a < g.bankSize n) ∧
    ∀ p, p < g.bankSize n → (walk g n)[p]? = some (p / g.height n + g.stride * (p % g.height n))) ∧
  walk .wide 1 = [0, 4, 8, 12, 16, 20, 24, 28, 1, 5, 9, 13, 17, 21, 25, 29, 2, 6, 10, 14, 18, 22, 26, 30,
    3, 7, 11, 15, 19, 23, 27, 31] ∧
  walk .tall 1 = [0, 3, 6, 9, 12, 15, 18, 21, 24, 27, 30, 33, 36, 39, 42, 45, 1, 4, 7, 10, 13, 16, 19, 22, 25, 28, 31,
    34, 37, 40, 43, 46, 2, 5, 8, 11, 14, 17, 20, 23, 26, 29, 32, 35, 38, 41, 44, 47]

/-- R180, R182, R186: `FLUSH` streams the whole active bank to chip 0 in the walk's order inside `LOCK`, writes no
bank, and is one window of `10 + 8·S` bits when no chip is selected. -/
def Obligations.FlushStreamsTheActiveBank : Prop :=
  ∀ s : State,
    encode .flush = .opWord 0x30000000 ∧
    (s.inited = false → exec .flush s = .refused .notInitialised) ∧
    (∀ g, s.Inv → s.geom = some g → ∃ t, exec .flush s = .next t ∧
      t.trace = s.trace ++ [.set .lock true, .set (.cs 0) false] ++
        bitActions ([true, false, true] ++ List.replicate 7 false ++
          (walk g s.n).flatMap (fun a => msbFirst ((s.byte s.act a).getD 0) 8)) ++
        [.set (.cs 0) true, .set .lock false] ∧
      t.trace.length = s.trace.length + 4 + 3 * (10 + 8 * g.bankSize s.n) ∧
      t.lines = { s.lines with cs := s.lines.cs.set 0 true, wr := true, lock := false,
                               data := ((s.byte s.act (g.bankSize s.n - 1)).getD 0).getLsbD 0 } ∧
      t.srMask = 0 ∧ s.sameButWire t ∧
      (s.noneSelected → t.unfinished = [] ∧ t.windows = s.windows ++ [(0, [true, false, true] ++
        List.replicate 7 false ++ (walk g s.n).flatMap (fun a => msbFirst ((s.byte s.act a).getD 0) 8))]))

/-- What a `FLUSH` sends does not depend on the bank that is not active, nor on anything but the active bank, the
geometry and the module count (R180 (b), R41). -/
def Obligations.FlushShowsOnlyTheActiveBank : Prop :=
  ∀ (s s' t t' : State), s.Inv → s'.Inv → s.n = s'.n → s.geom = s'.geom → s.bank s.act = s'.bank s'.act →
    exec .flush s = .next t → exec .flush s' = .next t' →
    ∃ acts, t.trace = s.trace ++ acts ∧ t'.trace = s'.trace ++ acts

/-- R183, R184, the first `INIT`: the geometry is latched, both banks come to exist with `S` bytes each, of which
nothing is said (log 3), `ACT` stands, and the chip gets one command frame for each code of `INIT_CMDS(mode)`, in list
order, and the 256 writes of `CCLR`. -/
def Obligations.FirstInitAllocatesAndSends : Prop :=
  ∀ (chip : Chip) (mode : Byte) (geom : Geometry) (s : State), chip.toNat < s.n → s.inited = false →
    ∃ t, exec (.init chip mode geom) s = .next t ∧ t.inited = true ∧ t.geom = some geom ∧ t.act = s.act ∧
      t.fb0.addresses = List.range (geom.bankSize s.n) ∧ t.fb1.addresses = List.range (geom.bankSize s.n) ∧
      t.trace = s.trace ++
        (Config.initCmds mode).flatMap (fun c =>
          frameActions chip.toNat ([true, false, false] ++ msbFirst c 8 ++ [false])) ++
        (List.range 256).flatMap (fun a => frameActions chip.toNat
          ([true, false, true] ++ msbFirst (BitVec.ofNat 7 a) 7 ++ [false, false, false, false])) ∧
      t.lines = { s.lines with cs := s.lines.cs.set chip.toNat true, wr := true, data := false } ∧
      t.n = s.n ∧ t.hasRd = s.hasRd ∧ t.srMask = 0 ∧ t.responses = s.responses ∧ t.port = s.port

/-- R183, R184, every later `INIT`: nothing is allocated and `geom` is ignored; the frames are sent again; with no chip
selected they are `len(INIT_CMDS(mode)) + 256` windows.
The value left in `SR.val` is the model's own, a frame being shifted field by field (log 15). -/
def Obligations.LaterInitOnlySendsFrames : Prop :=
  ∀ (chip : Chip) (mode : Byte) (geom : Geometry) (s : State),
    encode (.init chip mode geom) =
      .opWord (placeBytes 0x40 (chipByte chip) mode (bitByte (decide (geom = .tall)))) ∧
    (s.n ≤ chip.toNat → exec (.init chip mode geom) s = .refused .chipOutOfRange) ∧
    (chip.toNat < s.n → s.inited = true →
      exec (.init chip mode geom) s = .next (s.afterFrames chip.toNat 0
        ((Config.initCmds mode).map (fun c => [true, false, false] ++ msbFirst c 8 ++ [false]) ++
          (List.range 256).map (fun a =>
            [true, false, true] ++ msbFirst (BitVec.ofNat 7 a) 7 ++ [false, false, false, false])) false)) ∧
    (∀ t, s.Inv → s.noneSelected → exec (.init chip mode geom) s = .next t →
      t.unfinished = [] ∧ t.windows = s.windows ++
        (Config.initCmds mode).map (fun c => (chip.toNat, [true, false, false] ++ msbFirst c 8 ++ [false])) ++
        (List.range 256).map (fun a => (chip.toNat,
          [true, false, true] ++ msbFirst (BitVec.ofNat 7 a) 7 ++ [false, false, false, false])))

/-- R185: the number of actions of every operation. -/
def Obligations.ActionCounts : Prop :=
  ∀ (s t : State),
    (∀ v k, 1 ≤ k → k ≤ 16 → exec (.shift v k) s = .next t → t.trace.length = s.trace.length + 3 * k) ∧
    (∀ i chip, i = .select chip ∨ i = .release chip ∨ i = .swe chip → exec i s = .next t →
      t.trace.length = s.trace.length + 1) ∧
    (∀ i chip code level on, i = .cmd chip code ∨ i = .bright chip level ∨ i = .blink chip on →
      exec i s = .next t → t.trace.length = s.trace.length + 38) ∧
    (∀ chip addr nib, exec (.wr chip addr nib) s = .next t → t.trace.length = s.trace.length + 44) ∧
    (∀ chip addr, exec (.swb chip addr) s = .next t → t.trace.length = s.trace.length + 31) ∧
    (∀ nib, exec (.swn nib) s = .next t → t.trace.length = s.trace.length + 12) ∧
    (∀ chip, exec (.cclr chip) s = .next t → t.trace.length = s.trace.length + 11264) ∧
    (∀ i chip addr, i = .rdd chip addr ∨ i.isFramebuffer = true → exec i s = .next t →
      t.trace.length = s.trace.length) ∧
    (∀ g, s.geom = some g → exec .flush s = .next t →
      t.trace.length = s.trace.length + 4 + 3 * (10 + 8 * g.bankSize s.n)) ∧
    (∀ chip mode geom, exec (.init chip mode geom) s = .next t →
      t.trace.length = s.trace.length + 38 * (Config.initCmds mode).length + 11264)

/-- R223 steps 1 and 2: from reset with any straps, `INIT` of every chip and a clear of each bank completes; then every
byte of both banks is 0 and no chip is selected. -/
def Obligations.BootClearsBothBanks : Prop :=
  ∀ (p : Straps) (mode : Byte) (geom : Geometry), p.legal →
    ∃ t, runOps (bootOps p.n mode geom) (State.resetWith p) = .next t ∧ t.Inv ∧ t.inited = true ∧
      t.geom = some geom ∧ t.noneSelected ∧
      ∀ b a, t.byte b a = if a < geom.bankSize p.n then some 0 else none

/-! ## Whole-machine rules -/

/-- R200: from a state that meets the invariant no step ends in a fault. -/
def Obligations.NoStepFaults : Prop := ∀ (s : State) (f : Fault), s.Inv → step s ≠ .fault f

/-- R201, R205 (a `SHIFT` count that no word carries is refused, log 12): from a state that meets the invariant, an
instruction completes or is refused, exactly as the list of
conditions says, the first check of the order deciding. -/
def Obligations.RefusedExactlyWhenTheRulesSay : Prop :=
  ∀ (i : Instr) (s : State), s.Inv →
    (∀ r, expectedRefusal s i = some r → exec i s = .refused r) ∧
    (expectedRefusal s i = none → ∃ t, exec i s = .next t)

/-- R205, the vectors of V24: the chip check comes before everything but decoding and leaves `INITED` alone; `INITED`
is checked before the poke range and before the pixel range. -/
def Obligations.CheckOrder : Prop :=
  ∀ s : State,
    (s.inited = false → ∀ addr val, exec (.setbyte addr val) s = .refused .notInitialised) ∧
    (s.inited = false → ∀ x y, exec (.setpx x y) s = .refused .notInitialised ∧
      exec (.getpx x y) s = .refused .notInitialised) ∧
    (∀ chip mode geom, s.n ≤ chip.toNat → exec (.init chip mode geom) s = .refused .chipOutOfRange) ∧
    (∀ chip addr, chip.toNat < s.n → exec (.rdd chip addr) s = .next { s with responses := s.responses ++ [0] })

/-- R182, R204: `LOCK` rises with the first action of a `FLUSH` and falls with the last, and no other operation drives
it. -/
def Obligations.OnlyFlushDrivesLock : Prop :=
  ∀ (i : Instr) (s t : State), exec i s = .next t →
    ∃ acts, t.trace = s.trace ++ acts ∧
      (i ≠ .flush → ∀ a ∈ acts, a.drives .lock = false) ∧
      (i = .flush → ∃ mid, acts = .set .lock true :: mid ++ [.set .lock false] ∧ ∀ a ∈ mid, a.drives .lock = false)

/-- R9, R12: after reset no operation performs `cfg_out` or drives `RD`; the trace only grows. -/
def Obligations.NoOperationConfiguresOrDrivesRd : Prop :=
  ∀ (i : Instr) (s t : State), exec i s = .next t →
    ∃ acts, t.trace = s.trace ++ acts ∧ ∀ a ∈ acts, a.drives .rd = false ∧ ∀ l, a ≠ .cfgOut l

/-- R11, R14, R15, R17, R19: who writes the straps, `INITED`, `GEOM`, `ACT` and the responses, over all instructions
and all states. -/
def Obligations.WhoWritesWhat : Prop :=
  ∀ (i : Instr) (s t : State), exec i s = .next t →
    t.n = s.n ∧ t.hasRd = s.hasRd ∧ t.port = s.port ∧
    (s.inited = true → t.inited = true ∧ t.geom = s.geom) ∧
    ((∀ c m g, i ≠ .init c m g) → t.inited = s.inited ∧ t.geom = s.geom) ∧
    ((∀ b, i ≠ .setact b) → i ≠ .swap → t.act = s.act) ∧
    ((∀ c a, i ≠ .rdd c a) → (∀ x y, i ≠ .getpx x y) → t.responses = s.responses) ∧
    ((∃ c a, i = .rdd c a) ∨ (∃ x y, i = .getpx x y) → ∃ v, (v = 0 ∨ v = 1) ∧ t.responses = s.responses ++ [v])

/-- R9, R12, R25: an operation's actions drive the latches to exactly the levels the trace says. -/
def Obligations.LatchesReplayTheActions : Prop :=
  ∀ (i : Instr) (s t : State), exec i s = .next t →
    ∃ acts, t.trace = s.trace ++ acts ∧ t.lines = acts.foldl Lines.perform s.lines

/-- R25: the transition trace of a longer trace: a `set` is kept exactly when the level of its line before it differs
from `v` (the first `set` of a line is kept), a `cfg_out` is dropped. -/
def Obligations.TransitionTraceKeepsChanges : Prop :=
  (∀ (pre : List Action) (l : Line) (v : Level),
    transitionsFrom [] (pre ++ [.set l v]) =
      transitionsFrom [] pre ++ (if lastLevel l pre = some v then [] else [.set l v])) ∧
  (∀ (pre : List Action) (l : Line), transitionsFrom [] (pre ++ [.cfgOut l]) = transitionsFrom [] pre) ∧
  transitionsFrom [] [] = [] ∧ ∀ s : State, s.transitionTrace = transitionsFrom [] s.trace

/-- R232, R104: every operation but `SELECT` and `SWB` leaves at most one chip selected if at most one was, and the
whole-frame operations leave their own chip released. -/
def Obligations.FramesReleaseTheirChip : Prop :=
  ∀ (i : Instr) (s t : State), exec i s = .next t →
    ((∀ c, i ≠ .select c) → (∀ c a, i ≠ .swb c a) → s.oneSelected → t.oneSelected) ∧
    (∀ c code addr nib level on mode geom, s.lines.cs.length = s.n →
      i = .cmd c code ∨ i = .wr c addr nib ∨ i = .swe c ∨ i = .bright c level ∨ i = .blink c on ∨ i = .cclr c ∨
        i = .init c mode geom → t.lines.level (.cs c.toNat) = some true)
end

