-- ==== Sys2Proof/Laws/Encoding.lean ====
section
/-! SUPPORT. Fields of a word that was put together from bytes, and bits of a frame that was put together from fields:
what the round trips of `30_encoding.md` R83 rest on. -/

namespace Sys2Proof

/-! ## Words from bytes -/

theorem opcodeField_placeBytes (o b2 b1 b0 : BitVec 8) : opcodeField (placeBytes o b2 b1 b0) = o := by
  simp only [opcodeField, placeBytes, place]; ext i hi; interval_cases i <;> simp

theorem xField_placeBytes (o b2 b1 b0 : BitVec 8) : xField (placeBytes o b2 b1 b0) = b2 := by
  simp only [xField, placeBytes, place]; ext i hi; interval_cases i <;> simp

theorem midField_placeBytes (o b2 b1 b0 : BitVec 8) : midField (placeBytes o b2 b1 b0) = b1 := by
  simp only [midField, placeBytes, place]; ext i hi; interval_cases i <;> simp

theorem lowField_placeBytes (o b2 b1 b0 : BitVec 8) : lowField (placeBytes o b2 b1 b0) = b0 := by
  simp only [lowField, placeBytes, place]; ext i hi; interval_cases i <;> simp

theorem chipField_placeBytes (o : BitVec 8) (chip : Chip) (b1 b0 : BitVec 8) :
    chipField (placeBytes o (chipByte chip) b1 b0) = chip := by
  simp only [chipField, placeBytes, place, chipByte]; ext i hi; interval_cases i <;> simp

theorem nibField_placeBytes (o b2 b1 : BitVec 8) (nib : Nibble) :
    nibField (placeBytes o b2 b1 (nibByte nib)) = nib := by
  simp only [nibField, placeBytes, place, nibByte]; ext i hi; interval_cases i <;> simp

theorem bitField_placeBytes (o b2 b1 : BitVec 8) (b : Bool) : bitField (placeBytes o b2 b1 (bitByte b)) = b := by
  cases b <;> simp [bitField, placeBytes, place, bitByte]

theorem getLsbD_placeBytes (o b2 b1 b0 : BitVec 8) (i : Nat) (hi : i < 32) :
    (placeBytes o b2 b1 b0).getLsbD i =
      if i < 8 then b0.getLsbD i else if i < 16 then b1.getLsbD (i - 8)
      else if i < 24 then b2.getLsbD (i - 16) else o.getLsbD (i - 24) := by
  simp only [placeBytes, place]; interval_cases i <;> simp

/-- A mask acts byte by byte. -/
theorem placeBytes_and (o b2 b1 b0 o' c2 c1 c0 : BitVec 8) :
    placeBytes o b2 b1 b0 &&& placeBytes o' c2 c1 c0 = placeBytes (o &&& o') (b2 &&& c2) (b1 &&& c1) (b0 &&& c0) := by
  refine BitVec.eq_of_getLsbD_eq fun i hi => ?_
  rw [BitVec.getLsbD_and]
  simp only [getLsbD_placeBytes _ _ _ _ i hi, BitVec.getLsbD_and]
  split_ifs <;> rfl

theorem chipByte_mask (chip : Chip) : chipByte chip &&& 0xFC#8 = 0#8 := by revert chip; decide
theorem nibByte_mask (nib : Nibble) : nibByte nib &&& 0xF0#8 = 0#8 := by revert nib; decide
theorem bitByte_mask (b : Bool) : bitByte b &&& 0xFE#8 = 0#8 := by revert b; decide

/-- Whether a row accepts a word of four bytes is a question about the four bytes. -/
theorem accepts_placeBytes {r : OpRow} {o b2 b1 b0 o' c2 c1 c0 p q2 q1 q0 : BitVec 8}
    (hm : r.mask = placeBytes o' c2 c1 c0) (hp : r.pattern = placeBytes p q2 q1 q0)
    (h3 : o &&& o' = p) (h2 : b2 &&& c2 = q2) (h1 : b1 &&& c1 = q1) (h0 : b0 &&& c0 = q0) :
    r.accepts (placeBytes o b2 b1 b0) = true := by
  simp [OpRow.accepts, hm, hp, placeBytes_and, h3, h2, h1, h0]

/-- The row of a word is the row of its opcode byte. -/
theorem rowOf_eq {w : OpWord} {o : BitVec 8} (h : opcodeField w = o) :
    rowOf w = opRows.find? (fun r => r.opcode == o) := by
  rw [rowOf, h]

theorem decodeWord_of_row {w : OpWord} {r : OpRow} (h : rowOf w = some r) (ha : r.accepts w = true) :
    decodeWord w = .ok (r.assemble w) := by
  rw [decodeWord, h]; simp [ha]

/-- A word made of an opcode that has the row `r` and of bytes `r` accepts decodes to what `r` assembles. -/
theorem decode_placeBytes {r : OpRow} {o b2 b1 b0 : BitVec 8}
    (hr : opRows.find? (fun r => r.opcode == o) = some r) (ha : r.accepts (placeBytes o b2 b1 b0) = true) :
    decode (.opWord (placeBytes o b2 b1 b0)) = .ok (r.assemble (placeBytes o b2 b1 b0)) :=
  decodeWord_of_row ((rowOf_eq (opcodeField_placeBytes o b2 b1 b0)).trans hr) ha

/-! ## Coordinates -/

/-- A coordinate in -128..127 comes back from its field (R80). -/
theorem sext8_coordField {v : Int} (h : coordFits v = true) : sext8 (coordField v) = v := by
  simp only [coordFits, Bool.and_eq_true, decide_eq_true_eq] at h
  rw [sext8, coordField, BitVec.toInt_ofInt]
  simp only [Int.bmod]
  omega

/-! ## Frames from fields -/

theorem fieldOfBits_byte (v : BitVec 8) : fieldOfBits 8 (msbFirst v 8) = v := by revert v; decide +revert
theorem fieldOfBits_addr (v : BitVec 7) : fieldOfBits 7 (msbFirst v 7) = v := by revert v; decide +revert
theorem fieldOfBits_nib (v : BitVec 4) : fieldOfBits 4 (msbFirst v 4) = v := by revert v; decide

end Sys2Proof
end

