-- ==== Sys2Proof/Laws/State.lean ====
section
/-! SUPPORT. One lemma for each field of State and each update: `setLine`, `respond`, `withBank`, and for the latches
`Lines.drive`. -/

namespace Sys2Proof.Machine

@[simp] theorem setLine_n (l : Line) (v : Level) (s : State) : (setLine l v s).n = s.n := rfl
@[simp] theorem setLine_hasRd (l : Line) (v : Level) (s : State) : (setLine l v s).hasRd = s.hasRd := rfl
@[simp] theorem setLine_lines (l : Line) (v : Level) (s : State) : (setLine l v s).lines = s.lines.drive l v := rfl
@[simp] theorem setLine_srVal (l : Line) (v : Level) (s : State) : (setLine l v s).srVal = s.srVal := rfl
@[simp] theorem setLine_srMask (l : Line) (v : Level) (s : State) : (setLine l v s).srMask = s.srMask := rfl
@[simp] theorem setLine_inited (l : Line) (v : Level) (s : State) : (setLine l v s).inited = s.inited := rfl
@[simp] theorem setLine_geom (l : Line) (v : Level) (s : State) : (setLine l v s).geom = s.geom := rfl
@[simp] theorem setLine_fb0 (l : Line) (v : Level) (s : State) : (setLine l v s).fb0 = s.fb0 := rfl
@[simp] theorem setLine_fb1 (l : Line) (v : Level) (s : State) : (setLine l v s).fb1 = s.fb1 := rfl
@[simp] theorem setLine_act (l : Line) (v : Level) (s : State) : (setLine l v s).act = s.act := rfl
@[simp] theorem setLine_trace (l : Line) (v : Level) (s : State) : (setLine l v s).trace = s.trace ++ [.set l v] := rfl
@[simp] theorem setLine_responses (l : Line) (v : Level) (s : State) : (setLine l v s).responses = s.responses := rfl
@[simp] theorem setLine_port (l : Line) (v : Level) (s : State) : (setLine l v s).port = s.port := rfl
@[simp] theorem setLine_draws (l : Line) (v : Level) (s : State) : (setLine l v s).draws = s.draws := rfl

@[simp] theorem respond_n (v : Nat) (s : State) : (respond v s).n = s.n := rfl
@[simp] theorem respond_hasRd (v : Nat) (s : State) : (respond v s).hasRd = s.hasRd := rfl
@[simp] theorem respond_lines (v : Nat) (s : State) : (respond v s).lines = s.lines := rfl
@[simp] theorem respond_srVal (v : Nat) (s : State) : (respond v s).srVal = s.srVal := rfl
@[simp] theorem respond_srMask (v : Nat) (s : State) : (respond v s).srMask = s.srMask := rfl
@[simp] theorem respond_inited (v : Nat) (s : State) : (respond v s).inited = s.inited := rfl
@[simp] theorem respond_geom (v : Nat) (s : State) : (respond v s).geom = s.geom := rfl
@[simp] theorem respond_fb0 (v : Nat) (s : State) : (respond v s).fb0 = s.fb0 := rfl
@[simp] theorem respond_fb1 (v : Nat) (s : State) : (respond v s).fb1 = s.fb1 := rfl
@[simp] theorem respond_act (v : Nat) (s : State) : (respond v s).act = s.act := rfl
@[simp] theorem respond_trace (v : Nat) (s : State) : (respond v s).trace = s.trace := rfl
@[simp] theorem respond_responses (v : Nat) (s : State) : (respond v s).responses = s.responses ++ [v] := rfl
@[simp] theorem respond_port (v : Nat) (s : State) : (respond v s).port = s.port := rfl
@[simp] theorem respond_draws (v : Nat) (s : State) : (respond v s).draws = s.draws := rfl

@[simp] theorem withBank_n (s : State) (b : Bank) (m : Memory) : (s.withBank b m).n = s.n := by cases b <;> rfl
@[simp] theorem withBank_hasRd (s : State) (b : Bank) (m : Memory) : (s.withBank b m).hasRd = s.hasRd := by cases b <;> rfl
@[simp] theorem withBank_lines (s : State) (b : Bank) (m : Memory) : (s.withBank b m).lines = s.lines := by cases b <;> rfl
@[simp] theorem withBank_srVal (s : State) (b : Bank) (m : Memory) : (s.withBank b m).srVal = s.srVal := by cases b <;> rfl
@[simp] theorem withBank_srMask (s : State) (b : Bank) (m : Memory) : (s.withBank b m).srMask = s.srMask := by cases b <;> rfl
@[simp] theorem withBank_inited (s : State) (b : Bank) (m : Memory) : (s.withBank b m).inited = s.inited := by cases b <;> rfl
@[simp] theorem withBank_geom (s : State) (b : Bank) (m : Memory) : (s.withBank b m).geom = s.geom := by cases b <;> rfl
@[simp] theorem withBank_act (s : State) (b : Bank) (m : Memory) : (s.withBank b m).act = s.act := by cases b <;> rfl
@[simp] theorem withBank_trace (s : State) (b : Bank) (m : Memory) : (s.withBank b m).trace = s.trace := by cases b <;> rfl
@[simp] theorem withBank_responses (s : State) (b : Bank) (m : Memory) : (s.withBank b m).responses = s.responses := by cases b <;> rfl
@[simp] theorem withBank_port (s : State) (b : Bank) (m : Memory) : (s.withBank b m).port = s.port := by cases b <;> rfl
@[simp] theorem withBank_draws (s : State) (b : Bank) (m : Memory) : (s.withBank b m).draws = s.draws := by cases b <;> rfl

@[simp] theorem withBank_bank_self (s : State) (b : Bank) (m : Memory) : (s.withBank b m).bank b = m := by cases b <;> rfl
theorem withBank_bank_ne (s : State) {b c : Bank} (m : Memory) (h : c ≠ b) : (s.withBank b m).bank c = s.bank c := by
  cases b <;> cases c <;> first | rfl | exact absurd rfl h
@[simp] theorem setLine_bank (l : Line) (v : Level) (s : State) (b : Bank) : (setLine l v s).bank b = s.bank b := by
  cases b <;> rfl
@[simp] theorem respond_bank (v : Nat) (s : State) (b : Bank) : (respond v s).bank b = s.bank b := by cases b <;> rfl
@[simp] theorem bank_bank0 (s : State) : s.bank .bank0 = s.fb0 := rfl
@[simp] theorem bank_bank1 (s : State) : s.bank .bank1 = s.fb1 := rfl

@[simp] theorem drive_wr (ls : Lines) (v : Level) : ls.drive .wr v = { ls with wr := v } := rfl
@[simp] theorem drive_data (ls : Lines) (v : Level) : ls.drive .data v = { ls with data := v } := rfl
@[simp] theorem drive_cs (ls : Lines) (i : Nat) (v : Level) : ls.drive (.cs i) v = { ls with cs := ls.cs.set i v } := rfl
@[simp] theorem drive_lock (ls : Lines) (v : Level) : ls.drive .lock v = { ls with lock := v } := rfl

/-- A line that exists has the level last driven on it (R12). -/
theorem level_drive (ls : Lines) (l l' : Line) (v : Level) :
    (ls.drive l v).level l' = if l = l' then (ls.level l').map (fun _ => v) else ls.level l' := by
  cases l <;> cases l' <;> simp [Lines.drive, Lines.level, List.getElem?_set]
  rename_i i j
  split
  · subst_vars; by_cases h : j < ls.cs.length <;> simp [h]
  · rfl

@[simp] theorem straps_n (s : State) : s.straps.n = s.n := rfl
@[simp] theorem straps_hasRd (s : State) : s.straps.hasRd = s.hasRd := rfl

end Sys2Proof.Machine
end

