-- ==== Sys2Proof/Laws/Memory.lean ====
section
/-! SUPPORT. The banks: read after write, what a write leaves, the canonical form, and the shared bank operations. -/

namespace Sys2Proof.Machine

/-! ## One bank -/

theorem read_isSome_iff (m : Memory) (a : Nat) : (m.read a).isSome ↔ a ∈ m.addresses := by
  induction m with
  | nil => simp [Memory.read, Memory.addresses]
  | cons c rest ih =>
    obtain ⟨x, b⟩ := c
    by_cases h : x = a
    · simp [Memory.read, Memory.addresses, h]
    · simp only [Memory.read, h, if_false, ih]
      simp [Memory.addresses, Ne.symm h]

@[simp] theorem write_addresses (m : Memory) (a : Nat) (v : Byte) : (m.write a v).addresses = m.addresses := by
  induction m with
  | nil => rfl
  | cons c rest ih =>
    obtain ⟨x, b⟩ := c
    simp only [Memory.write, Memory.addresses] at ih ⊢
    split <;> simp [ih]

/-- Read after write (R51): the byte written where there is one, every other byte as it was. -/
theorem read_write (m : Memory) (a x : Nat) (v : Byte) :
    (m.write a v).read x = if x = a then (m.read a).map (fun _ => v) else m.read x := by
  induction m with
  | nil => simp [Memory.read, Memory.write]
  | cons c rest ih =>
    obtain ⟨y, b⟩ := c
    by_cases hy : y = a
    · by_cases hx : x = a
      · simp [Memory.read, Memory.write, hy, hx]
      · simp [Memory.read, Memory.write, hy, hx, Ne.symm hx]
    · by_cases hx : x = a
      · subst hx; simp [Memory.read, Memory.write, hy, ih]
      · simp [Memory.read, Memory.write, hy, ih, hx]

/-- Writing the byte already there changes nothing. -/
theorem write_read_self (m : Memory) (a : Nat) (v : Byte) (h : m.read a = some v) : m.write a v = m := by
  induction m with
  | nil => rfl
  | cons c rest ih =>
    obtain ⟨y, b⟩ := c
    by_cases hy : y = a
    · simp [Memory.read, hy] at h; simp [Memory.write, hy, h]
    · simp [Memory.read, hy] at h; simp [Memory.write, hy, ih h]

/-- Every memory operation keeps the canonical form. -/
theorem write_wf (m : Memory) (a : Nat) (v : Byte) (h : m.wf) : (m.write a v).wf := by
  have := write_addresses m a v
  simp only [Memory.addresses] at this
  rw [Memory.wf, this]; exact h

@[simp] theorem drawBank_addresses (d : Nat) (b : Bank) (size : Nat) :
    (drawBank d b size).addresses = List.range size := by
  simp [drawBank, Memory.addresses, Function.comp_def]

/-- A bank with the addresses `0..S-1` is in canonical form. -/
theorem wf_of_addresses {m : Memory} {k : Nat} (h : m.addresses = List.range k) : m.wf := by
  rw [Memory.wf, show m.map Prod.fst = List.range k from h]
  exact List.pairwise_lt_range

theorem drawBank_wf (d : Nat) (b : Bank) (size : Nat) : (drawBank d b size).wf :=
  wf_of_addresses (drawBank_addresses d b size)

theorem reset_wf (p : Straps) : (State.resetWith p).fb0.wf ∧ (State.resetWith p).fb1.wf := ⟨.nil, .nil⟩

/-- What a fresh bank holds (R16): one free byte at each address. -/
theorem drawBank_read (d : Nat) (b : Bank) (size a : Nat) :
    (drawBank d b size).read a = if a < size then some (Config.fbInit d b.index a) else none := by
  have gen : ∀ l : List Nat, Memory.read (l.map fun a => (a, Config.fbInit d b.index a)) a =
      if a ∈ l then some (Config.fbInit d b.index a) else none := by
    intro l
    induction l with
    | nil => rfl
    | cons x rest ih =>
      by_cases hx : x = a
      · subst hx; simp [Memory.read]
      · simp [Memory.read, hx, ih, Ne.symm hx]
  simpa [drawBank] using gen (List.range size)

/-- Two banks with the same rising addresses and the same bytes are the same bank. -/
theorem memory_ext {m m' : Memory} (hw : m.wf) (ha : m.addresses = m'.addresses)
    (h : ∀ a, m.read a = m'.read a) : m = m' := by
  induction m generalizing m' with
  | nil => cases m' with
    | nil => rfl
    | cons c r => simp [Memory.addresses] at ha
  | cons c rest ih =>
    cases m' with
    | nil => simp [Memory.addresses] at ha
    | cons c' rest' =>
      obtain ⟨a, b⟩ := c
      obtain ⟨a', b'⟩ := c'
      simp only [Memory.addresses, List.map_cons, List.cons.injEq] at ha
      obtain ⟨rfl, ha⟩ := ha
      have hb := h a
      simp only [Memory.read, if_true, Option.some.injEq] at hb
      subst hb
      simp only [Memory.wf, List.map_cons, List.pairwise_cons] at hw
      congr 1
      refine ih hw.2 ha fun x => ?_
      have hx := h x
      by_cases hax : a = x
      · have h1 : ¬ x ∈ Memory.addresses rest := fun hm => by
          have := hw.1 x hm; omega
        have h2 : ¬ x ∈ Memory.addresses rest' := by rw [Memory.addresses, ← ha]; exact h1
        rw [← read_isSome_iff, Option.not_isSome_iff_eq_none] at h1 h2
        rw [h1, h2]
      · simpa [Memory.read, hax] using hx

/-- The bit `GETPX` answers, as a number (R154). -/
theorem testPixelBit_eq (b : Byte) (x : Int) : testPixelBit b x = if b.getLsbD (pixelBit x) then 1 else 0 := by
  have h : pixelBit x < 8 := by unfold pixelBit; omega
  unfold testPixelBit
  generalize pixelBit x = j at h
  revert b; interval_cases j <;> decide +revert

/-! ## The shared operations: everything each of them can answer -/

theorem ifChip_next {chip : Chip} {s t : State} {r : Result} (h : ifChip chip s r = .next t) :
    chip.toNat < s.n ∧ r = .next t := by
  unfold ifChip at h
  split at h
  · exact ⟨‹_›, h⟩
  · cases h

theorem ifInited_next {s t : State} {r : Result} (h : ifInited s r = .next t) : s.inited = true ∧ r = .next t := by
  unfold ifInited at h
  split at h
  · exact ⟨‹_›, h⟩
  · cases h

theorem withGeometry_next {s t : State} {k : Geometry → Result} (h : withGeometry s k = .next t) :
    ∃ g, s.geom = some g ∧ k g = .next t := by
  unfold withGeometry at h
  split at h
  · exact ⟨_, ‹_›, h⟩
  · cases h

theorem withByte_next {a : Nat} {s t : State} {k : Byte → Result} (h : withByte a s k = .next t) :
    ∃ b, s.byte s.act a = some b ∧ k b = .next t := by
  unfold withByte at h
  split at h
  · exact ⟨_, ‹_›, h⟩
  · cases h

theorem memWrite_next {a : Nat} {v : Byte} {s t : State} (h : memWrite a v s = .next t) :
    (∃ b, s.byte s.act a = some b) ∧ t = s.withBank s.act ((s.bank s.act).write a v) := by
  obtain ⟨b, hb, hk⟩ := withByte_next h
  cases hk
  exact ⟨⟨b, hb⟩, rfl⟩

/-- A pixel write changes at most one byte of the active bank (R151, R152). -/
theorem updatePixel_next {f : Byte → Int → Byte} {x y : Int} {s t : State} (h : updatePixel f x y s = .next t) :
    s.inited = true ∧ ∃ g, s.geom = some g ∧
      ((inRange g s.n x y = false ∧ t = s) ∨
       (inRange g s.n x y = true ∧ ∃ b, s.byte s.act (pixelAddr g x y) = some b ∧
          t = s.withBank s.act ((s.bank s.act).write (pixelAddr g x y) (f b x)))) := by
  obtain ⟨hi, h⟩ := ifInited_next h
  obtain ⟨g, hg, h⟩ := withGeometry_next h
  refine ⟨hi, g, hg, ?_⟩
  split at h
  · rename_i hr
    obtain ⟨b, hb, h⟩ := withByte_next h
    exact .inr ⟨hr, b, hb, (memWrite_next h).2⟩
  · rename_i hr
    cases h
    exact .inl ⟨by simpa using hr, rfl⟩

/-- Writing one byte at every address of a list: only the active bank changes, it keeps its addresses, and each listed
address holds the byte (R155, R156). -/
theorem writeAll_next {as : List Nat} {v : Byte} : ∀ {s t : State}, writeAll as v s = .next t →
    ∃ m, t = s.withBank s.act m ∧ m.addresses = (s.bank s.act).addresses ∧
      ∀ x, m.read x = if x ∈ as then some v else s.byte s.act x := by
  induction as with
  | nil =>
    intro s t h
    cases h
    refine ⟨s.bank s.act, ?_, rfl, fun x => by simp [State.byte]⟩
    cases hact : s.act <;> simp [State.withBank, State.bank]
  | cons a rest ih =>
    intro s t h
    rw [writeAll] at h
    cases hw : memWrite a v s with
    | next s' =>
      rw [hw] at h
      obtain ⟨⟨b, hb⟩, rfl⟩ := memWrite_next hw
      obtain ⟨m, rfl, hm, hr⟩ := ih h
      refine ⟨m, ?_, ?_, fun x => ?_⟩
      · cases hact : s.act <;> simp [State.withBank, hact]
      · simpa using hm
      · rw [hr x]
        have hb' : (s.bank s.act).read a = some b := hb
        by_cases hx : x ∈ rest
        · simp [hx]
        · by_cases hxa : x = a
          · simp [hxa, State.byte, read_write, hb']
          · simp [hx, hxa, State.byte, read_write]
    | fault f => rw [hw] at h; cases h
    | refused r => rw [hw] at h; cases h

end Sys2Proof.Machine
end

