-- ==== Sys2Proof/Laws/Serializer.lean ====
section
/-! SUPPORT. What the serializer and the frames do, said once: each shared operation of the wire side as one update of
the state. -/

namespace Sys2Proof.Machine

/-! ## Bits -/

@[simp] theorem bitActions_nil : bitActions [] = [] := rfl

theorem bitActions_cons (b : Bool) (bits : List Bool) :
    bitActions (b :: bits) = [.set .wr false, .set .data b, .set .wr true] ++ bitActions bits := rfl

@[simp] theorem bitActions_append (a b : List Bool) : bitActions (a ++ b) = bitActions a ++ bitActions b := by
  simp [bitActions]

theorem bitActions_length (bits : List Bool) : (bitActions bits).length = 3 * bits.length := by
  induction bits with
  | nil => rfl
  | cons b bits ih => simp [bitActions_cons, ih]; omega

@[simp] theorem msbFirst_length {w : Nat} (v : BitVec w) (k : Nat) : (msbFirst v k).length = k := by
  induction k with
  | zero => rfl
  | succ k ih => simp [msbFirst, ih]

/-- A field keeps its low bits when it is put into the serializer's register. -/
theorem msbFirst_setWidth {w w' : Nat} (v : BitVec w) (k : Nat) (h : k ≤ w') :
    msbFirst (v.setWidth w') k = msbFirst v k := by
  induction k with
  | zero => rfl
  | succ k ih =>
    have hk : k < w' := h
    simp [msbFirst, ih (Nat.le_of_lt hk), hk]

/-! ## The state after bits, and after line actions -/

theorem onehot_shift (j : Nat) (h : j < 16) : (1#16 <<< (j + 1)) >>> 1 = if j + 1 < 16 then 1#16 <<< j else 0#16 := by
  interval_cases j <;> decide

theorem onehot_ne_zero (j : Nat) (h : j < 16) : 1#16 <<< j ≠ 0#16 := by interval_cases j <;> decide

theorem onehot_test (v : SerWord) (j : Nat) (h : j < 16) : (v &&& 1#16 <<< j != 0) = v.getLsbD j := by
  rw [Bool.eq_iff_iff, bne_iff_ne, ne_eq, ← not_iff_not, not_not]
  constructor
  · intro hz hb
    have := congrArg (fun x : BitVec 16 => x.getLsbD j) hz
    simp [h] at this
    simp [BitVec.getLsbD_eq_getElem h, this] at hb
  · intro hb
    ext i hi
    simp only [BitVec.getElem_and, BitVec.getElem_shiftLeft, BitVec.getElem_one, BitVec.ofNat_eq_ofNat]
    by_cases hij : i = j
    · subst hij; simp [← BitVec.getLsbD_eq_getElem, hb]
    · by_cases hlt : i < j
      · simp [hlt]
      · have : i - j ≠ 0 := by omega
        simp [hlt, this]

/-- The loop of R101 with a one-hot mask at bit `j` sends the bits `j` down to 0. -/
theorem shiftLoop_onehot (j : Nat) : ∀ (fuel : Nat) (s : State), j < 16 → j < fuel → s.srMask = 1#16 <<< j →
    shiftLoop fuel s = s.afterBits s.srVal (msbFirst s.srVal (j + 1)) (s.srVal.getLsbD 0) := by
  induction j with
  | zero =>
    intro fuel s hj hf hm
    match fuel, hf with
    | fuel + 1, _ =>
      have ht := onehot_test s.srVal 0 (by omega)
      have hz := onehot_ne_zero 0 (by omega)
      simp only [BitVec.shiftLeft_zero] at hm ht hz
      rw [shiftLoop, if_neg (by rw [hm]; exact hz), hm, ht]
      cases fuel <;>
        simp [shiftLoop, emitBit, State.afterBits, msbFirst, bitActions_cons, hm, setLine]
  | succ j ih =>
    intro fuel s hj hf hm
    match fuel, hf with
    | fuel + 1, hf =>
      rw [shiftLoop, if_neg (by rw [hm]; exact onehot_ne_zero _ hj)]
      rw [hm, onehot_test s.srVal (j + 1) hj]
      rw [ih fuel _ (by omega) (by omega)
        (by simp [emitBit, hm, onehot_shift j (by omega), hj])]
      simp [emitBit, State.afterBits, msbFirst, bitActions_cons, setLine]

/-- `SHIFT value, k` sends `value[k-1]` down to `value[0]` (R101). -/
theorem shiftOut_eq (v : SerWord) (k : Nat) (h : 1 ≤ k) (h16 : k ≤ 16) (s : State) :
    shiftOut v k s = s.afterBits v (msbFirst v k) (v.getLsbD 0) := by
  obtain ⟨j, rfl⟩ : ∃ j, k = j + 1 := ⟨k - 1, by omega⟩
  rw [shiftOut, shiftLoop_onehot j 16 _ (by omega) (by omega) (by simp)]
  simp [State.afterBits]

/-- One field of `k` bits (R75). -/
theorem shiftField_eq {w : Nat} (v : BitVec w) (k : Nat) (h : 1 ≤ k) (h16 : k ≤ 16) (s : State) :
    shiftField v k s = s.afterBits (v.setWidth 16) (msbFirst v k) (v.getLsbD 0) := by
  rw [shiftField, shiftOut_eq _ k h h16, msbFirst_setWidth v k h16]
  simp

/-- Bits after bits are the longer list of bits. -/
theorem afterBits_afterBits (s : State) (v v' : SerWord) (a b : List Bool) (x y : Level) :
    (s.afterBits v a x).afterBits v' b y = s.afterBits v' (a ++ b) y := by
  simp [State.afterBits]

/-! ## Frames -/

/-- The 12 bits of a command frame go out (R71). -/
theorem shiftCommand_eq (code : Byte) (s : State) :
    shiftCommand code s = s.afterBits 0 (commandFrameBits code) false := by
  rw [shiftCommand, shiftField_eq _ 1 (by omega) (by omega), shiftField_eq _ 8 (by omega) (by omega),
    shiftField_eq _ 3 (by omega) (by omega), afterBits_afterBits, afterBits_afterBits]
  simp [commandFrameBits, msbFirst]

/-- The tag and the low 7 bits of the address go out (R73, R75). -/
theorem shiftWriteHead_eq {w : Nat} (addr : BitVec w) (s : State) :
    shiftWriteHead addr s =
      s.afterBits (addr.setWidth 16) (msbFirst writeTag 3 ++ msbFirst addr 7) (addr.getLsbD 0) := by
  rw [shiftWriteHead, shiftField_eq _ 7 (by omega) (by omega), shiftField_eq _ 3 (by omega) (by omega),
    afterBits_afterBits]

/-- The four bits of a nibble go out (R123). -/
theorem shiftNibble_eq (nib : Nibble) (s : State) :
    shiftNibble nib s = s.afterBits (nib.setWidth 16) (msbFirst nib 4) (nib.getLsbD 0) := by
  rw [shiftNibble, shiftField_eq _ 4 (by omega) (by omega)]

/-- The low 7 bits of an 8-bit address are the 7-bit address (R75). -/
theorem msbFirst_deviceAddr (addr : Byte) : msbFirst (deviceAddr addr) 7 = msbFirst addr 7 :=
  msbFirst_setWidth addr 7 (by omega)

/-- A command frame to one chip (R120). -/
theorem sendCommand_eq (chip : Chip) (code : Byte) (s : State) :
    sendCommand chip code s = s.afterFrame chip.toNat 0 (commandFrameBits code) false := by
  simp [sendCommand, shiftCommand_eq, selectChip, releaseChip, State.afterBits, State.afterFrame, frameActions, setLine]

/-- A single write frame to one chip (R121). -/
theorem sendWrite_eq (chip : Chip) (addr : Byte) (nib : Nibble) (s : State) :
    sendWrite chip addr nib s =
      s.afterFrame chip.toNat (nib.setWidth 16) (writeFrameBits (deviceAddr addr) nib) (nib.getLsbD 0) := by
  rw [sendWrite, shiftNibble_eq, shiftWriteHead_eq, afterBits_afterBits]
  simp [selectChip, releaseChip, State.afterBits, State.afterFrame, frameActions, setLine, writeFrameBits,
    writeHeadBits, msbFirst_deviceAddr]

/-- One frame is a list of one frame. -/
theorem afterFrame_eq_afterFrames (s : State) (chip : Nat) (v : SerWord) (bits : List Bool) (last : Level) :
    s.afterFrame chip v bits last = s.afterFrames chip v [bits] last := by
  simp [State.afterFrame, State.afterFrames]

/-- Frames after frames to the same chip are the longer list of frames (R127, R184). -/
theorem afterFrames_afterFrames (s : State) (chip : Nat) (v v' : SerWord) (a b : List (List Bool)) (x y : Level) :
    (s.afterFrames chip v a x).afterFrames chip v' b y = s.afterFrames chip v' (a ++ b) y := by
  simp [State.afterFrames]

/-- The command frames of a list of codes, in list order (R184). -/
theorem sendCommands_eq (chip : Chip) (codes : List Byte) : ∀ s : State,
    sendCommands chip codes s =
      if codes = [] then s else s.afterFrames chip.toNat 0 (codes.map commandFrameBits) false := by
  induction codes with
  | nil => intro s; rfl
  | cons c rest ih =>
    intro s
    rw [sendCommands, ih, sendCommand_eq, afterFrame_eq_afterFrames]
    by_cases h : rest = [] <;> simp [h, afterFrames_afterFrames]

/-- Writes of the zero nibble at a list of addresses, in list order (R127). -/
theorem clearAddresses_eq (chip : Chip) (as : List Nat) : ∀ s : State,
    clearAddresses chip as s =
      if as = [] then s else s.afterFrames chip.toNat 0 (as.map clearBits) false := by
  induction as with
  | nil => intro s; rfl
  | cons a rest ih =>
    intro s
    rw [clearAddresses, ih, sendWrite_eq, afterFrame_eq_afterFrames]
    by_cases h : rest = [] <;> simp [h, afterFrames_afterFrames, clearBits]

/-- `CCLR`'s 256 frames as one update (R127). -/
theorem clearChip_eq (chip : Chip) (s : State) :
    clearChip chip s = s.afterFrames chip.toNat 0 ((List.range 256).map clearBits) false := by
  rw [clearChip, clearAddresses_eq, if_neg (by decide)]

/-- The frames of an `INIT` after its allocation: the commands, then the 256 writes (R183). -/
theorem initFrames_eq (chip : Chip) (codes : List Byte) (s : State) :
    clearChip chip (sendCommands chip codes s) =
      s.afterFrames chip.toNat 0 (codes.map commandFrameBits ++ (List.range 256).map clearBits) false := by
  rw [clearChip_eq, sendCommands_eq]
  by_cases h : codes = []
  · simp [h]
  · rw [if_neg h, afterFrames_afterFrames]

/-! ## A byte as two nibbles -/

/-- The two nibbles of a byte, high first, are its 8 bits MSB first (R47). -/
theorem nibbles_msbFirst (b : Byte) : msbFirst (highNibble b) 4 ++ msbFirst (lowNibble b) 4 = msbFirst b 8 := by
  simp [msbFirst, highNibble, lowNibble]

@[simp] theorem afterBits_byte (s : State) (v : SerWord) (bits : List Bool) (last : Level) (b : Bank) (a : Nat) :
    (s.afterBits v bits last).byte b a = s.byte b a := by cases b <;> rfl

/-- The byte at an address of the active bank where there is one. -/
def State.byteD (s : State) (a : Nat) : Byte := (s.byte s.act a).getD 0

/-- A walk over addresses that all have bytes completes and sends each byte's 8 bits in turn (R180, R47). -/
theorem streamBytes_eq (as : List Nat) : ∀ s : State, (∀ a ∈ as, (s.byte s.act a).isSome) →
    streamBytes as s = .next (match as.getLast? with
      | none => s
      | some a => s.afterBits ((lowNibble (s.byteD a)).setWidth 16) (as.flatMap fun a => msbFirst (s.byteD a) 8)
          ((s.byteD a).getLsbD 0)) := by
  induction as with
  | nil => intro s _; rfl
  | cons a rest ih =>
    intro s h
    obtain ⟨b, hb⟩ := Option.isSome_iff_exists.1 (h a (by simp))
    have hD : s.byteD a = b := by simp [State.byteD, hb]
    have hlow : (lowNibble b).getLsbD 0 = b.getLsbD 0 := by simp [lowNibble]
    rw [streamBytes, withByte, hb]
    simp only
    rw [shiftNibble_eq, shiftNibble_eq, afterBits_afterBits, nibbles_msbFirst, hlow, ih]
    · have hD' : ∀ x v bits l, (s.afterBits v bits l).byteD x = s.byteD x := fun x v bits l => by
        simp only [State.byteD, afterBits_byte]; rfl
      cases hl : rest.getLast? with
      | none => obtain rfl := List.getLast?_eq_none_iff.1 hl; simp [hD]
      | some z =>
        have : (a :: rest).getLast? = some z := by
          cases rest with
          | nil => simp at hl
          | cons c r => simpa [List.getLast?_cons_cons] using hl
        simp only [this, hD', afterBits_afterBits, List.flatMap_cons, hD]
    · intro x hx
      rw [afterBits_byte]; exact h x (by simp [hx])

end Sys2Proof.Machine
end

