-- ==== Sys2Proof/Laws/Views.lean ====
section
/-! SUPPORT. The views of the trace: the level a trace leaves, and what bits and frames add to the received-bit view. -/

namespace Sys2Proof.Machine

/-- The level after a longer trace: the last `set` in the new part, else what the old part left (R12). -/
theorem lastLevel_append (l : Line) (a b : List Action) :
    lastLevel l (a ++ b) = (lastLevel l b).or (lastLevel l a) := by
  induction a with
  | nil => simp [lastLevel]
  | cons x rest ih =>
    cases x with
    | cfgOut l' => simpa [lastLevel] using ih
    | set l' v => simp [lastLevel, ih, Option.or_assoc]

/-- Replaying a trace on the latches gives each existing line the trace's last level (R12). -/
theorem level_replay (l : Line) (acts : List Action) : ∀ ls : Lines,
    (acts.foldl Lines.perform ls).level l = (ls.level l).map (fun v => (lastLevel l acts).getD v) := by
  induction acts with
  | nil => intro ls; simp [lastLevel]
  | cons a rest ih =>
    intro ls
    rw [List.foldl_cons, ih]
    cases a with
    | cfgOut l' => simp [Lines.perform, lastLevel]
    | set l' v =>
      simp only [Lines.perform, level_drive, lastLevel]
      by_cases h : l' = l
      · cases h' : lastLevel l rest <;> simp [h, Function.comp_def]
      · simp [h]

@[simp] theorem replay_cs_length (acts : List Action) : ∀ ls : Lines,
    (acts.foldl Lines.perform ls).cs.length = ls.cs.length := by
  induction acts with
  | nil => intro ls; rfl
  | cons a rest ih =>
    intro ls
    rw [List.foldl_cons, ih]
    cases a with
    | cfgOut l => rfl
    | set l v => cases l <;> simp [Lines.perform, Lines.drive]

/-- Latches with the same level on every line are the same latches. -/
theorem lines_ext {a b : Lines} (h : ∀ l, a.level l = b.level l) : a = b := by
  have h1 := h .data; have h2 := h .wr; have h3 := h .rd; have h4 := h .lock
  simp only [Lines.level, Option.some.injEq] at h1 h2 h3 h4
  have h5 : a.cs = b.cs := List.ext_getElem? fun i => h (.cs i)
  cases a; cases b; simp_all

/-- The replay's latches are the replay of the actions on the latches. -/
theorem replay_lines (acts : List Action) : ∀ r : Replay,
    (acts.foldl Replay.act r).lines = acts.foldl Lines.perform r.lines := by
  induction acts with
  | nil => intro r; rfl
  | cons a rest ih => intro r; rw [List.foldl_cons, List.foldl_cons, ih]; rfl

/-! ## Bits and frames on the latches -/

/-- Bits leave `WR` high and `DATA` at the last of them (R100, R101 (f)). -/
theorem perform_bits (bits : List Bool) : ∀ ls : Lines, (bitActions bits).foldl Lines.perform ls =
    if bits = [] then ls else { ls with wr := true, data := bits.getLastD false } := by
  induction bits with
  | nil => intro ls; rfl
  | cons b rest ih =>
    intro ls
    rw [show b :: rest = [b] ++ rest from rfl, bitActions_append, List.foldl_append, ih]
    cases rest <;> simp [bitActions, Lines.perform, Lines.drive]

/-- Bits drive no line but `WR` and `DATA` (R101). -/
theorem lastLevel_bits_other {l : Line} (hw : l ≠ .wr) (hd : l ≠ .data) (bits : List Bool) :
    lastLevel l (bitActions bits) = none := by
  induction bits with
  | nil => rfl
  | cons b rest ih => simp [bitActions_cons, lastLevel, ih, hw.symm, hd.symm]

/-- Frames to a chip leave its select line high (R120, R121). -/
theorem perform_frames (chip : Nat) (frames : List (List Bool)) (hne : ∀ f ∈ frames, f ≠ []) (hf : frames ≠ []) :
    ∀ ls : Lines, (frames.flatMap (frameActions chip)).foldl Lines.perform ls =
      { ls with cs := ls.cs.set chip true, wr := true, data := (frames.getLastD []).getLastD false } := by
  have one : ∀ f, f ≠ [] → ∀ ls : Lines, (frameActions chip f).foldl Lines.perform ls =
      { ls with cs := ls.cs.set chip true, wr := true, data := f.getLastD false } := fun f h ls => by
    rw [frameActions, List.cons_append, List.foldl_cons, List.foldl_append, perform_bits]
    simp [h, Lines.perform, Lines.drive]
  induction frames with
  | nil => exact absurd rfl hf
  | cons f rest ih =>
    intro ls
    rw [List.flatMap_cons, List.foldl_append, one f (hne f (by simp))]
    cases rest with
    | nil => simp
    | cons g r => rw [ih (fun x hx => hne x (by simp [hx])) (by simp)]; simp

/-- Frames to a chip drive no line but `WR`, `DATA` and its select line. -/
theorem lastLevel_frames_other {l : Line} {chip : Nat} (hw : l ≠ .wr) (hd : l ≠ .data) (hc : l ≠ .cs chip)
    (frames : List (List Bool)) : lastLevel l (frames.flatMap (frameActions chip)) = none := by
  induction frames with
  | nil => rfl
  | cons f rest ih => simp [frameActions, lastLevel, lastLevel_append, ih, hc.symm, lastLevel_bits_other hw hd]

/-! ## The open windows -/

/-- A window is open exactly for the chips whose select line is low, once for each (R26). -/
structure Replay.Tracks (r : Replay) : Prop where
  low_iff : ∀ i, i ∈ r.opened.map Prod.fst ↔ r.lines.level (.cs i) = some false
  nodup : (r.opened.map Prod.fst).Nodup

theorem tracks_start (p : Straps) : (Replay.start p).Tracks := by
  refine ⟨fun i => ?_, List.nodup_nil⟩
  simp [Replay.start, Lines.afterReset, Lines.level, List.getElem?_replicate]

theorem map_fst_filter_ne (l : List Window) (i : Nat) :
    (l.filter fun w => w.1 ≠ i).map Prod.fst = (l.map Prod.fst).filter fun j => j ≠ i := by
  rw [List.filter_map]; rfl

theorem tracks_act {r : Replay} (h : r.Tracks) (a : Action) : (r.act a).Tracks := by
  cases a with
  | cfgOut l => exact ⟨h.low_iff, h.nodup⟩
  | set l v =>
    cases l with
    | data => exact ⟨fun i => h.low_iff i, h.nodup⟩
    | rd => exact ⟨fun i => h.low_iff i, h.nodup⟩
    | lock => exact ⟨fun i => h.low_iff i, h.nodup⟩
    | wr =>
      have hm : ((r.act (.set .wr v)).opened).map Prod.fst = r.opened.map Prod.fst := by
        simp only [Replay.act, Replay.windows]; split <;> simp [Function.comp_def]
      refine ⟨fun i => ?_, by rw [hm]; exact h.nodup⟩
      rw [hm, h.low_iff i]
      exact Iff.rfl
    | cs j =>
      have hlev : ∀ i, (r.act (.set (.cs j) v)).lines.level (.cs i) =
          if j = i then (r.lines.level (.cs i)).map (fun _ => v) else r.lines.level (.cs i) := fun i => by
        simp only [Replay.act, Lines.perform, level_drive, Line.cs.injEq]
      by_cases h1 : v = false ∧ r.lines.level (.cs j) = some true
      · have ho : (r.act (.set (.cs j) v)).opened = r.opened.filter (fun w => w.1 ≠ j) ++ [(j, [])] := by
          simp [Replay.act, Replay.windows, h1]
        constructor
        · intro i
          rw [hlev, ho, List.map_append, map_fst_filter_ne]
          by_cases hj : j = i
          · subst hj; simp [h1]
          · have := h.low_iff i
            simp [Ne.symm hj, hj] at this ⊢
            exact this
        · rw [ho, List.map_append, map_fst_filter_ne]
          refine List.Nodup.append (h.nodup.filter _) (by simp) ?_
          simp [List.disjoint_singleton]
      · by_cases h2 : v = true ∧ r.lines.level (.cs j) = some false
        · have ho : (r.act (.set (.cs j) v)).opened = r.opened.filter (fun w => w.1 ≠ j) := by
            simp [Replay.act, Replay.windows, h2]
          constructor
          · intro i
            rw [hlev, ho, map_fst_filter_ne]
            by_cases hj : j = i
            · subst hj; simp [h2]
            · have := h.low_iff i
              simp [Ne.symm hj, hj] at this ⊢
              exact this
          · rw [ho, map_fst_filter_ne]; exact h.nodup.filter _
        · have ho : (r.act (.set (.cs j) v)).opened = r.opened := by
            simp only [Replay.act, Replay.windows, h1, h2, if_false]
          refine ⟨fun i => ?_, by rw [ho]; exact h.nodup⟩
          rw [hlev, ho, h.low_iff i]
          by_cases hj : j = i
          · subst hj
            cases hl : r.lines.level (.cs j) with
            | none => simp
            | some x => cases x <;> cases v <;> simp_all
          · simp [hj]

theorem tracks_foldl (acts : List Action) : ∀ {r : Replay}, r.Tracks → (acts.foldl Replay.act r).Tracks := by
  induction acts with
  | nil => intro r h; exact h
  | cons a rest ih => intro r h; exact ih (tracks_act h a)

/-- In every state the open windows are the selected chips of the replay. -/
theorem received_tracks (s : State) : s.received.Tracks := tracks_foldl _ (tracks_start _)

/-- A bit goes to every open window (R26, R104). -/
theorem replay_bit (r : Replay) (b : Bool) :
    (bitActions [b]).foldl Replay.act r =
      { lines := { r.lines with wr := true, data := b },
        opened := r.opened.map (fun w => (w.1, w.2 ++ [b])), out := r.out } := by
  simp [bitActions, Replay.act, Replay.windows, Lines.perform, Lines.drive]

/-- Bits go to every open window, in order; `DATA` is left at the last of them (R26, R101). -/
theorem replay_bits (bits : List Bool) : ∀ r : Replay,
    (bitActions bits).foldl Replay.act r =
      { lines := if bits = [] then r.lines else { r.lines with wr := true, data := bits.getLastD false },
        opened := r.opened.map (fun w => (w.1, w.2 ++ bits)), out := r.out } := by
  induction bits with
  | nil => intro r; simp
  | cons b rest ih =>
    intro r
    rw [show b :: rest = [b] ++ rest from rfl, bitActions_append, List.foldl_append, replay_bit, ih]
    cases rest <;> simp

/-- One frame to a chip while no window is open and the chip's line is high: one window with the frame's bits (R70). -/
theorem replay_frame (r : Replay) (chip : Nat) (bits : List Bool) (hne : bits ≠ []) (ho : r.opened = [])
    (hc : r.lines.level (.cs chip) = some true) :
    (frameActions chip bits).foldl Replay.act r =
      { lines := { r.lines with wr := true, data := bits.getLastD false }, opened := [],
        out := r.out ++ [(chip, bits)] } := by
  have hcs : r.lines.cs[chip]? = some true := hc
  obtain ⟨hlt, hget⟩ := List.getElem?_eq_some_iff.1 hcs
  rw [frameActions, List.cons_append, List.foldl_cons, List.foldl_append, replay_bits]
  have hset : (r.lines.cs.set chip false).set chip true = r.lines.cs := by
    rw [List.set_set]
    refine List.ext_getElem? fun i => ?_
    rw [List.getElem?_set]
    by_cases h : chip = i
    · subst h; simp [hlt, hget]
    · simp [h]
  simp [Replay.act, Replay.windows, Lines.perform, Lines.drive, Lines.level, ho, hne, hlt, hget, hset]

/-- Frames to a chip while no window is open and the chip's line is high: one window for each (R127, R184). -/
theorem replay_frames (frames : List (List Bool)) (chip : Nat) : ∀ r : Replay, (∀ f ∈ frames, f ≠ []) →
    r.opened = [] → r.lines.level (.cs chip) = some true →
    ((frames.flatMap (frameActions chip)).foldl Replay.act r).out = r.out ++ frames.map (fun f => (chip, f)) ∧
    ((frames.flatMap (frameActions chip)).foldl Replay.act r).opened = [] := by
  induction frames with
  | nil => intro r _ ho _; simp [ho]
  | cons f rest ih =>
    intro r hf ho hc
    rw [List.flatMap_cons, List.foldl_append, replay_frame r chip f (hf f (by simp)) ho hc]
    have := ih { lines := { r.lines with wr := true, data := f.getLastD false }, opened := [],
                 out := r.out ++ [(chip, f)] } (fun g hg => hf g (by simp [hg])) rfl hc
    simpa using this

/-- The received-bit view of a longer trace goes on from the view of the shorter one (R26). -/
theorem received_append {s t : State} {acts : List Action} (hp : resetActions s.straps <+: s.trace)
    (hs : t.straps = s.straps) (ht : t.trace = s.trace ++ acts) : t.received = acts.foldl Replay.act s.received := by
  rw [State.received, hs, ht, List.drop_append_of_le_length hp.length_le, List.foldl_append]
  rfl

end Sys2Proof.Machine
end

