-- ==== Sys2Proof/Laws/Invariant.lean ====
section
/-! SUPPORT. What keeps the invariant of `10_state.md` R23: a reset trace leaves the reset levels, a list of actions on
existing lines keeps latches and trace together, and a change of bytes alone keeps everything. -/

namespace Sys2Proof.Machine

theorem lastLevel_idleActions (l l' : Line) (v : Level) :
    lastLevel l (idleActions l' v) = if l' = l then some v else none := by
  simp [idleActions, lastLevel]

theorem lastLevel_releaseAll (l : Line) (n : Nat) :
    lastLevel l ((List.range n).flatMap fun i => idleActions (.cs i) true) =
      match l with
      | .cs i => if i < n then some true else none
      | _ => none := by
  induction n with
  | zero => cases l <;> simp [lastLevel]
  | succ n ih =>
    rw [List.range_succ, List.flatMap_append, lastLevel_append, ih]
    cases l with
    | cs i =>
      simp only [List.flatMap_cons, List.flatMap_nil, List.append_nil, lastLevel_idleActions, Line.cs.injEq]
      by_cases h : n = i
      · subst h; simp
      · by_cases h' : i < n
        · simp [h, h', Nat.lt_succ_of_lt h']
        · have : ¬ i < n + 1 := by omega
          simp [h, h', this]
    | data => simp [lastLevel_idleActions]
    | wr => simp [lastLevel_idleActions]
    | rd => simp [lastLevel_idleActions]
    | lock => simp [lastLevel_idleActions]

/-- The reset actions leave every line at its reset level (R22, R221). -/
theorem lastLevel_resetActions (p : Straps) (l : Line) :
    lastLevel l (resetActions p) = (Lines.afterReset p).level l := by
  rw [resetActions]
  simp only [lastLevel_append, lastLevel_releaseAll, lastLevel_idleActions]
  cases l <;> cases h : p.hasRd <;>
    simp [Lines.afterReset, Lines.level, h, lastLevel, idleActions, List.getElem?_replicate]

/-- Actions that drive existing lines only keep latches and trace together, and what is asked of `WR`, `LOCK`, `RD` and
`SR.mask` is asked of the new state (R12, R23). -/
theorem inv_of_actions {s t : State} {acts : List Action} (hs : s.Inv) (hl : t.lines = acts.foldl Lines.perform s.lines)
    (ht : t.trace = s.trace ++ acts) (habs : ∀ l, s.lines.level l = none → lastLevel l acts = none)
    (hn : t.straps = s.straps) (hrd : t.lines.rd = s.lines.rd) (hwr : t.lines.wr = true) (hlock : t.lines.lock = false)
    (hmask : t.srMask = 0) (hi : t.inited = s.inited) (hg : t.geom = s.geom) (h0 : t.fb0 = s.fb0) (h1 : t.fb1 = s.fb1)
    (hr : t.responses = s.responses) : t.Inv := by
  have hn' : t.n = s.n := congrArg Straps.n hn
  have hd' : t.hasRd = s.hasRd := congrArg Straps.hasRd hn
  refine ⟨by rw [hn]; exact hs.straps_legal, ?_, ?_, hwr, hlock, hmask, by rw [hi, hg]; exact hs.geom_inited,
    by rw [hi, h0, h1]; exact hs.banks_absent, by rw [hg, h0, h1, hn']; exact hs.banks_present, ?_, ?_,
    by rw [hr]; exact hs.responses_bits⟩
  · rw [hl, hn', replay_cs_length]; exact hs.cs_count
  · rw [hrd, hd']; exact hs.rd_high
  · rw [hn, ht]; exact hs.trace_reset.trans (List.prefix_append _ _)
  · intro l
    rw [hl, ht, level_replay, lastLevel_append, ← hs.trace_levels l]
    cases h : s.lines.level l with
    | none => simp [habs l h]
    | some v => cases h' : lastLevel l acts <;> simp

/-- Bytes written at addresses that have bytes already keep the invariant. -/
theorem inv_withBank {s : State} (hs : s.Inv) (b : Bank) (m : Memory) (h : m.addresses = (s.bank b).addresses) :
    (s.withBank b m).Inv := by
  refine ⟨?_, by simpa using hs.cs_count, by simpa using hs.rd_high, by simpa using hs.wr_high,
    by simpa using hs.lock_low, by simpa using hs.mask_zero, by simpa using hs.geom_inited, ?_, ?_, ?_,
    by simpa using hs.trace_levels, by simpa using hs.responses_bits⟩
  · have : (s.withBank b m).straps = s.straps := by cases b <;> rfl
    rw [this]; exact hs.straps_legal
  · intro hi
    have hi' : s.inited = false := by simpa using hi
    obtain ⟨e0, e1⟩ := hs.banks_absent hi'
    cases b <;> simp_all [State.withBank, State.bank, Memory.addresses]
  · intro g hg
    have hg' : s.geom = some g := by simpa using hg
    obtain ⟨a0, a1⟩ := hs.banks_present g hg'
    cases b <;> simp_all [State.withBank, State.bank]
  · have : (s.withBank b m).straps = s.straps := by cases b <;> rfl
    rw [this]; simpa using hs.trace_reset

/-- In a state that meets the invariant the active bank, and the other, have a byte exactly at `0..S-1` (R41). -/
theorem inv_byte_isSome {s : State} (hs : s.Inv) {g : Geometry} (hg : s.geom = some g) (b : Bank) (a : Nat) :
    (s.byte b a).isSome ↔ a < g.bankSize s.n := by
  obtain ⟨h0, h1⟩ := hs.banks_present g hg
  rw [State.byte, read_isSome_iff]
  cases b <;> simp [State.bank, h0, h1]

/-- In a state that meets the invariant the replay of `T3` ends at the state's own levels (R12, R26). -/
theorem received_lines {s : State} (hs : s.Inv) : s.received.lines = s.lines := by
  obtain ⟨rest, hrest⟩ := hs.trace_reset
  refine lines_ext fun l => ?_
  rw [State.received, replay_lines, level_replay, hs.trace_levels l, ← hrest, List.drop_left, lastLevel_append,
    lastLevel_resetActions]
  show ((Lines.afterReset s.straps).level l).map _ = _
  cases h : (Lines.afterReset s.straps).level l with
  | some v => cases lastLevel l rest <;> rfl
  | none =>
    have habs : s.lines.level l = none := by
      cases l with
      | cs i =>
        simp [Lines.afterReset, Lines.level, List.getElem?_replicate] at h ⊢
        rw [hs.cs_count]; exact h
      | rd =>
        simp only [Lines.afterReset, Lines.level] at h ⊢
        rw [hs.rd_high]; exact h
      | data => simp [Lines.level] at h
      | wr => simp [Lines.level] at h
      | lock => simp [Lines.level] at h
    have := hs.trace_levels l
    rw [habs, ← hrest, lastLevel_append, lastLevel_resetActions, h] at this
    simpa using this

/-- With no chip selected no window is open (R26). -/
theorem unfinished_of_noneSelected {s : State} (hs : s.Inv) (h : s.noneSelected) : s.unfinished = [] := by
  have ht := received_tracks s
  refine List.eq_nil_iff_forall_not_mem.2 fun w hw => ?_
  have := (ht.low_iff w.1).1 (List.mem_map.2 ⟨w, hw, rfl⟩)
  rw [received_lines hs] at this
  simpa using h false (List.mem_of_getElem? this)

end Sys2Proof.Machine
end

