-- ==== Sys2Proof/Laws/PerInstr.lean ====
section
/-! SUPPORT. Per-instruction families. RoundTrip: the decoder gives back every instruction whose operands fit their
fields (`30_encoding.md` R83). -/

namespace Sys2Proof.Laws.RoundTrip

/-- Decoding the encoding of a well-formed instruction gives it back, with every operand. -/
def Statement (i : Instr) : Prop := i.wf = true → decode (encode i) = .ok i

theorem shift (value : SerWord) (k : Nat) : Statement (.shift value k) := by
  intro h
  simp only [Instr.wf, countFits, Bool.and_eq_true, decide_eq_true_eq] at h
  obtain ⟨j, rfl⟩ : ∃ j, k = j + 1 := ⟨k - 1, by omega⟩
  have hop : opcodeField (place 0x01#8 24 ||| place (BitVec.ofNat 4 j) 20 ||| place value 0) = 0x01#8 := by
    simp only [opcodeField, place]; ext i hi; interval_cases i <;> simp
  have hacc : (place 0x01#8 24 ||| place (BitVec.ofNat 4 j) 20 ||| place value 0) &&& 0xFF0F0000#32 =
      0x01000000#32 := by
    simp only [place]; ext i hi; interval_cases i <;> simp
  have hn : nField (place 0x01#8 24 ||| place (BitVec.ofNat 4 j) 20 ||| place value 0) = BitVec.ofNat 4 j := by
    simp only [nField, place]; ext i hi; interval_cases i <;> simp
  have hv : valueField (place 0x01#8 24 ||| place (BitVec.ofNat 4 j) 20 ||| place value 0) = value := by
    simp only [valueField, place]; ext i hi; interval_cases i <;> simp
  have hrow : rowOf (place 0x01#8 24 ||| place (BitVec.ofNat 4 j) 20 ||| place value 0) =
      some ⟨0x01, 0x01000000, 0xFF0F0000, fun w => .shift (valueField w) ((nField w).toNat + 1)⟩ :=
    (rowOf_eq hop).trans rfl
  rw [encode, decode, Nat.add_sub_cancel, decodeWord_of_row hrow (by simpa [OpRow.accepts] using hacc)]
  simp only [hn, hv, BitVec.toNat_ofNat]
  rw [Nat.mod_eq_of_lt (by omega)]

theorem select (chip : Chip) : Statement (.select chip) := by
  intro _
  rw [encode, decode_placeBytes rfl (accepts_placeBytes (o' := 0xFF) (c2 := 0xFC) (c1 := 0xFF) (c0 := 0xFF) (p := 0x02) (q2 := 0) (q1 := 0) (q0 := 0)
    (by decide) (by decide) (by decide) (chipByte_mask _) (by simp) (by simp))]
  simp [chipField_placeBytes]

theorem release (chip : Chip) : Statement (.release chip) := by
  intro _
  rw [encode, decode_placeBytes rfl (accepts_placeBytes (o' := 0xFF) (c2 := 0xFC) (c1 := 0xFF) (c0 := 0xFF) (p := 0x03) (q2 := 0) (q1 := 0) (q0 := 0)
    (by decide) (by decide) (by decide) (chipByte_mask _) (by simp) (by simp))]
  simp [chipField_placeBytes]

theorem cmd (chip : Chip) (code : Byte) : Statement (.cmd chip code) := by
  intro _
  rw [encode, decode_placeBytes rfl (accepts_placeBytes (o' := 0xFF) (c2 := 0xFC) (c1 := 0xFF) (c0 := 0x00) (p := 0x10) (q2 := 0) (q1 := 0) (q0 := 0)
    (by decide) (by decide) (by decide) (chipByte_mask _) (by simp) (by simp))]
  simp [chipField_placeBytes, lowField_placeBytes]

theorem wr (chip : Chip) (addr : Byte) (nib : Nibble) : Statement (.wr chip addr nib) := by
  intro _
  rw [encode, decode_placeBytes rfl (accepts_placeBytes (o' := 0xFF) (c2 := 0xFC) (c1 := 0x00) (c0 := 0xF0) (p := 0x11) (q2 := 0) (q1 := 0) (q0 := 0)
    (by decide) (by decide) (by decide) (chipByte_mask _) (by simp) (nibByte_mask _))]
  simp [chipField_placeBytes, midField_placeBytes, nibField_placeBytes]

theorem swb (chip : Chip) (addr : Byte) : Statement (.swb chip addr) := by
  intro _
  rw [encode, decode_placeBytes rfl (accepts_placeBytes (o' := 0xFF) (c2 := 0xFC) (c1 := 0x00) (c0 := 0xFF) (p := 0x12) (q2 := 0) (q1 := 0) (q0 := 0)
    (by decide) (by decide) (by decide) (chipByte_mask _) (by simp) (by simp))]
  simp [chipField_placeBytes, midField_placeBytes]

theorem swn (nib : Nibble) : Statement (.swn nib) := by
  intro _
  rw [encode, decode_placeBytes rfl (accepts_placeBytes (o' := 0xFF) (c2 := 0xFF) (c1 := 0xFF) (c0 := 0xF0) (p := 0x13) (q2 := 0) (q1 := 0) (q0 := 0)
    (by decide) (by decide) (by decide) (by simp) (by simp) (nibByte_mask _))]
  simp [nibField_placeBytes]

theorem swe (chip : Chip) : Statement (.swe chip) := by
  intro _
  rw [encode, decode_placeBytes rfl (accepts_placeBytes (o' := 0xFF) (c2 := 0xFC) (c1 := 0xFF) (c0 := 0xFF) (p := 0x14) (q2 := 0) (q1 := 0) (q0 := 0)
    (by decide) (by decide) (by decide) (chipByte_mask _) (by simp) (by simp))]
  simp [chipField_placeBytes]

theorem bright (chip : Chip) (level : Nibble) : Statement (.bright chip level) := by
  intro _
  rw [encode, decode_placeBytes rfl (accepts_placeBytes (o' := 0xFF) (c2 := 0xFC) (c1 := 0xFF) (c0 := 0xF0) (p := 0x15) (q2 := 0) (q1 := 0) (q0 := 0)
    (by decide) (by decide) (by decide) (chipByte_mask _) (by simp) (nibByte_mask _))]
  simp [chipField_placeBytes, nibField_placeBytes]

theorem blink (chip : Chip) (on : Bool) : Statement (.blink chip on) := by
  intro _
  rw [encode, decode_placeBytes rfl (accepts_placeBytes (o' := 0xFF) (c2 := 0xFC) (c1 := 0xFF) (c0 := 0xFE) (p := 0x16) (q2 := 0) (q1 := 0) (q0 := 0)
    (by decide) (by decide) (by decide) (chipByte_mask _) (by simp) (bitByte_mask _))]
  simp [chipField_placeBytes, bitField_placeBytes]

theorem cclr (chip : Chip) : Statement (.cclr chip) := by
  intro _
  rw [encode, decode_placeBytes rfl (accepts_placeBytes (o' := 0xFF) (c2 := 0xFC) (c1 := 0xFF) (c0 := 0xFF) (p := 0x17) (q2 := 0) (q1 := 0) (q0 := 0)
    (by decide) (by decide) (by decide) (chipByte_mask _) (by simp) (by simp))]
  simp [chipField_placeBytes]

theorem rdd (chip : Chip) (addr : Byte) : Statement (.rdd chip addr) := by
  intro _
  rw [encode, decode_placeBytes rfl (accepts_placeBytes (o' := 0xFF) (c2 := 0xFC) (c1 := 0x00) (c0 := 0xFF) (p := 0x18) (q2 := 0) (q1 := 0) (q0 := 0)
    (by decide) (by decide) (by decide) (chipByte_mask _) (by simp) (by simp))]
  simp [chipField_placeBytes, midField_placeBytes]

theorem setpx (x y : Int) : Statement (.setpx x y) := by
  intro h
  simp only [Instr.wf, Bool.and_eq_true] at h
  rw [encode, decode_placeBytes rfl (accepts_placeBytes (o' := 0xFF) (c2 := 0x00) (c1 := 0x00) (c0 := 0xFF) (p := 0x20) (q2 := 0) (q1 := 0) (q0 := 0)
    (by decide) (by decide) (by decide) (by simp) (by simp) (by simp))]
  simp [xField_placeBytes, midField_placeBytes, sext8_coordField h.1, sext8_coordField h.2]

theorem clrpx (x y : Int) : Statement (.clrpx x y) := by
  intro h
  simp only [Instr.wf, Bool.and_eq_true] at h
  rw [encode, decode_placeBytes rfl (accepts_placeBytes (o' := 0xFF) (c2 := 0x00) (c1 := 0x00) (c0 := 0xFF) (p := 0x21) (q2 := 0) (q1 := 0) (q0 := 0)
    (by decide) (by decide) (by decide) (by simp) (by simp) (by simp))]
  simp [xField_placeBytes, midField_placeBytes, sext8_coordField h.1, sext8_coordField h.2]

theorem drawpx (x y : Int) (color : Byte) : Statement (.drawpx x y color) := by
  intro h
  simp only [Instr.wf, Bool.and_eq_true] at h
  rw [encode, decode_placeBytes rfl (accepts_placeBytes (o' := 0xFF) (c2 := 0x00) (c1 := 0x00) (c0 := 0x00) (p := 0x22) (q2 := 0) (q1 := 0) (q0 := 0)
    (by decide) (by decide) (by decide) (by simp) (by simp) (by simp))]
  simp [xField_placeBytes, midField_placeBytes, sext8_coordField h.1, sext8_coordField h.2, lowField_placeBytes]

theorem getpx (x y : Int) : Statement (.getpx x y) := by
  intro h
  simp only [Instr.wf, Bool.and_eq_true] at h
  rw [encode, decode_placeBytes rfl (accepts_placeBytes (o' := 0xFF) (c2 := 0x00) (c1 := 0x00) (c0 := 0xFF) (p := 0x23) (q2 := 0) (q1 := 0) (q0 := 0)
    (by decide) (by decide) (by decide) (by simp) (by simp) (by simp))]
  simp [xField_placeBytes, midField_placeBytes, sext8_coordField h.1, sext8_coordField h.2]

theorem cls : Statement .cls := by
  intro _
  rw [encode, decode_placeBytes rfl (accepts_placeBytes (o' := 0xFF) (c2 := 0xFF) (c1 := 0xFF) (c0 := 0xFF) (p := 0x24) (q2 := 0) (q1 := 0) (q0 := 0)
    (by decide) (by decide) (by decide) (by simp) (by simp) (by simp))]

theorem fills : Statement .fills := by
  intro _
  rw [encode, decode_placeBytes rfl (accepts_placeBytes (o' := 0xFF) (c2 := 0xFF) (c1 := 0xFF) (c0 := 0xFF) (p := 0x25) (q2 := 0) (q1 := 0) (q0 := 0)
    (by decide) (by decide) (by decide) (by simp) (by simp) (by simp))]

theorem setbyte (addr val : Byte) : Statement (.setbyte addr val) := by
  intro _
  rw [encode, decode_placeBytes rfl (accepts_placeBytes (o' := 0xFF) (c2 := 0xFF) (c1 := 0x00) (c0 := 0x00) (p := 0x26) (q2 := 0) (q1 := 0) (q0 := 0)
    (by decide) (by decide) (by decide) (by simp) (by simp) (by simp))]
  simp [midField_placeBytes, lowField_placeBytes]

theorem setact (idx : Bank) : Statement (.setact idx) := by
  intro _
  rw [encode, decode_placeBytes rfl (accepts_placeBytes (o' := 0xFF) (c2 := 0xFF) (c1 := 0xFF) (c0 := 0xFE) (p := 0x27) (q2 := 0) (q1 := 0) (q0 := 0)
    (by decide) (by decide) (by decide) (by simp) (by simp) (bitByte_mask _))]
  cases idx <;> simp [bitField_placeBytes, bankOfBit, bitOfBank]

theorem swap : Statement .swap := by
  intro _
  rw [encode, decode_placeBytes rfl (accepts_placeBytes (o' := 0xFF) (c2 := 0xFF) (c1 := 0xFF) (c0 := 0xFF) (p := 0x28) (q2 := 0) (q1 := 0) (q0 := 0)
    (by decide) (by decide) (by decide) (by simp) (by simp) (by simp))]

theorem flush : Statement .flush := by
  intro _
  rw [encode, decode_placeBytes rfl (accepts_placeBytes (o' := 0xFF) (c2 := 0xFF) (c1 := 0xFF) (c0 := 0xFF) (p := 0x30) (q2 := 0) (q1 := 0) (q0 := 0)
    (by decide) (by decide) (by decide) (by simp) (by simp) (by simp))]

theorem init (chip : Chip) (mode : Byte) (geom : Geometry) : Statement (.init chip mode geom) := by
  intro _
  rw [encode, decode_placeBytes rfl (accepts_placeBytes (o' := 0xFF) (c2 := 0xFC) (c1 := 0x00) (c0 := 0xFE) (p := 0x40) (q2 := 0) (q1 := 0) (q0 := 0)
    (by decide) (by decide) (by decide) (chipByte_mask _) (by simp) (bitByte_mask _))]
  cases geom <;> simp [chipField_placeBytes, midField_placeBytes, bitField_placeBytes, geometryOfBit, bitOfGeometry]

theorem frameCommand (code : Byte) : Statement (.frameCommand code) := fun _ => by
  have h := fieldOfBits_byte code
  simp [encode, decode, decodeFrame, commandFrameBits, msbFirst, commandTag] at h ⊢
  exact h

theorem frameWrite (addr : DeviceAddr) (nib : Nibble) : Statement (.frameWrite addr nib) := fun _ => by
  have h := fieldOfBits_addr addr
  have h' := fieldOfBits_nib nib
  simp [encode, decode, decodeFrame, writeFrameBits, writeHeadBits, msbFirst, commandTag, writeTag] at h h' ⊢
  exact ⟨h, h'⟩

theorem frameSuccessiveHead (addr : DeviceAddr) : Statement (.frameSuccessiveHead addr) := fun _ => by
  have h := fieldOfBits_addr addr
  simp [encode, decode, decodeFrame, writeHeadBits, msbFirst, commandTag, writeTag] at h ⊢
  exact h

end Sys2Proof.Laws.RoundTrip
end

