-- ==== Sys2Proof/Tests/Slice0.lean ====
section
/-! SUPPORT. Tests: expected results are those of `95_test_vectors.md` or read off the rules by hand, each named in its
comment; and for every statement with hypotheses a witness that meets them. -/

namespace Sys2Proof.Tests

open Sys2Proof Sys2Proof.Machine

/-! ## Helpers -/

/-- The next state, `none` after a fault or a refusal. -/
def nextOf : Result → Option State
  | .next s => some s
  | .fault _ => none
  | .refused _ => none

/-- The refusal, `none` if there is none. -/
def refusalOf : Result → Option Refusal
  | .next _ => none
  | .fault _ => none
  | .refused r => some r

/-- The trace after the reset actions. -/
def newActions (s : State) : List Action := s.trace.drop (resetActions s.straps).length

/-- A bit string of the vectors, first bit leftmost. -/
def bitsOf (s : String) : List Bool := s.toList.map fun c => c == '1'

/-- Reset with `N` modules and no read clock. -/
def chips (n : Nat) : State := State.resetWith { n := n, hasRd := false }

/-- An initialised state: `N` modules, both banks filled with `v`, everything else as after reset. -/
def ready (g : Geometry) (n : Nat) (v : Byte) : State :=
  { chips n with
    inited := true, geom := some g
    fb0 := (List.range (g.bankSize n)).map fun a => (a, v)
    fb1 := (List.range (g.bankSize n)).map fun a => (a, v) }

theorem chips_inv (n : Nat) (h : 1 ≤ n) (h4 : n ≤ 4) : (chips n).Inv where
  straps_legal := ⟨h, h4⟩
  cs_count := by simp [chips, State.resetWith, Lines.afterReset]
  rd_high := rfl
  wr_high := rfl
  lock_low := rfl
  mask_zero := rfl
  geom_inited := rfl
  banks_absent := fun _ => ⟨rfl, rfl⟩
  banks_present := fun _ h => nomatch h
  trace_reset := List.prefix_rfl
  trace_levels := fun l => (lastLevel_resetActions _ l).symm
  responses_bits := fun _ h => nomatch h

theorem ready_inv (g : Geometry) (n : Nat) (v : Byte) (h : 1 ≤ n) (h4 : n ≤ 4) : (ready g n v).Inv where
  straps_legal := ⟨h, h4⟩
  cs_count := (chips_inv n h h4).cs_count
  rd_high := rfl
  wr_high := rfl
  lock_low := rfl
  mask_zero := rfl
  geom_inited := rfl
  banks_absent := fun h => nomatch h
  banks_present := fun g' hg => by
    obtain rfl : g = g' := Option.some.inj hg
    constructor <;> simp [ready, Memory.addresses, Function.comp_def, chips, State.resetWith]
  trace_reset := List.prefix_rfl
  trace_levels := fun l => (lastLevel_resetActions _ l).symm
  responses_bits := fun _ h => nomatch h

/-! ## WellFormed: an ill-formed term for each check, which the check refuses (R80, R85) -/

theorem test_wf_count_zero : (Instr.shift 0 0).wf = false := by decide
theorem test_wf_count_seventeen : (Instr.shift 0 17).wf = false := by decide
theorem test_wf_setpx_x : (Instr.setpx 128 0).wf = false := by decide
theorem test_wf_setpx_y : (Instr.setpx 0 (-129)).wf = false := by decide
theorem test_wf_clrpx_x : (Instr.clrpx (-129) 0).wf = false := by decide
theorem test_wf_clrpx_y : (Instr.clrpx 0 128).wf = false := by decide
theorem test_wf_drawpx_x : (Instr.drawpx 200 0 1).wf = false := by decide
theorem test_wf_drawpx_y : (Instr.drawpx 0 200 1).wf = false := by decide
theorem test_wf_getpx_x : (Instr.getpx 128 0).wf = false := by decide
theorem test_wf_getpx_y : (Instr.getpx 0 128).wf = false := by decide
theorem test_wf_limits : (Instr.shift 0 16).wf = true ∧ (Instr.setpx (-128) 127).wf = true := by decide

/-! ## Decoding: each constructor by a word written out from the spec (V3 to V23; bits from R79) -/

theorem test_decode_shift : decodeWord 0b00000001001000000000000000000101 = .ok (.shift 0x5 3) := by rfl
theorem test_decode_select : decodeWord 0b00000010000000110000000000000000 = .ok (.select 3) := by rfl
theorem test_decode_release : decodeWord 0x03010000 = .ok (.release 1) := by rfl
theorem test_decode_cmd : decodeWord 0b00010000000000110000000010100111 = .ok (.cmd 3 0xA7) := by rfl
theorem test_decode_wr : decodeWord 0b00010001000000010010010100001010 = .ok (.wr 1 0x25 0xA) := by rfl
theorem test_decode_swb : decodeWord 0x12011000 = .ok (.swb 1 0x10) := by rfl
theorem test_decode_swn : decodeWord 0x1300000F = .ok (.swn 0xF) := by rfl
theorem test_decode_swe : decodeWord 0x14010000 = .ok (.swe 1) := by rfl
theorem test_decode_bright : decodeWord 0x15000007 = .ok (.bright 0 7) := by rfl
theorem test_decode_blink : decodeWord 0x16010001 = .ok (.blink 1 true) := by rfl
theorem test_decode_cclr : decodeWord 0x17020000 = .ok (.cclr 2) := by rfl
theorem test_decode_rdd : decodeWord 0x18031000 = .ok (.rdd 3 0x10) := by rfl
theorem test_decode_setpx : decodeWord 0b00100000000010100000001100000000 = .ok (.setpx 10 3) := by rfl
theorem test_decode_clrpx : decodeWord 0x211F0700 = .ok (.clrpx 31 7) := by rfl
theorem test_decode_drawpx : decodeWord 0x22FF0001 = .ok (.drawpx (-1) 0 1) := by rfl
theorem test_decode_getpx : decodeWord 0x2300FF00 = .ok (.getpx 0 (-1)) := by rfl
theorem test_decode_cls : decodeWord 0x24000000 = .ok .cls := by rfl
theorem test_decode_fills : decodeWord 0x25000000 = .ok .fills := by rfl
theorem test_decode_setbyte : decodeWord 0x26000D20 = .ok (.setbyte 13 0x20) := by rfl
theorem test_decode_setact : decodeWord 0x27000001 = .ok (.setact .bank1) := by rfl
theorem test_decode_swap : decodeWord 0x28000000 = .ok .swap := by rfl
theorem test_decode_flush : decodeWord 0b00110000000000000000000000000000 = .ok .flush := by rfl
theorem test_decode_init : decodeWord 0b01000000000000001111111100000001 = .ok (.init 0 0xFF .tall) := by rfl
/-- `100` `10100111` `0` (R71), `101` `0100101` `1010` (R72, V7), `101` `0010000` (R73, P3). -/
theorem test_decode_frames :
    decodeFrame (bitsOf "100101001110") = .ok (.frameCommand 0xA7) ∧
    decodeFrame (bitsOf "10101001011010") = .ok (.frameWrite 0x25 0xA) ∧
    decodeFrame (bitsOf "1010010000") = .ok (.frameSuccessiveHead 0x10) ∧
    decodeFrame (bitsOf "100101001111") = .error .notAFrame ∧
    decodeFrame (bitsOf "110101001110") = .error .notAFrame := ⟨rfl, rfl, rfl, rfl, rfl⟩
/-- The frame of V8 (a), 18 bits, is no row of the table and is refused as one request (log 7). -/
theorem test_decode_long_stream : decodeFrame (bitsOf "101000000011110000") = .error .notAFrame := rfl
/-- The illegal rows of V23. -/
theorem test_decode_must_be_zero :
    [0x01210005, 0x010F0000, 0x02040000, 0x10000101, 0x11000010, 0x13000010, 0x16000002, 0x20000001, 0x24000001,
     0x26010000, 0x27000002, 0x30010000, 0x40040000, 0x40FF2001].map (fun w => decodeWord (BitVec.ofNat 32 w)) =
    List.replicate 14 (.error .mustBeZero) := rfl
theorem test_decode_reserved :
    [0x00000000, 0x19000000, 0x04000000, 0x29000000, 0x31000000, 0x41000000, 0xFFFFFFFF].map
      (fun w => decodeWord (BitVec.ofNat 32 w)) = List.replicate 7 (.error .reservedOpcode) := rfl
theorem test_encode_words : encode (.shift 0xA55A 16) = .opWord 0x01F0A55A ∧ encode (.setpx 0 (-1)) = .opWord 0x2000FF00 ∧
    encode (.init 0 0x20 .wide) = .opWord 0x40002000 := ⟨rfl, rfl, rfl⟩
/-- The table's bits of a frame row, read as the number sent MSB first (R71, R72). -/
theorem test_table_words : decodeTableWord 32 0x40002001 = some (.init 0 0x20 .tall) ∧
    decodeTableWord 16 0x802 = some (.frameCommand 0x01) ∧ decodeTableWord 16 0x2A5A = some (.frameWrite 0x25 0xA) ∧
    decodeTableWord 16 0x290 = some (.frameSuccessiveHead 0x10) ∧ decodeTableWord 32 0 = none := ⟨rfl, rfl, rfl, rfl, rfl⟩

/-! ## Reset (V1, V2) -/

theorem test_reset_trace_one : (chips 1).trace =
    [.cfgOut (.cs 0), .set (.cs 0) true, .cfgOut .wr, .set .wr true, .cfgOut .data, .set .data false,
     .cfgOut .lock, .set .lock false] := rfl
theorem test_reset_trace_two : (State.resetWith { n := 2, hasRd := true }).trace =
    [.cfgOut (.cs 0), .set (.cs 0) true, .cfgOut (.cs 1), .set (.cs 1) true, .cfgOut .wr, .set .wr true,
     .cfgOut .data, .set .data false, .cfgOut .rd, .set .rd true, .cfgOut .lock, .set .lock false] := rfl

/-! ## Serializer and multiplexer (V4, V5) -/

/-- `SHIFT 0x5, 3` appends nine actions: bits `"101"` (R101). -/
theorem test_shift_101 : (nextOf (exec (.shift 0x5 3) (chips 1))).map newActions =
    some [.set .wr false, .set .data true, .set .wr true, .set .wr false, .set .data false, .set .wr true,
          .set .wr false, .set .data true, .set .wr true] := by decide
/-- `SHIFT 0xFFFE, 1` sends `"0"`: bits 15..1 are ignored (V4). -/
theorem test_shift_ignores_high : (nextOf (exec (.shift 0xFFFE 1) (chips 1))).map newActions =
    some [.set .wr false, .set .data false, .set .wr true] := by decide
/-- A count that no word carries (R101 (c)). -/
theorem test_shift_count : refusalOf (exec (.shift 1 0) (chips 1)) = some .illegalOpWord ∧
    refusalOf (exec (.shift 1 17) (chips 1)) = some .illegalOpWord := by decide
theorem test_select : (nextOf (exec (.select 1) (chips 2))).map (fun t => (newActions t, t.lines.cs)) =
    some ([.set (.cs 1) false], [true, false]) := by decide
/-- `SELECT 1` with `N = 1` is refused (V5 (c)). -/
theorem test_select_out_of_range : refusalOf (exec (.select 1) (chips 1)) = some .chipOutOfRange := by decide
theorem test_release : (nextOf (exec (.release 1) (chips 2))).map newActions = some [.set (.cs 1) true] := by decide

/-! ## Encoder (V6 to V12) -/

theorem test_cmd_window : (nextOf (exec (.cmd 1 0x55) (chips 2))).map State.windows =
    some [(1, bitsOf "100010101010")] := by decide
theorem test_cmd_length : (nextOf (exec (.cmd 0 0x01) (chips 1))).map (fun t => (newActions t).length) = some 38 := by
  decide
/-- Bit 7 of the address is lost (V7). -/
theorem test_wr_window : (nextOf (exec (.wr 1 0xA5 0xA) (chips 2))).map State.windows =
    some [(1, bitsOf "10101001011010")] := by decide
theorem test_wr_data : (nextOf (exec (.wr 0 0x80 0x1) (chips 1))).map (fun t => (t.windows, t.lines.data)) =
    some ([(0, bitsOf "10100000000001")], true) := by decide
/-- After `SWB 1, 0` the window is open and `CS1` low (V8 (a)). -/
theorem test_swb : (nextOf (exec (.swb 1 0) (chips 2))).map (fun t => (t.windows, t.unfinished, t.lines.cs)) =
    some ([], [(1, bitsOf "1010000000")], [true, false]) := by decide
theorem test_swn : (nextOf (exec (.swn 0xC) (chips 1))).map newActions =
    some (bitActions [true, true, false, false]) := by decide
/-- `SWB 0, 5; SWE 0` (V8 (c)). -/
theorem test_swe : (nextOf (runOps [.swb 0 5, .swe 0] (chips 1))).map State.windows =
    some [(0, bitsOf "1010000101")] := by decide
/-- The code of level 7 over the default table is 0xA7 (R77). -/
theorem test_bright_code : brightCode Config.defaultCodes 7 = 0xA7 ∧ brightCode Config.defaultCodes 15 = 0xAF := by
  decide
theorem test_blink_code : blinkCode Config.defaultCodes true = 0x09 ∧ blinkCode Config.defaultCodes false = 0x08 := by
  decide
/-- Windows 127 and 128 of `CCLR` (V11). -/
theorem test_cclr_bits : clearBits 127 = bitsOf "10111111110000" ∧ clearBits 128 = bitsOf "10100000000000" := by decide
theorem test_cclr_completes : refusalOf (exec (.cclr 0) (chips 1)) = none := by decide
theorem test_rdd : (nextOf (exec (.rdd 0 0x10) (chips 1))).map (fun t => (t.responses, newActions t)) =
    some ([0], []) := by decide
theorem test_rdd_out_of_range : refusalOf (exec (.rdd 3 0x10) (chips 1)) = some .chipOutOfRange := by decide

/-! ## Framebuffer (V13 to V19) -/

theorem test_setpx : (nextOf (exec (.setpx 10 3) (ready .wide 1 0x00))).map (fun t => t.byte .bank0 13) =
    some (some 0x20) := by decide
/-- TALL, `N = 4`: the last pixel is bit 0 of byte 191 (V14). -/
theorem test_setpx_tall_last : (inRange .tall 4 23 63, pixelAddr .tall 23 63, pixelBit 23) = (true, 191, 0) ∧
    inRange .tall 4 0 64 = false := by decide
theorem test_clrpx : (nextOf (exec (.clrpx 9 3) (ready .wide 1 0xEE))).map (fun t => t.byte .bank0 13) =
    some (some 0xAE) := by decide
theorem test_clrpx_out_of_range : (nextOf (exec (.clrpx (-1) 0) (ready .wide 1 0xFF))).map (fun t => t.byte .bank0 0) =
    some (some 0xFF) := by decide
theorem test_drawpx_off : (nextOf (exec (.drawpx 5 5 0) (ready .wide 1 0xFF))).map (fun t => t.byte .bank0 20) =
    some (some 0xFB) := by decide
theorem test_drawpx_on : (nextOf (exec (.drawpx 5 5 0x80) (ready .wide 1 0x00))).map (fun t => t.byte .bank0 20) =
    some (some 0x04) := by decide
theorem test_getpx_on : (nextOf (exec (.getpx 8 3) (ready .wide 1 0xEE))).map State.responses = some [1] := by decide
theorem test_getpx_above : (nextOf (exec (.getpx 0 (-1)) (ready .wide 1 0xFF))).map State.responses = some [0] := by
  decide
theorem test_cls : (nextOf (exec .cls (ready .wide 1 0xFF))).map (fun t => (t.byte .bank0 31, t.byte .bank1 31)) =
    some (some 0x00, some 0xFF) := by decide
theorem test_fills : (nextOf (exec .fills (ready .wide 1 0x00))).map (fun t => (t.byte .bank0 0, t.byte .bank1 0)) =
    some (some 0xFF, some 0x00) := by decide
theorem test_setbyte : (nextOf (exec (.setbyte 31 0xFF) (ready .wide 1 0x00))).map (fun t => t.byte .bank0 31) =
    some (some 0xFF) := by decide
theorem test_setbyte_out_of_range : refusalOf (exec (.setbyte 32 0) (ready .wide 1 0)) = some .pokeOutOfRange := by
  decide
theorem test_setact : (nextOf (exec (.setact .bank1) (ready .wide 1 0))).map State.act = some .bank1 := by decide
theorem test_swap : (nextOf (exec .swap (ready .wide 1 0))).map State.act = some .bank1 := by decide
theorem test_not_initialised : refusalOf (exec .swap (chips 1)) = some .notInitialised ∧
    refusalOf (exec (.setbyte 200 0) (chips 1)) = some .notInitialised := by decide

/-! ## Flush, initialization, wire frames (V20 to V22, P1) -/

/-- The walk of TALL, `N = 2`: addresses 48 and 17 are at positions 16 and 69 (V20). -/
theorem test_walk_tall : (walk .tall 2)[16]? = some 48 ∧ (walk .tall 2)[69]? = some 17 ∧
    (walk .tall 2)[95]? = some 95 := by decide
theorem test_flush_refused : refusalOf (exec .flush (chips 1)) = some .notInitialised := by decide
/-- The default list of R184 with `mode = 0x20`. -/
theorem test_init_cmds : Config.defaultInitCmds Config.defaultCodes 0x20 = [0x00, 0x20, 0x14, 0x01, 0x03] := by decide
/-- The first `INIT` latches the geometry, a second one with another does not (V22). -/
theorem test_init_geometry : (allocate .wide (chips 1)).geom = some .wide ∧
    (allocate .tall (allocate .wide (chips 1))).geom = some .wide := by decide
theorem test_frame_command : (nextOf (runOps [.select 0, .frameCommand 0xFF, .release 0] (chips 1))).map State.windows =
    some [(0, bitsOf "100111111110")] := by decide
theorem test_frame_write : (nextOf (runOps [.select 0, .frameWrite 0x7F 0xF, .release 0] (chips 1))).map State.windows =
    some [(0, bitsOf "10111111111111")] := by decide
theorem test_frame_head : (nextOf (runOps [.select 0, .frameSuccessiveHead 5, .release 0] (chips 1))).map State.windows =
    some [(0, bitsOf "1010000101")] := by decide

/-! ## Steps -/

theorem test_step_illegal : refusalOf (step (State.reset.withFetchWord 32 0)) = some .illegalOpWord := by decide
theorem test_step_waits : nextOf (step State.reset) = some State.reset := by rfl
theorem test_step_select : (nextOf (step (State.reset.withFetchWord 32 0x02030000))).map (fun t => t.lines.cs) =
    some [true, true, true, false] := by decide

/-! ## Witnesses: concrete states and operands that meet the hypotheses of each statement, at the ends of each range -/

theorem next_of {r : Result} (h : (nextOf r).isSome = true) : ∃ t, r = .next t := by
  cases r with
  | next t => exact ⟨t, rfl⟩
  | fault f => cases h
  | refused r => cases h

theorem inv_port {s : State} (h : s.Inv) (p : List Encoded) : ({ s with port := p } : State).Inv :=
  ⟨h.straps_legal, h.cs_count, h.rd_high, h.wr_high, h.lock_low, h.mask_zero, h.geom_inited, h.banks_absent,
    h.banks_present, h.trace_reset, h.trace_levels, h.responses_bits⟩

/-- Two chips; chip 1 is the last one, chip 2 is out of range; nothing is selected. -/
def ChipBounds : Prop := (1 : Chip).toNat < (chips 2).n ∧ (chips 2).n ≤ (2 : Chip).toNat ∧ (chips 2).Inv ∧
  (chips 2).noneSelected

theorem chip_bounds : ChipBounds := ⟨by decide, by decide, chips_inv 2 (by decide) (by decide), by decide⟩

/-- The same state with both banks present. -/
theorem ready_bounds : (ready .tall 4 0x5A).Inv ∧ (ready .tall 4 0x5A).geom = some .tall ∧
    (ready .tall 4 0x5A).inited = true ∧ (ready .tall 4 0x5A).noneSelected :=
  ⟨ready_inv .tall 4 0x5A (by decide) (by decide), rfl, rfl, by decide⟩

/-- An open successive write frame to chip 1 of 2, after `SWB 1, 0x10`. -/
def streaming : State :=
  { ready .wide 2 0 with
    lines := { (ready .wide 2 0).lines with cs := [true, false], wr := true, data := false }
    srVal := 0x10
    srMask := 0
    trace := (ready .wide 2 0).trace ++ .set (.cs 1) false :: bitActions (bitsOf "1010010000") }

theorem streaming_of_swb : exec (.swb 1 0x10) (ready .wide 2 0) = .next streaming := by rfl

theorem streaming_inv : streaming.Inv :=
  inv_of_actions (acts := .set (.cs 1) false :: bitActions (bitsOf "1010010000"))
    (ready_inv .wide 2 0 (by decide) (by decide)) (by decide) rfl
    (fun l h => by
      cases l with
      | cs i =>
        have h1 : i ≠ 1 := by rintro rfl; revert h; decide
        have h1' : ¬ 1 = i := fun h => h1 h.symm
        simp [lastLevel, lastLevel_bits_other, h1']
      | rd => decide
      | data => cases h
      | wr => cases h
      | lock => cases h)
    rfl rfl rfl rfl rfl rfl rfl rfl rfl rfl

theorem witness_ResetGivesTheSpecifiedState :
    (Straps.legal { n := 1, hasRd := false }) ∧ (Straps.legal { n := 4, hasRd := true }) := by decide
theorem witness_ResetMeetsTheInvariant :
    (Straps.legal { n := 1, hasRd := true }) ∧ (Straps.legal { n := 4, hasRd := false }) := by decide
theorem witness_LaterResetForgetsEverything :
    (chips 1).draws = (ready .wide 4 0xFF).draws ∧ chips 1 ≠ ready .wide 4 0xFF := by decide
theorem witness_StepKeepsTheInvariant :
    ((ready .tall 4 0x5A).withFetchWord 32 0x02030000).Inv ∧
    ∃ t, step ((ready .tall 4 0x5A).withFetchWord 32 0x02030000) = .next t := ⟨inv_port ready_bounds.1 _, _, rfl⟩

/-- A reachable state with both banks: reset, then `INIT 3, 0x20, TALL`. -/
theorem reachable_initialised : ∃ s, Reachable s ∧ s.inited = true ∧ s.geom = some .tall ∧ s.port = [] ∧
    ∃ t, step s = .next t := by
  refine ⟨_, .step _ (clearChip 3 (sendCommands 3 (Config.initCmds 0x20) (allocate .tall State.reset)))
    (.present State.reset (.opWord 0x40032001) (.reset Config.straps (by decide))) rfl, ?_⟩
  rw [initFrames_eq]
  exact ⟨rfl, rfl, rfl, _, rfl⟩
theorem witness_ReachableStatesMeetTheInvariants :
    (Reachable State.reset ∧ State.reset.lines.level .rd = some true) ∧
    (∃ s, Reachable s ∧ s.inited = true ∧ s.geom = some .tall ∧ s.port = [] ∧ ∃ t, step s = .next t) :=
  ⟨⟨.reset _ (by decide), rfl⟩, reachable_initialised⟩
theorem witness_ReachableLinesFollowTheTrace : Reachable State.reset ∧ Reachable (chips 1) :=
  ⟨.reset _ (by decide), .reset _ (by decide)⟩
theorem witness_EveryInstructionKeepsBanksCanonical :
    (ready .wide 1 0).fb0.wf ∧ (ready .wide 1 0).fb1.wf ∧ ∃ t, exec (.setbyte 31 7) (ready .wide 1 0) = .next t :=
  ⟨by decide, by decide, next_of (by decide)⟩

theorem witness_DecodeOfEncodeIsTheInstruction :
    (Instr.shift 0xFFFF 1).wf = true ∧ (Instr.shift 0 16).wf = true ∧ (Instr.drawpx (-128) 127 0).wf = true ∧
    (Instr.init 3 0xFF .tall).wf = true ∧ (Instr.frameWrite 0x7F 0xF).wf = true := by decide
theorem witness_EncodeOfDecodeIsTheWord : decodeWord 0x01F0FFFF = .ok (.shift 0xFFFF 16) ∧
    decodeWord 0x207F8000 = .ok (.setpx 127 (-128)) := ⟨rfl, rfl⟩
theorem witness_LegalWordsAreThoseOfTheMap :
    ((0x01000000, 0xFF0F0000) ∈ opcodeMap ∧ (0x01F0FFFF : OpWord) &&& 0xFF0F0000 = 0x01000000) ∧
    ((0x40000000, 0xFFFC00FE) ∈ opcodeMap ∧ (0x4003FF01 : OpWord) &&& 0xFFFC00FE = 0x40000000) ∧
    ((State.reset.withFetchWord 32 0x01010000).port = .opWord 0x01010000 :: [] ∧
      ∀ r ∈ opcodeMap, (0x01010000 : OpWord) &&& r.2 ≠ r.1) := ⟨by decide, by decide, rfl, by simp [opcodeMap]⟩
theorem witness_StepRunsTheDecodedInstruction :
    decode (.opWord 0x02000000) = .ok (.select 0) ∧ decode (.opWord 0x02000001) = .error .mustBeZero ∧
    decode (.wireFrame (bitsOf "1010010000")) = .ok (.frameSuccessiveHead 0x10) ∧
    decode (.wireFrame []) = .error .notAFrame ∧ State.reset.port = [] := ⟨rfl, rfl, rfl, rfl, rfl⟩

theorem witness_ShiftSendsTheLowBitsMsbFirst : (1 ≤ 1 ∧ 1 ≤ 16 ∧ 0 < 1) ∧ (1 ≤ 16 ∧ 16 ≤ 16 ∧ 15 < 16) ∧
    (15 + 1 ≤ 16 ∧ ∃ t, runOps [.shift 0xFFFF 15, .shift 1 1] (chips 1) = .next t) ∧ streaming.Inv ∧
    ∃ t, exec (.shift 5 3) streaming = .next t :=
  ⟨by decide, by decide, ⟨by decide, next_of (by decide)⟩, streaming_inv, _, rfl⟩
/-- Chip 1 is the last chip and has an open window, chip 0 is released, chip 2 is out of range. -/
def OneStreams : Prop :=
  ((1 : Chip).toNat < streaming.n ∧ streaming.n ≤ (2 : Chip).toNat ∧ streaming.Inv) ∧
  (streaming.lines.level (.cs (1 : Chip).toNat) = some false ∧
    ((1 : Chip).toNat, bitsOf "1010010000") ∈ streaming.unfinished) ∧
  streaming.lines.level (.cs (0 : Chip).toNat) = some true

theorem one_streams : OneStreams := ⟨⟨by decide, by decide, streaming_inv⟩, ⟨rfl, by decide⟩, rfl⟩

theorem witness_SelectDrivesOnlyItsLineLow : OneStreams ∧ (∃ t, exec (.select 1) streaming = .next t) ∧
    ∃ t, exec (.select 0) streaming = .next t := ⟨one_streams, ⟨_, rfl⟩, _, rfl⟩
theorem witness_ReleaseDrivesOnlyItsLineHigh : OneStreams ∧ (∃ t, exec (.release 1) streaming = .next t) ∧
    ∃ t, exec (.release 0) streaming = .next t := ⟨one_streams, ⟨_, rfl⟩, _, rfl⟩
/-- With chip 1 selected, both ends of `k`, and an `SWN`. -/
theorem witness_BitsReachEverySelectedChip : streaming.Inv ∧ streaming.lines.level (.cs 1) = some false ∧
    (∃ t, exec (.shift 1 1) streaming = .next t) ∧ (∃ t, exec (.shift 1 16) streaming = .next t) ∧
    (∃ t, exec (.swn 0xF) streaming = .next t) ∧ (∃ t, exec (.frameCommand 1) streaming = .next t) ∧
    (∃ t, exec (.frameWrite 1 1) streaming = .next t) ∧ ∃ t, exec (.frameSuccessiveHead 1) streaming = .next t :=
  ⟨streaming_inv, rfl, ⟨_, rfl⟩, ⟨_, rfl⟩, ⟨_, rfl⟩, ⟨_, rfl⟩, ⟨_, rfl⟩, _, rfl⟩
theorem witness_ChipOutOfRangeIsRefused : (chips 1).n ≤ (1 : Chip).toNat ∧ (chips 3).n ≤ (3 : Chip).toNat := by decide

theorem witness_CommandFrameHasTwelveBits : ChipBounds ∧ ∃ t, exec (.cmd 1 0x55) (chips 2) = .next t ∧
    streaming.Inv ∧ ∃ t, exec (.cmd 1 0x55) streaming = .next t := ⟨chip_bounds, _, rfl, streaming_inv, _, rfl⟩
theorem witness_WriteFrameHasFourteenBits : ChipBounds ∧ ∃ t, exec (.wr 1 0xA5 0xA) (chips 2) = .next t ∧
    streaming.Inv ∧ ∃ t, exec (.wr 0 0xA5 0xA) streaming = .next t := ⟨chip_bounds, _, rfl, streaming_inv, _, rfl⟩
theorem witness_StreamBeginLeavesTheChipSelected : ChipBounds ∧ ∃ t, exec (.swb 1 0xFF) (chips 2) = .next t :=
  ⟨chip_bounds, _, rfl⟩
theorem witness_StreamNibbleSendsFourBits : streaming.Inv ∧ ∃ t, exec (.swn 0xF) streaming = .next t :=
  ⟨streaming_inv, _, rfl⟩
theorem witness_StreamEndClosesTheWindow : OneStreams ∧ (∃ t, exec (.swe 1) streaming = .next t) ∧
    ∃ t, exec (.swe 0) streaming = .next t := ⟨one_streams, ⟨_, rfl⟩, _, rfl⟩
theorem witness_StreamIsOneWindow : (chips 2).Inv ∧ (chips 2).noneSelected ∧ (1 : Chip).toNat < (chips 2).n :=
  ⟨chip_bounds.2.2.1, chip_bounds.2.2.2, chip_bounds.1⟩
theorem witness_BrightnessIsTheOredCommand : (1 : Chip).toNat < (chips 2).n ∧ (chips 2).n ≤ (2 : Chip).toNat :=
  ⟨chip_bounds.1, chip_bounds.2.1⟩
theorem witness_BlinkIsItsCommand : (1 : Chip).toNat < (chips 2).n ∧ (chips 2).n ≤ (2 : Chip).toNat :=
  ⟨chip_bounds.1, chip_bounds.2.1⟩
theorem witness_ChipClearSendsAllAddressesTwice : ChipBounds ∧ ∃ t, exec (.cclr 1) (chips 2) = .next t :=
  ⟨chip_bounds, _, rfl⟩
theorem witness_ReadStubAnswersZero : (1 : Chip).toNat < (chips 2).n ∧ (chips 2).n ≤ (2 : Chip).toNat :=
  ⟨chip_bounds.1, chip_bounds.2.1⟩
theorem witness_EncoderIgnoresTheFramebuffer : (Instr.cmd 1 7).isFramebuffer = false ∧ Instr.cmd 1 7 ≠ .flush ∧
    (∀ c mode g, Instr.cmd 1 7 ≠ .init c mode g) ∧ ∃ t, exec (.cmd 1 7) (chips 2) = .next t :=
  ⟨rfl, by decide, fun _ _ _ h => (nomatch h), _, rfl⟩

theorem witness_GeometryConstants : (1 ≤ 1 ∧ 1 ≤ 4) ∧ (1 ≤ 4 ∧ 4 ≤ 4) := by decide
/-- The corners of the canvas, the last byte and bit, and the last module. -/
theorem witness_PixelMapIsABijection :
    inRange .wide 1 0 0 = true ∧ inRange .wide 1 31 7 = true ∧ inRange .tall 4 23 63 = true ∧
    pixelAddr .tall 23 63 = pixelAddr .tall 23 63 ∧ 191 < Geometry.bankSize .tall 4 ∧ 7 < 8 ∧ 3 < 4 := by decide
theorem witness_UninitialisedIsRefused : (chips 1).inited = false ∧ Instr.isFramebuffer .swap = true ∧
    (Instr.flush = .flush) := by decide

theorem witness_SetPixelTurnsOnOneBit :
    (coordFits (-128) = true ∧ coordFits 127 = true) ∧ (chips 1).inited = false ∧ (ready .tall 4 0x5A).Inv ∧
    (ready .tall 4 0x5A).geom = some .tall ∧ inRange .tall (ready .tall 4 0x5A).n 23 63 = true ∧
    inRange .tall (ready .tall 4 0x5A).n 24 63 = false ∧ inRange .tall (ready .tall 4 0x5A).n (-1) 0 = false :=
  ⟨by decide, rfl, ready_bounds.1, rfl, by decide, by decide, by decide⟩
theorem witness_ClearPixelTurnsOffOneBit :
    (coordFits 127 = true ∧ coordFits (-128) = true) ∧ (chips 1).inited = false ∧ (ready .tall 4 0x5A).Inv ∧
    (ready .tall 4 0x5A).geom = some .tall ∧ inRange .tall (ready .tall 4 0x5A).n 0 0 = true ∧
    inRange .tall (ready .tall 4 0x5A).n 0 64 = false :=
  ⟨by decide, rfl, ready_bounds.1, rfl, by decide, by decide⟩
theorem witness_DrawPixelChoosesByColour :
    (coordFits (-128) = true ∧ coordFits 127 = true) ∧ (1 : Byte) ≠ 0 ∧ (0 : Byte) = 0 ∧ (ready .tall 4 0x5A).Inv ∧
    (ready .tall 4 0x5A).inited = true := ⟨by decide, by decide, rfl, ready_bounds.1, rfl⟩
theorem witness_GetPixelAnswersTheBit :
    (coordFits (-128) = true ∧ coordFits 127 = true) ∧ (chips 1).inited = false ∧ (ready .wide 1 0xFE).Inv ∧
    (ready .wide 1 0xFE).geom = some .wide ∧ inRange .wide (ready .wide 1 0xFE).n 31 7 = true ∧
    inRange .wide (ready .wide 1 0xFE).n 32 7 = false ∧ inRange .wide (ready .wide 1 0xFE).n 0 8 = false :=
  ⟨by decide, rfl, ready_inv .wide 1 0xFE (by decide) (by decide), rfl, by decide, by decide, by decide⟩
theorem witness_FillsWriteTheWholeActiveBank :
    (Instr.cls = .cls ∧ (0x00 : Byte) = 0x00) ∧ (Instr.fills = .fills ∧ (0xFF : Byte) = 0xFF) ∧
    (chips 1).inited = false ∧ (ready .tall 4 0x5A).Inv ∧ (ready .tall 4 0x5A).geom = some .tall :=
  ⟨⟨rfl, rfl⟩, ⟨rfl, rfl⟩, rfl, ready_bounds.1, rfl⟩
/-- Address 191 is the last byte of TALL with `N = 4`, 192 is past it. -/
theorem witness_SetByteWritesOneByte :
    (chips 1).inited = false ∧ (ready .tall 4 0x5A).Inv ∧ (ready .tall 4 0x5A).geom = some .tall ∧
    (191 : Byte).toNat < Geometry.bankSize .tall (ready .tall 4 0x5A).n ∧
    Geometry.bankSize .tall (ready .tall 4 0x5A).n ≤ (192 : Byte).toNat :=
  ⟨rfl, ready_bounds.1, rfl, by decide, by decide⟩
theorem witness_BufferSelectionWritesOnlyAct : (ready .wide 1 0).inited = true ∧ (chips 1).inited = false := ⟨rfl, rfl⟩
theorem witness_FramebufferLaws :
    (ready .wide 1 0).Inv ∧ (ready .wide 1 0).geom = some .wide ∧ inRange .wide (ready .wide 1 0).n 31 7 = true ∧
    inRange .wide (ready .wide 1 0).n 32 0 = false ∧ (∃ t, exec (.setpx 31 7) (ready .wide 1 0) = .next t) ∧
    inRange .wide (ready .wide 1 0).n 30 7 = true ∧ ((30 : Int), (7 : Int)) ≠ (31, 7) ∧
    Instr.isFramebuffer .swap = true ∧ ∃ t, exec .swap (ready .wide 1 0) = .next t :=
  ⟨ready_inv .wide 1 0 (by decide) (by decide), rfl, by decide, by decide, next_of (by decide), by decide, by decide,
    rfl, _, rfl⟩
theorem witness_InactiveBankIsNeverTouched :
    (ready .wide 1 0).inited = true ∧ ∃ t, exec (.setpx 0 0) (ready .wide 1 0) = .next t :=
  ⟨rfl, next_of (by decide)⟩

theorem witness_WalkIsByteColumnOrder : 0 < Geometry.bankSize .wide 1 ∧ 191 < Geometry.bankSize .tall 4 := by decide
theorem flush_completes (g : Geometry) (n : Nat) (v : Byte) : ∃ t, exec .flush (ready g n v) = .next t := by
  have hb : ∀ a ∈ walk g n, (State.byte (beginStream 0 0 (setLine .lock true (ready g n v)))
      (beginStream 0 0 (setLine .lock true (ready g n v))).act a).isSome := by
    intro a ha
    have hr : ((ready g n v).byte .bank0 a).isSome = true := by
      rw [State.byte, read_isSome_iff]
      simp only [State.bank, ready, Memory.addresses, List.map_map, Function.comp_def, List.map_id', List.mem_range]
      simp only [walk, List.mem_flatMap, List.mem_map, List.mem_range] at ha
      obtain ⟨c, hc, y, hy, rfl⟩ := ha
      cases g <;> simp only [Geometry.stride, Geometry.height, Geometry.bankSize, Geometry.bytesPerModule,
        Geometry.moduleWidth, Geometry.moduleHeight] at * <;> omega
    rw [beginStream, shiftWriteHead_eq, afterBits_byte]
    exact hr
  obtain ⟨s', hs'⟩ : ∃ s', streamBytes (walk g n) (beginStream 0 0 (setLine .lock true (ready g n v))) = .next s' :=
    ⟨_, streamBytes_eq _ _ hb⟩
  refine ⟨setLine .lock false (releaseChip 0 s'), ?_⟩
  show (match streamBytes (walk g n) (beginStream 0 0 (setLine .lock true (ready g n v))) with
    | .next s' => Host.Outcome.next (setLine .lock false (releaseChip 0 s'))
    | .fault f => .fault f
    | .refused r => .refused r) = _
  rw [hs']

theorem witness_FlushStreamsTheActiveBank : (chips 1).inited = false ∧ (ready .tall 4 0x5A).Inv ∧
    (ready .tall 4 0x5A).geom = some .tall ∧ (ready .tall 4 0x5A).noneSelected :=
  ⟨rfl, ready_bounds.1, rfl, ready_bounds.2.2.2⟩
/-- The active banks agree, the inactive ones do not. -/
theorem witness_FlushShowsOnlyTheActiveBank :
    ∃ s s' t t' : State, s.Inv ∧ s'.Inv ∧ s.n = s'.n ∧ s.geom = s'.geom ∧ s.bank s.act = s'.bank s'.act ∧
      s.fb1 ≠ s'.fb1 ∧ exec .flush s = .next t ∧ exec .flush s' = .next t' := by
  obtain ⟨t, ht⟩ := flush_completes .wide 1 0xFF
  have hi := ready_inv .wide 1 0xFF (by decide) (by decide)
  obtain ⟨t', ht'⟩ : ∃ t', exec .flush ((ready .wide 1 0xFF).withBank .bank1 (ready .wide 1 0).fb1) = .next t' :=
    next_of (by decide)
  exact ⟨ready .wide 1 0xFF, (ready .wide 1 0xFF).withBank .bank1 (ready .wide 1 0).fb1, t, t', hi,
    inv_withBank hi .bank1 _ (by decide), rfl, rfl, rfl, by decide, ht, ht'⟩
theorem witness_FirstInitAllocatesAndSends : (1 : Chip).toNat < (chips 2).n ∧ (chips 2).inited = false := by decide
theorem witness_LaterInitOnlySendsFrames :
    ((3 : Chip).toNat < (ready .tall 4 0x5A).n ∧ (ready .tall 4 0x5A).inited = true) ∧
    (chips 3).n ≤ (3 : Chip).toNat ∧ (ready .tall 4 0x5A).Inv ∧ (ready .tall 4 0x5A).noneSelected ∧
    ∃ t, exec (.init 3 0x20 .wide) (ready .tall 4 0x5A) = .next t :=
  ⟨by decide, by decide, ready_bounds.1, ready_bounds.2.2.2, _, rfl⟩
theorem witness_ActionCounts :
    (∃ t, exec (.shift 0 1) (chips 2) = .next t) ∧ (∃ t, exec (.shift 0 16) (chips 2) = .next t) ∧
    (∃ t, exec (.select 1) (chips 2) = .next t) ∧ (∃ t, exec (.bright 1 15) (chips 2) = .next t) ∧
    (∃ t, exec (.wr 1 0 0) (chips 2) = .next t) ∧ (∃ t, exec (.swb 1 0) (chips 2) = .next t) ∧
    (∃ t, exec (.swn 0) (chips 2) = .next t) ∧ (∃ t, exec (.cclr 1) (chips 2) = .next t) ∧
    (∃ t, exec (.rdd 1 0) (chips 2) = .next t) ∧ (∃ t, exec .swap (ready .wide 1 0) = .next t) ∧
    ((ready .tall 4 0x5A).geom = some .tall ∧ ∃ t, exec .flush (ready .tall 4 0x5A) = .next t) ∧
    (∃ t, exec (.init 1 0 .wide) (chips 2) = .next t) :=
  ⟨⟨_, rfl⟩, ⟨_, rfl⟩, ⟨_, rfl⟩, ⟨_, rfl⟩, ⟨_, rfl⟩, ⟨_, rfl⟩, ⟨_, rfl⟩, ⟨_, rfl⟩, ⟨_, rfl⟩, ⟨_, rfl⟩,
    ⟨rfl, flush_completes _ _ _⟩, _, rfl⟩
theorem witness_BootClearsBothBanks :
    (Straps.legal { n := 1, hasRd := false }) ∧ (Straps.legal { n := 4, hasRd := true }) := by decide

theorem witness_NoStepFaults : ((ready .tall 4 0x5A).withFetchWord 32 0x30000000).Inv := inv_port ready_bounds.1 _
theorem witness_RefusedExactlyWhenTheRulesSay : (chips 2).Inv ∧ expectedRefusal (chips 2) .swap = some .notInitialised ∧
    expectedRefusal (chips 2) (.select 2) = some .chipOutOfRange ∧ expectedRefusal (chips 2) (.select 1) = none ∧
    expectedRefusal (chips 2) (.shift 0 0) = some .illegalOpWord ∧ expectedRefusal (chips 2) (.shift 0 16) = none ∧
    (ready .tall 4 0x5A).Inv ∧ expectedRefusal (ready .tall 4 0x5A) (.setbyte 192 0) = some .pokeOutOfRange ∧
    expectedRefusal (ready .tall 4 0x5A) (.setbyte 191 0) = none :=
  ⟨chip_bounds.2.2.1, by decide, by decide, by decide, by decide, by decide, ready_bounds.1, by decide, by decide⟩
theorem witness_CheckOrder : (chips 2).inited = false ∧ (chips 2).n ≤ (2 : Chip).toNat ∧ (1 : Chip).toNat < (chips 2).n := by
  decide
theorem witness_OnlyFlushDrivesLock : (∃ t, exec (.swn 0) (chips 1) = .next t) ∧ Instr.swn 0 ≠ .flush ∧
    ∃ t, exec .flush (ready .wide 1 0) = .next t := ⟨⟨_, rfl⟩, by decide, flush_completes _ _ _⟩
theorem witness_NoOperationConfiguresOrDrivesRd : (∃ t, exec (.swn 0) State.reset = .next t) ∧
    ∃ t, exec .flush (ready .wide 1 0) = .next t := ⟨⟨_, rfl⟩, flush_completes _ _ _⟩
theorem witness_WhoWritesWhat :
    ((ready .wide 1 0).inited = true ∧ ∃ t, exec (.getpx 0 0) (ready .wide 1 0) = .next t) ∧
    (∃ t, exec (.init 1 0 .wide) (chips 2) = .next t) ∧ (∃ t, exec .swap (ready .wide 1 0) = .next t) ∧
    ∃ t, exec (.rdd 1 0) (chips 2) = .next t :=
  ⟨⟨rfl, next_of (by decide)⟩, ⟨_, rfl⟩, ⟨_, rfl⟩, _, rfl⟩
theorem witness_LatchesReplayTheActions : (∃ t, exec (.cmd 1 9) (chips 2) = .next t) ∧
    ∃ t, exec .swap (ready .wide 1 0) = .next t := ⟨⟨_, rfl⟩, _, rfl⟩
theorem witness_FramesReleaseTheirChip : streaming.oneSelected ∧ streaming.lines.cs.length = streaming.n ∧
    (∃ t, exec (.cmd 1 9) streaming = .next t) ∧ (∃ t, exec (.swe 1) streaming = .next t) ∧
    (∀ c, Instr.swe 1 ≠ .select c) ∧ (∀ c a, Instr.swe 1 ≠ .swb c a) :=
  ⟨by decide, rfl, ⟨_, rfl⟩, ⟨_, rfl⟩, fun _ h => (nomatch h), fun _ _ h => (nomatch h)⟩

end Sys2Proof.Tests
end

section
/-! PROOFS. What the block can put on its lines (`00_scope.md` R9, `10_state.md` R12). The key relation is `Emits p s t`:
from `s` to `t` the trace grew by some actions, the latches performed exactly these, and each of them passes the test
`p`. It is reflexive and transitive, so each shared operation needs one lemma and each instruction is one line. -/

namespace Sys2Proof.Machine

/-! ## The relation -/

/-- The trace of `t` is that of `s` with some actions appended that all pass `p`, and the latches of `t` are those of
`s` with exactly these actions performed (R9, R12). -/
def Emits (p : Action → Bool) (s t : State) : Prop :=
  ∃ acts, t.trace = s.trace ++ acts ∧ t.lines = acts.foldl Lines.perform s.lines ∧ ∀ a ∈ acts, p a = true

/-- The actions of the serializer and the multiplexer: on `DATA`, `WR` and the select lines. -/
def Action.isSerial : Action → Bool
  | .set .data _ | .set .wr _ | .set (.cs _) _ => true
  | .set .rd _ | .set .lock _ | .cfgOut _ => false

/-- The actions an operation may perform: all but `cfg_out` and a drive of `RD`. -/
def Action.isOperational : Action → Bool
  | .set .data _ | .set .wr _ | .set (.cs _) _ | .set .lock _ => true
  | .set .rd _ | .cfgOut _ => false

theorem Action.isOperational_of_isSerial : ∀ {a : Action}, a.isSerial = true → a.isOperational = true
  | .set .data _, _ | .set .wr _, _ | .set (.cs _) _, _ => rfl

theorem Action.not_drives_rd_of_isOperational : ∀ {a : Action}, a.isOperational = true → a.drives .rd = false
  | .set .data _, _ | .set .wr _, _ | .set (.cs _) _, _ | .set .lock _, _ => rfl

theorem Action.ne_cfgOut_of_isOperational {a : Action} (h : a.isOperational = true) (l : Line) : a ≠ .cfgOut l := by
  rintro rfl
  cases h

section

variable {p : Action → Bool} {s t u : State}

/-- An update that leaves trace and latches alone emits nothing. -/
theorem Emits.of_same_wire (ht : t.trace = s.trace) (hl : t.lines = s.lines) : Emits p s t :=
  ⟨[], by simpa using ht, by simpa using hl, by simp⟩

theorem Emits.refl (p : Action → Bool) (s : State) : Emits p s s := .of_same_wire rfl rfl

theorem Emits.trans (h : Emits p s t) (h' : Emits p t u) : Emits p s u := by
  obtain ⟨acts, htrace, hlines, hp⟩ := h
  obtain ⟨acts', htrace', hlines', hp'⟩ := h'
  refine ⟨acts ++ acts', by rw [htrace', htrace, List.append_assoc], by rw [hlines', hlines, List.foldl_append], ?_⟩
  exact List.forall_mem_append.2 ⟨hp, hp'⟩

theorem Emits.mono {q : Action → Bool} (hpq : ∀ {a : Action}, p a = true → q a = true) (h : Emits p s t) :
    Emits q s t := by
  obtain ⟨acts, htrace, hlines, hp⟩ := h
  exact ⟨acts, htrace, hlines, fun a ha => hpq (hp a ha)⟩

theorem setLine_emits (l : Line) (v : Level) (s : State) (h : p (.set l v) = true) : Emits p s (setLine l v s) :=
  ⟨[.set l v], rfl, rfl, by simpa using h⟩

/-! ## The shared operations of the wire side -/

theorem emitBit_emits (b : Bool) (s : State) : Emits Action.isSerial s (emitBit b s) :=
  ((setLine_emits .wr false s rfl).trans (setLine_emits .data b _ rfl)).trans (setLine_emits .wr true _ rfl)

theorem shiftLoop_emits (fuel : Nat) : ∀ s : State, Emits Action.isSerial s (shiftLoop fuel s) := by
  induction fuel with
  | zero => exact .refl _
  | succ fuel ih =>
    intro s
    rw [shiftLoop]
    split
    · exact .refl _ _
    · exact (emitBit_emits _ s).trans (.trans (.of_same_wire rfl rfl) (ih _))

/-- Loading `SR` emits nothing, the loop of R101 emits bits. -/
theorem shiftOut_emits (value : SerWord) (k : Nat) (s : State) : Emits Action.isSerial s (shiftOut value k s) :=
  .trans (.of_same_wire rfl rfl) (shiftLoop_emits 16 _)

theorem shiftField_emits {w : Nat} (v : BitVec w) (k : Nat) (s : State) :
    Emits Action.isSerial s (shiftField v k s) :=
  shiftOut_emits _ k s

theorem selectChip_emits (chip : Chip) (s : State) : Emits Action.isSerial s (selectChip chip s) :=
  setLine_emits _ _ s rfl

theorem releaseChip_emits (chip : Chip) (s : State) : Emits Action.isSerial s (releaseChip chip s) :=
  setLine_emits _ _ s rfl

theorem shiftCommand_emits (code : Byte) (s : State) : Emits Action.isSerial s (shiftCommand code s) :=
  ((shiftField_emits _ _ s).trans (shiftField_emits _ _ _)).trans (shiftField_emits _ _ _)

theorem shiftWriteHead_emits {w : Nat} (addr : BitVec w) (s : State) :
    Emits Action.isSerial s (shiftWriteHead addr s) :=
  (shiftField_emits _ _ s).trans (shiftField_emits _ _ _)

theorem shiftNibble_emits (nib : Nibble) (s : State) : Emits Action.isSerial s (shiftNibble nib s) :=
  shiftField_emits _ _ s

theorem beginStream_emits (chip : Chip) (addr : Byte) (s : State) : Emits Action.isSerial s (beginStream chip addr s) :=
  (selectChip_emits chip s).trans (shiftWriteHead_emits addr _)

theorem sendCommand_emits (chip : Chip) (code : Byte) (s : State) : Emits Action.isSerial s (sendCommand chip code s) :=
  ((selectChip_emits chip s).trans (shiftCommand_emits code _)).trans (releaseChip_emits chip _)

theorem sendWrite_emits (chip : Chip) (addr : Byte) (nib : Nibble) (s : State) :
    Emits Action.isSerial s (sendWrite chip addr nib s) :=
  ((beginStream_emits chip addr s).trans (shiftNibble_emits nib _)).trans (releaseChip_emits chip _)

theorem sendCommands_emits (chip : Chip) (codes : List Byte) :
    ∀ s : State, Emits Action.isSerial s (sendCommands chip codes s) := by
  induction codes with
  | nil => exact .refl _
  | cons code rest ih => exact fun s => (sendCommand_emits chip code s).trans (ih _)

theorem clearAddresses_emits (chip : Chip) (as : List Nat) :
    ∀ s : State, Emits Action.isSerial s (clearAddresses chip as s) := by
  induction as with
  | nil => exact .refl _
  | cons a rest ih => exact fun s => (sendWrite_emits chip _ 0 s).trans (ih _)

theorem clearChip_emits (chip : Chip) (s : State) : Emits Action.isSerial s (clearChip chip s) :=
  clearAddresses_emits chip _ s

theorem streamBytes_emits (as : List Nat) :
    ∀ {s t : State}, streamBytes as s = .next t → Emits Action.isSerial s t := by
  induction as with
  | nil =>
    intro s t h
    cases h
    exact .refl _ _
  | cons a rest ih =>
    intro s t h
    obtain ⟨b, -, h⟩ := withByte_next h
    exact ((shiftNibble_emits _ s).trans (shiftNibble_emits _ _)).trans (ih h)

/-! ## The banks, and the checks -/

theorem withBank_emits (s : State) (b : Bank) (m : Memory) : Emits p s (s.withBank b m) :=
  .of_same_wire (withBank_trace s b m) (withBank_lines s b m)

theorem allocate_emits (g : Geometry) (s : State) : Emits p s (allocate g s) := by
  unfold allocate
  split
  · exact .refl _ _
  · exact .of_same_wire rfl rfl

theorem updatePixel_emits {f : Byte → Int → Byte} {x y : Int} (h : updatePixel f x y s = .next t) : Emits p s t := by
  obtain ⟨-, g, -, ⟨-, rfl⟩ | ⟨-, b, -, rfl⟩⟩ := updatePixel_next h
  · exact .refl _ _
  · exact withBank_emits _ _ _

theorem fillBank_emits {v : Byte} (h : fillBank v s = .next t) : Emits p s t := by
  obtain ⟨-, h⟩ := ifInited_next h
  obtain ⟨g, -, h⟩ := withGeometry_next h
  obtain ⟨m, rfl, -, -⟩ := writeAll_next h
  exact withBank_emits _ _ _

/-- An operation with a chip operand that completes emits what its meaning emits (R105). -/
theorem emits_of_ifChip {chip : Chip} (h : ifChip chip s (.next u) = .next t) (hu : Emits p s u) : Emits p s t := by
  obtain ⟨-, h⟩ := ifChip_next h
  cases h
  exact hu

/-- An operation that needs `INITED = 1` and completes emits what its meaning emits (R150). -/
theorem emits_of_ifInited (h : ifInited s (.next u) = .next t) (hu : Emits p s u) : Emits p s t := by
  obtain ⟨-, h⟩ := ifInited_next h
  cases h
  exact hu

/-! ## The operations -/

theorem execShift_emits {value : SerWord} {k : Nat} (h : execShift value k s = .next t) :
    Emits Action.isSerial s t := by
  unfold execShift at h
  split at h
  · cases h
    exact shiftOut_emits value k s
  · cases h

theorem execGetpx_emits {x y : Int} (h : execGetpx x y s = .next t) : Emits p s t := by
  obtain ⟨-, h⟩ := ifInited_next h
  obtain ⟨g, -, h⟩ := withGeometry_next h
  split at h
  · obtain ⟨b, -, h⟩ := withByte_next h
    cases h
    exact .of_same_wire rfl rfl
  · cases h
    exact .of_same_wire rfl rfl

theorem execDrawpx_emits {x y : Int} {color : Byte} (h : execDrawpx x y color s = .next t) : Emits p s t := by
  unfold execDrawpx at h
  split at h <;> exact updatePixel_emits h

theorem execSetbyte_emits {addr val : Byte} (h : execSetbyte addr val s = .next t) : Emits p s t := by
  obtain ⟨-, h⟩ := ifInited_next h
  obtain ⟨g, -, h⟩ := withGeometry_next h
  split at h
  · obtain ⟨-, rfl⟩ := memWrite_next h
    exact withBank_emits _ _ _
  · cases h

/-- A `FLUSH` that completes raises `LOCK`, does serial actions, and drops `LOCK` (R180, R182). -/
theorem execFlush_emits (h : execFlush s = .next t) :
    ∃ u, Emits Action.isSerial (setLine .lock true s) u ∧ t = setLine .lock false u := by
  obtain ⟨-, h⟩ := ifInited_next h
  obtain ⟨g, -, h⟩ := withGeometry_next h
  split at h
  · rename_i u hu
    cases h
    have hframe := ((beginStream_emits 0 0 _).trans (streamBytes_emits _ hu)).trans (releaseChip_emits 0 u)
    exact ⟨releaseChip 0 u, hframe, rfl⟩
  · cases h
  · cases h

/-- Every operation but `FLUSH` drives `DATA`, `WR` and the select lines at most. -/
theorem exec_emits_serial {i : Instr} (hi : i ≠ .flush) (h : exec i s = .next t) : Emits Action.isSerial s t := by
  cases i with
  | shift value k => exact execShift_emits h
  | select chip => exact emits_of_ifChip h (selectChip_emits chip s)
  | release chip => exact emits_of_ifChip h (releaseChip_emits chip s)
  | cmd chip code => exact emits_of_ifChip h (sendCommand_emits chip code s)
  | wr chip addr nib => exact emits_of_ifChip h (sendWrite_emits chip addr nib s)
  | swb chip addr => exact emits_of_ifChip h (beginStream_emits chip addr s)
  | swn nib => cases h; exact shiftNibble_emits nib s
  | swe chip => exact emits_of_ifChip h (releaseChip_emits chip s)
  | bright chip level => exact emits_of_ifChip h (sendCommand_emits chip _ s)
  | blink chip on => exact emits_of_ifChip h (sendCommand_emits chip _ s)
  | cclr chip => exact emits_of_ifChip h (clearChip_emits chip s)
  | rdd chip addr => exact emits_of_ifChip h (.of_same_wire rfl rfl)
  | setpx x y => exact updatePixel_emits h
  | clrpx x y => exact updatePixel_emits h
  | drawpx x y color => exact execDrawpx_emits h
  | getpx x y => exact execGetpx_emits h
  | cls => exact fillBank_emits h
  | fills => exact fillBank_emits h
  | setbyte addr val => exact execSetbyte_emits h
  | setact idx => exact emits_of_ifInited h (.of_same_wire rfl rfl)
  | swap => exact emits_of_ifInited h (.of_same_wire rfl rfl)
  | flush => exact absurd rfl hi
  | init chip mode geom =>
    exact emits_of_ifChip h
      (((allocate_emits geom s).trans (sendCommands_emits chip _ _)).trans (clearChip_emits chip _))
  | frameCommand code => cases h; exact shiftCommand_emits code s
  | frameWrite addr nib => cases h; exact (shiftWriteHead_emits addr s).trans (shiftNibble_emits nib _)
  | frameSuccessiveHead addr => cases h; exact shiftWriteHead_emits addr s

/-- No operation performs `cfg_out` or drives `RD`; the latches follow the trace (R9, R12). -/
theorem exec_emits {i : Instr} (h : exec i s = .next t) : Emits Action.isOperational s t := by
  by_cases hi : i = .flush
  · subst hi
    obtain ⟨u, hu, rfl⟩ := execFlush_emits h
    exact ((setLine_emits .lock true s rfl).trans (hu.mono Action.isOperational_of_isSerial)).trans
      (setLine_emits .lock false u rfl)
  · exact (exec_emits_serial hi h).mono Action.isOperational_of_isSerial

end

/-- Settles O55: the new actions are those of `exec_emits`, and an operational action is no `cfg_out` and no drive of
`RD`. -/
theorem noOperationConfiguresOrDrivesRd : Obligations.NoOperationConfiguresOrDrivesRd := by
  intro i s t h
  obtain ⟨acts, htrace, -, hacts⟩ := exec_emits h
  exact ⟨acts, htrace, fun a ha =>
    ⟨Action.not_drives_rd_of_isOperational (hacts a ha), Action.ne_cfgOut_of_isOperational (hacts a ha)⟩⟩

/-- Settles O57: the same new actions, and the latches performed exactly them. -/
theorem latchesReplayTheActions : Obligations.LatchesReplayTheActions := by
  intro i s t h
  obtain ⟨acts, htrace, hlines, -⟩ := exec_emits h
  exact ⟨acts, htrace, hlines⟩

end Sys2Proof.Machine
end

section
/-! PROOFS. The constants of the geometries (`00_scope.md` R5). -/

namespace Sys2Proof

/-- A module is `Hm` rows of `STRIDE` bytes, with no bit left over (R5). -/
theorem Geometry.bytesPerModule_eq_stride_mul (g : Geometry) : g.bytesPerModule = g.stride * g.moduleHeight := by
  cases g <;> rfl

/-- `S = STRIDE·H`, what R5 infers from `S = BPM·N`. -/
theorem Geometry.bankSize_eq_stride_mul_height (g : Geometry) (n : Nat) : g.bankSize n = g.stride * g.height n := by
  rw [Geometry.bankSize, Geometry.height, g.bytesPerModule_eq_stride_mul, Nat.mul_assoc]

theorem Geometry.bytesPerModule_bounds (g : Geometry) : 32 ≤ g.bytesPerModule ∧ g.bytesPerModule ≤ 48 := by
  cases g <;> decide

/-- The smallest bank is one WIDE module, the largest four TALL ones. -/
theorem Geometry.bankSize_bounds (g : Geometry) {n : Nat} (h1 : 1 ≤ n) (h4 : n ≤ 4) :
    32 ≤ g.bankSize n ∧ g.bankSize n ≤ 192 := by
  obtain ⟨hlow, hhigh⟩ := g.bytesPerModule_bounds
  exact ⟨Nat.mul_le_mul hlow h1, Nat.mul_le_mul hhigh h4⟩

/-- Settles O31: the table of R5 by the definitions, `S = STRIDE·H` and the bounds by the lemmas above. -/
theorem geometryConstants : Obligations.GeometryConstants :=
  ⟨⟨rfl, rfl, rfl⟩, ⟨rfl, rfl, rfl⟩, fun _ => ⟨rfl, rfl, rfl, rfl⟩, fun _ => ⟨rfl, rfl, rfl, rfl⟩,
    Geometry.bankSize_eq_stride_mul_height, fun g _ => g.bankSize_bounds⟩

end Sys2Proof
end

section
/-! PROOFS. What an instruction can do to the state, said once. `WireOnly s t`: from `s` to `t` only the wire side changed,
by drives of lines that exist. `Effect s i t` lists everything a completed instruction `i` can have done; who writes what
(`10_state.md` R11 to R19), the canonical form of the banks and the invariant of R23 are read off it. -/

namespace Sys2Proof

/-- The two operations that hand a response to the host (R19). -/
def Instr.responds : Instr → Bool
  | .getpx _ _ | .rdd _ _ => true
  | _ => false

namespace Machine

/-! ## Actions that leave a line alone -/

theorem lastLevel_eq_none {l : Line} {acts : List Action} (h : ∀ a ∈ acts, a.drives l = false) :
    lastLevel l acts = none := by
  induction acts with
  | nil => rfl
  | cons a rest ih =>
    obtain ⟨ha, hrest⟩ := List.forall_mem_cons.1 h
    cases a with
    | cfgOut l' => exact ih hrest
    | set l' v =>
      have hne : l' ≠ l := by simpa [Action.drives] using ha
      simp [lastLevel, ih hrest, hne]

/-- A line that none of the new actions drives keeps its level (R12). -/
theorem Emits.level_eq {p : Action → Bool} {s t : State} {l : Line} (h : Emits p s t)
    (hp : ∀ a, p a = true → a.drives l = false) : t.lines.level l = s.lines.level l := by
  obtain ⟨acts, -, hlines, hacts⟩ := h
  rw [hlines, level_replay, lastLevel_eq_none fun a ha => hp a (hacts a ha)]
  simp

theorem Action.not_drives_lock_of_isSerial : ∀ a : Action, a.isSerial = true → a.drives .lock = false
  | .set .data _, _ | .set .wr _, _ | .set (.cs _) _, _ => rfl

/-- `LOCK` is low after every operation that found it low (R23 (g), R182). -/
theorem exec_lock_low {i : Instr} {s t : State} (h : exec i s = .next t) (hs : s.lines.lock = false) :
    t.lines.lock = false := by
  by_cases hi : i = .flush
  · subst hi
    obtain ⟨u, -, rfl⟩ := execFlush_emits h
    rfl
  · have hlevel := (exec_emits_serial hi h).level_eq Action.not_drives_lock_of_isSerial
    exact (Option.some.inj hlevel).trans hs

/-! ## Updates of the wire side -/

/-- A drive of a line of a block with `n` chips, not of `RD`. `CS0` counts as a line for every `n`: `FLUSH` drives it
with no check, "since `0 < N` always" (R180). -/
def Action.onLines (n : Nat) : Action → Bool
  | .set .data _ | .set .wr _ | .set .lock _ => true
  | .set (.cs i) _ => decide (i = 0 ∨ i < n)
  | .set .rd _ | .cfgOut _ => false

theorem Action.not_drives_rd_of_onLines (n : Nat) : ∀ a : Action, a.onLines n = true → a.drives .rd = false
  | .set .data _, _ | .set .wr _, _ | .set (.cs _) _, _ | .set .lock _, _ => rfl

/-- Only `LINE`, `SR` and `T` change, by drives of lines that exist; `WR` comes to rest high and `SR.mask` at 0 (R101). -/
structure WireOnly (s t : State) : Prop where
  frame : s.sameButWire t
  emits : Emits (Action.onLines s.n) s t
  wr_high : s.lines.wr = true → t.lines.wr = true
  mask_zero : s.srMask = 0 → t.srMask = 0

section

variable {s t u : State}

theorem State.sameButWire.n_eq (h : s.sameButWire t) : t.n = s.n := (congrArg State.n h :)
theorem State.sameButWire.hasRd_eq (h : s.sameButWire t) : t.hasRd = s.hasRd := (congrArg State.hasRd h :)
theorem State.sameButWire.inited_eq (h : s.sameButWire t) : t.inited = s.inited := (congrArg State.inited h :)
theorem State.sameButWire.geom_eq (h : s.sameButWire t) : t.geom = s.geom := (congrArg State.geom h :)
theorem State.sameButWire.fb0_eq (h : s.sameButWire t) : t.fb0 = s.fb0 := (congrArg State.fb0 h :)
theorem State.sameButWire.fb1_eq (h : s.sameButWire t) : t.fb1 = s.fb1 := (congrArg State.fb1 h :)
theorem State.sameButWire.act_eq (h : s.sameButWire t) : t.act = s.act := (congrArg State.act h :)
theorem State.sameButWire.responses_eq (h : s.sameButWire t) : t.responses = s.responses :=
  (congrArg State.responses h :)
theorem State.sameButWire.port_eq (h : s.sameButWire t) : t.port = s.port := (congrArg State.port h :)

theorem State.sameButWire.trans (h : s.sameButWire t) (h' : t.sameButWire u) : s.sameButWire u :=
  (congrArg (fun x : State =>
    { x with lines := s.lines, srVal := s.srVal, srMask := s.srMask, trace := s.trace }) h' :).trans h

theorem WireOnly.refl (s : State) : WireOnly s s := ⟨rfl, .refl _ s, id, id⟩

theorem WireOnly.trans (h : WireOnly s t) (h' : WireOnly t u) : WireOnly s u :=
  ⟨h.frame.trans h'.frame, h.emits.trans (h.frame.n_eq ▸ h'.emits), h'.wr_high ∘ h.wr_high,
    h'.mask_zero ∘ h.mask_zero⟩

theorem setLock_wireOnly (v : Level) (s : State) : WireOnly s (setLine .lock v s) :=
  ⟨rfl, setLine_emits _ _ s rfl, id, id⟩

/-! ## The serializer and the multiplexer -/

theorem msbFirst_getLastD {w k : Nat} (v : BitVec w) (hk : 1 ≤ k) (d : Bool) :
    (msbFirst v k).getLastD d = v.getLsbD 0 := by
  induction k, hk using Nat.le_induction generalizing d with
  | base => rfl
  | succ k _ ih => rw [msbFirst, List.getLastD_cons, ih]

theorem onLines_of_mem_bitActions {n : Nat} {bits : List Bool} {a : Action} (h : a ∈ bitActions bits) :
    a.onLines n = true := by
  obtain ⟨b, -, hb⟩ := List.mem_flatMap.1 h
  simp only [List.mem_cons, List.not_mem_nil, or_false] at hb
  obtain rfl | rfl | rfl := hb <;> rfl

theorem afterBits_wireOnly (s : State) (v : SerWord) {bits : List Bool} (h : bits ≠ []) :
    WireOnly s (s.afterBits v bits (bits.getLastD false)) :=
  ⟨rfl, ⟨bitActions bits, rfl, by rw [perform_bits, if_neg h]; rfl, fun _ => onLines_of_mem_bitActions⟩,
    fun _ => rfl, fun _ => rfl⟩

theorem shiftOut_wireOnly (value : SerWord) {k : Nat} (h : 1 ≤ k) (h16 : k ≤ 16) (s : State) :
    WireOnly s (shiftOut value k s) := by
  have hne : msbFirst value k ≠ [] := List.ne_nil_of_length_pos (by rw [msbFirst_length]; exact h)
  rw [shiftOut_eq value k h h16, ← msbFirst_getLastD value h false]
  exact afterBits_wireOnly s value hne

theorem shiftField_wireOnly {w : Nat} (v : BitVec w) {k : Nat} (h : 1 ≤ k) (h16 : k ≤ 16) (s : State) :
    WireOnly s (shiftField v k s) :=
  shiftOut_wireOnly _ h h16 s

theorem shiftCommand_wireOnly (code : Byte) (s : State) : WireOnly s (shiftCommand code s) :=
  ((shiftField_wireOnly _ (by decide) (by decide) s).trans (shiftField_wireOnly _ (by decide) (by decide) _)).trans
    (shiftField_wireOnly _ (by decide) (by decide) _)

theorem shiftWriteHead_wireOnly {w : Nat} (addr : BitVec w) (s : State) : WireOnly s (shiftWriteHead addr s) :=
  (shiftField_wireOnly _ (by decide) (by decide) s).trans (shiftField_wireOnly _ (by decide) (by decide) _)

theorem shiftNibble_wireOnly (nib : Nibble) (s : State) : WireOnly s (shiftNibble nib s) :=
  shiftField_wireOnly _ (by decide) (by decide) s

/-- The select line of the chip exists: the chip passes the check of R105, or it is chip 0, which `FLUSH` takes with no
check. -/
def State.HasChip (s : State) (chip : Chip) : Prop := chip.toNat = 0 ∨ chip.toNat < s.n

theorem WireOnly.hasChip {chip : Chip} (h : WireOnly s t) (hc : s.HasChip chip) : t.HasChip chip := by
  rwa [State.HasChip, h.frame.n_eq]

/-- A drive of the select line of a chip that exists (R102, R103). -/
theorem setSelect_wireOnly {chip : Chip} (v : Level) (hc : s.HasChip chip) :
    WireOnly s (setLine (.cs chip.toNat) v s) :=
  ⟨rfl, setLine_emits _ _ s (decide_eq_true hc), id, id⟩

/-- Select, anything on the wire, release: the shape of a frame (R70). -/
theorem WireOnly.framed {chip : Chip} (hc : s.HasChip chip) (h : WireOnly (selectChip chip s) u) :
    WireOnly s (releaseChip chip u) :=
  have hu : WireOnly s u := (setSelect_wireOnly false hc).trans h
  hu.trans (setSelect_wireOnly true (hu.hasChip hc))

/-! ## Frames -/

theorem beginStream_wireOnly {chip : Chip} (hc : s.HasChip chip) (addr : Byte) :
    WireOnly s (beginStream chip addr s) :=
  (setSelect_wireOnly false hc).trans (shiftWriteHead_wireOnly addr _)

theorem sendCommand_wireOnly {chip : Chip} (hc : s.HasChip chip) (code : Byte) :
    WireOnly s (sendCommand chip code s) :=
  .framed hc (shiftCommand_wireOnly code _)

theorem sendWrite_wireOnly {chip : Chip} (hc : s.HasChip chip) (addr : Byte) (nib : Nibble) :
    WireOnly s (sendWrite chip addr nib s) :=
  .framed hc ((shiftWriteHead_wireOnly addr _).trans (shiftNibble_wireOnly nib _))

theorem sendCommands_wireOnly {chip : Chip} (codes : List Byte) :
    ∀ {s : State}, s.HasChip chip → WireOnly s (sendCommands chip codes s) := by
  induction codes with
  | nil => exact fun _ => .refl _
  | cons code rest ih =>
    intro s hc
    have h := sendCommand_wireOnly hc code
    exact h.trans (ih (h.hasChip hc))

theorem clearAddresses_wireOnly {chip : Chip} (as : List Nat) :
    ∀ {s : State}, s.HasChip chip → WireOnly s (clearAddresses chip as s) := by
  induction as with
  | nil => exact fun _ => .refl _
  | cons a rest ih =>
    intro s hc
    have h := sendWrite_wireOnly hc (BitVec.ofNat 8 a) 0
    exact h.trans (ih (h.hasChip hc))

theorem clearChip_wireOnly {chip : Chip} (hc : s.HasChip chip) : WireOnly s (clearChip chip s) :=
  clearAddresses_wireOnly _ hc

theorem streamBytes_wireOnly (as : List Nat) : ∀ {s t : State}, streamBytes as s = .next t → WireOnly s t := by
  induction as with
  | nil =>
    intro s t h
    cases h
    exact .refl _
  | cons a rest ih =>
    intro s t h
    obtain ⟨b, -, h⟩ := withByte_next h
    exact ((shiftNibble_wireOnly _ s).trans (shiftNibble_wireOnly _ _)).trans (ih h)

/-- `FLUSH`: one frame to chip 0 between the two drives of `LOCK` (R180). -/
theorem execFlush_wireOnly (h : execFlush s = .next t) : WireOnly s t := by
  obtain ⟨-, h⟩ := ifInited_next h
  obtain ⟨g, -, h⟩ := withGeometry_next h
  split at h
  · rename_i u hu
    cases h
    have hframe : WireOnly (setLine .lock true s) (releaseChip 0 u) :=
      .framed (.inl rfl) ((shiftWriteHead_wireOnly _ _).trans (streamBytes_wireOnly _ hu))
    exact ((setLock_wireOnly true s).trans hframe).trans (setLock_wireOnly false _)
  · cases h
  · cases h

/-! ## The allocation of the first `INIT` -/

@[simp] theorem allocate_n (g : Geometry) (s : State) : (allocate g s).n = s.n := by unfold allocate; split <;> rfl
@[simp] theorem allocate_hasRd (g : Geometry) (s : State) : (allocate g s).hasRd = s.hasRd := by
  unfold allocate; split <;> rfl
@[simp] theorem allocate_act (g : Geometry) (s : State) : (allocate g s).act = s.act := by
  unfold allocate; split <;> rfl
@[simp] theorem allocate_responses (g : Geometry) (s : State) : (allocate g s).responses = s.responses := by
  unfold allocate; split <;> rfl
@[simp] theorem allocate_port (g : Geometry) (s : State) : (allocate g s).port = s.port := by
  unfold allocate; split <;> rfl

/-- A later `INIT` allocates nothing (R183). -/
theorem allocate_of_inited {g : Geometry} {s : State} (h : s.inited = true) : allocate g s = s := if_pos h

/-! ## Everything a completed instruction can have done -/

/-- Everything an instruction that completes can have done: an update of the wire side, the same after the allocation of
an `INIT`, bytes of the active bank, one response of 0 or 1, or another active bank. -/
inductive Effect (s : State) : Instr → State → Prop
  | wire {i : Instr} {t : State} (hi : i.responds = false) (h : WireOnly s t) : Effect s i t
  | init {chip : Chip} {mode : Byte} {g : Geometry} {t : State} (h : WireOnly (allocate g s) t) :
      Effect s (.init chip mode g) t
  | write {i : Instr} {m : Memory} (hi : i.responds = false) (hm : m.addresses = (s.bank s.act).addresses) :
      Effect s i (s.withBank s.act m)
  | respond {i : Instr} {v : Nat} (hi : i.responds = true) (hv : v = 0 ∨ v = 1) : Effect s i (respond v s)
  | activate {i : Instr} {b : Bank} (hi : (∃ b, i = .setact b) ∨ i = .swap) : Effect s i { s with act := b }

variable {i : Instr}

/-- An operation with a chip operand that completes had a chip in range (R105). -/
theorem effect_of_ifChip {chip : Chip} (h : ifChip chip s (.next u) = .next t)
    (hu : s.HasChip chip → Effect s i u) : Effect s i t := by
  obtain ⟨hc, h⟩ := ifChip_next h
  cases h
  exact hu (.inr hc)

theorem effect_of_ifInited (h : ifInited s (.next u) = .next t) (hu : Effect s i u) : Effect s i t := by
  obtain ⟨-, h⟩ := ifInited_next h
  cases h
  exact hu

theorem effect_of_updatePixel {f : Byte → Int → Byte} {x y : Int} (hi : i.responds = false)
    (h : updatePixel f x y s = .next t) : Effect s i t := by
  obtain ⟨-, g, -, ⟨-, rfl⟩ | ⟨-, b, -, rfl⟩⟩ := updatePixel_next h
  · exact .wire hi (.refl _)
  · exact .write hi (write_addresses _ _ _)

theorem effect_of_execDrawpx {x y : Int} {color : Byte} (hi : i.responds = false)
    (h : execDrawpx x y color s = .next t) : Effect s i t := by
  unfold execDrawpx at h
  split at h <;> exact effect_of_updatePixel hi h

theorem effect_of_fillBank {v : Byte} (hi : i.responds = false) (h : fillBank v s = .next t) : Effect s i t := by
  obtain ⟨-, h⟩ := ifInited_next h
  obtain ⟨g, -, h⟩ := withGeometry_next h
  obtain ⟨m, rfl, hm, -⟩ := writeAll_next h
  exact .write hi hm

theorem effect_of_execShift {value : SerWord} {k : Nat} (hi : i.responds = false) (h : execShift value k s = .next t) :
    Effect s i t := by
  unfold execShift at h
  split at h
  · rename_i hk
    cases h
    simp only [countFits, Bool.and_eq_true, decide_eq_true_eq] at hk
    obtain ⟨h1, h16⟩ := hk
    exact .wire hi (shiftOut_wireOnly value h1 h16 s)
  · cases h

theorem testPixelBit_eq_zero_or_one (b : Byte) (x : Int) : testPixelBit b x = 0 ∨ testPixelBit b x = 1 := by
  rw [testPixelBit_eq]
  split
  · exact .inr rfl
  · exact .inl rfl

theorem effect_of_execGetpx {x y : Int} (h : execGetpx x y s = .next t) : Effect s (.getpx x y) t := by
  obtain ⟨-, h⟩ := ifInited_next h
  obtain ⟨g, -, h⟩ := withGeometry_next h
  split at h
  · obtain ⟨b, -, h⟩ := withByte_next h
    cases h
    exact .respond rfl (testPixelBit_eq_zero_or_one b x)
  · cases h
    exact .respond rfl (.inl rfl)

theorem effect_of_execSetbyte {addr val : Byte} (hi : i.responds = false) (h : execSetbyte addr val s = .next t) :
    Effect s i t := by
  obtain ⟨-, h⟩ := ifInited_next h
  obtain ⟨g, -, h⟩ := withGeometry_next h
  split at h
  · obtain ⟨-, rfl⟩ := memWrite_next h
    exact .write hi (write_addresses _ _ _)
  · cases h

/-- The effect of each instruction, read off its meaning. -/
theorem exec_effect (h : exec i s = .next t) : Effect s i t := by
  cases i with
  | shift value k => exact effect_of_execShift rfl h
  | select chip => exact effect_of_ifChip h fun hc => .wire rfl (setSelect_wireOnly false hc)
  | release chip => exact effect_of_ifChip h fun hc => .wire rfl (setSelect_wireOnly true hc)
  | cmd chip code => exact effect_of_ifChip h fun hc => .wire rfl (sendCommand_wireOnly hc code)
  | wr chip addr nib => exact effect_of_ifChip h fun hc => .wire rfl (sendWrite_wireOnly hc addr nib)
  | swb chip addr => exact effect_of_ifChip h fun hc => .wire rfl (beginStream_wireOnly hc addr)
  | swn nib => cases h; exact .wire rfl (shiftNibble_wireOnly nib s)
  | swe chip => exact effect_of_ifChip h fun hc => .wire rfl (setSelect_wireOnly true hc)
  | bright chip level => exact effect_of_ifChip h fun hc => .wire rfl (sendCommand_wireOnly hc _)
  | blink chip on => exact effect_of_ifChip h fun hc => .wire rfl (sendCommand_wireOnly hc _)
  | cclr chip => exact effect_of_ifChip h fun hc => .wire rfl (clearChip_wireOnly hc)
  | rdd chip addr => exact effect_of_ifChip h fun _ => .respond rfl (.inl rfl)
  | setpx x y => exact effect_of_updatePixel rfl h
  | clrpx x y => exact effect_of_updatePixel rfl h
  | drawpx x y color => exact effect_of_execDrawpx rfl h
  | getpx x y => exact effect_of_execGetpx h
  | cls => exact effect_of_fillBank rfl h
  | fills => exact effect_of_fillBank rfl h
  | setbyte addr val => exact effect_of_execSetbyte rfl h
  | setact idx => exact effect_of_ifInited h (.activate (.inl ⟨idx, rfl⟩))
  | swap => exact effect_of_ifInited h (.activate (.inr rfl))
  | flush => exact .wire rfl (execFlush_wireOnly h)
  | init chip mode geom =>
    refine effect_of_ifChip h fun hc => .init ?_
    have hc' : (allocate geom s).HasChip chip := by rwa [State.HasChip, allocate_n]
    have hcommands := sendCommands_wireOnly (Config.initCmds mode) hc'
    exact hcommands.trans (clearChip_wireOnly (hcommands.hasChip hc'))
  | frameCommand code => cases h; exact .wire rfl (shiftCommand_wireOnly code s)
  | frameWrite addr nib => cases h; exact .wire rfl ((shiftWriteHead_wireOnly addr s).trans (shiftNibble_wireOnly nib _))
  | frameSuccessiveHead addr => cases h; exact .wire rfl (shiftWriteHead_wireOnly addr s)

end

end Machine

end Sys2Proof
end

section
/-! PROOFS. Who writes what (`10_state.md` R11 to R19), the canonical form of the banks (R41), and the invariant of R23:
it holds at reset, every step keeps it, so it holds in every reachable state. -/

namespace Sys2Proof.Machine

/-! ## The banks -/

theorem allocate_wf (g : Geometry) {s : State} (h : s.fb0.wf ∧ s.fb1.wf) :
    (allocate g s).fb0.wf ∧ (allocate g s).fb1.wf := by
  unfold allocate
  split
  · exact h
  · exact ⟨drawBank_wf _ _ _, drawBank_wf _ _ _⟩

/-- A property of each bank survives the replacement of one bank by memory that has it. -/
theorem forall_bank_withBank {P : Memory → Prop} {s : State} {b : Bank} {m : Memory} (h : P s.fb0 ∧ P s.fb1)
    (hm : P (s.bank b) → P m) : P (s.withBank b m).fb0 ∧ P (s.withBank b m).fb1 := by
  obtain ⟨h0, h1⟩ := h
  cases b with
  | bank0 => exact ⟨hm h0, h1⟩
  | bank1 => exact ⟨h0, hm h1⟩

theorem wf_congr {m m' : Memory} (h : m.addresses = m'.addresses) (h' : m'.wf) : m.wf := by
  rw [Memory.wf, show m.map Prod.fst = m'.map Prod.fst from h]
  exact h'

/-- Settles O7: of the effects only an allocation and a write touch a bank, the one draws canonical banks, the other
keeps the addresses. -/
theorem everyInstructionKeepsBanksCanonical : Obligations.EveryInstructionKeepsBanksCanonical := by
  intro i s t h hwf
  cases exec_effect h with
  | wire hi hw => rwa [hw.frame.fb0_eq, hw.frame.fb1_eq]
  | init hw => rw [hw.frame.fb0_eq, hw.frame.fb1_eq]; exact allocate_wf _ hwf
  | write hi hm => exact forall_bank_withBank (P := Memory.wf) hwf (wf_congr hm)
  | respond hi hv => exact hwf
  | activate hi => exact hwf

/-! ## Who writes what -/

theorem responds_iff {i : Instr} : i.responds = true ↔ (∃ c a, i = .rdd c a) ∨ ∃ x y, i = .getpx x y := by
  cases i <;> simp [Instr.responds]

/-- Settles O56: one look at each effect. -/
theorem whoWritesWhat : Obligations.WhoWritesWhat := by
  intro i s t h
  rw [← responds_iff]
  cases exec_effect h with
  | wire hi hw =>
    have f := hw.frame
    simp [f.n_eq, f.hasRd_eq, f.port_eq, f.inited_eq, f.geom_eq, f.act_eq, f.responses_eq, hi]
  | @init chip mode g _ hw =>
    have f := hw.frame
    refine ⟨by simp [f.n_eq], by simp [f.hasRd_eq], by simp [f.port_eq], fun hs => ?_,
      fun hi => absurd rfl (hi chip mode g), fun _ _ => by simp [f.act_eq], fun _ _ => by simp [f.responses_eq],
      nofun⟩
    rw [f.inited_eq, f.geom_eq, allocate_of_inited hs]
    exact ⟨hs, rfl⟩
  | write hi hm => simp [hi]
  | @respond _ v hi hv =>
    refine ⟨rfl, rfl, rfl, fun hs => ⟨hs, rfl⟩, fun _ => ⟨rfl, rfl⟩, fun _ _ => rfl, fun hrdd hgetpx => ?_,
      fun _ => ⟨v, hv, rfl⟩⟩
    obtain ⟨c, a, rfl⟩ | ⟨x, y, rfl⟩ := responds_iff.1 hi
    · exact absurd rfl (hrdd c a)
    · exact absurd rfl (hgetpx x y)
  | activate hi =>
    obtain ⟨b, rfl⟩ | rfl := hi
    · simp [Instr.responds]
    · simp [Instr.responds]

/-! ## The invariant -/

/-- A line that does not exist is driven by no action on the lines of the block. -/
theorem State.Inv.not_drives_absent {s : State} (hs : s.Inv) {l : Line} (hl : s.lines.level l = none) {a : Action}
    (ha : a.onLines s.n = true) : a.drives l = false := by
  cases l with
  | data => cases hl
  | wr => cases hl
  | lock => cases hl
  | rd => exact Action.not_drives_rd_of_onLines _ a ha
  | cs i =>
    have hn : 1 ≤ s.n := hs.straps_legal.1
    have hi : s.n ≤ i := by rw [← hs.cs_count]; exact List.getElem?_eq_none_iff.1 hl
    cases a with
    | cfgOut l' => rfl
    | set l' v =>
      cases l' with
      | cs j =>
        have hj : j = 0 ∨ j < s.n := of_decide_eq_true ha
        exact decide_eq_false (by rintro ⟨⟩; omega)
      | _ => rfl

theorem State.Inv.of_wireOnly {s t : State} (hs : s.Inv) (h : WireOnly s t) (hlock : t.lines.lock = false) : t.Inv := by
  obtain ⟨acts, htrace, hlines, hacts⟩ := h.emits
  have hstraps : t.straps = s.straps := by rw [State.straps, State.straps, h.frame.n_eq, h.frame.hasRd_eq]
  have habsent : ∀ l, s.lines.level l = none → lastLevel l acts = none := fun l hl =>
    lastLevel_eq_none fun a ha => hs.not_drives_absent hl (hacts a ha)
  have hrd : t.lines.level .rd = s.lines.level .rd := h.emits.level_eq (Action.not_drives_rd_of_onLines s.n)
  exact inv_of_actions hs hlines htrace habsent hstraps hrd (h.wr_high hs.wr_high) hlock (h.mask_zero hs.mask_zero)
    h.frame.inited_eq h.frame.geom_eq h.frame.fb0_eq h.frame.fb1_eq h.frame.responses_eq

/-- The first `INIT` gives the block a geometry and both banks their `S` bytes (R16, R183). -/
theorem State.Inv.allocate {s : State} (hs : s.Inv) (g : Geometry) : (allocate g s).Inv := by
  unfold Machine.allocate
  split
  · exact hs
  · exact { hs with
      geom_inited := rfl
      banks_absent := nofun
      banks_present := by
        rintro g' ⟨⟩
        exact ⟨drawBank_addresses _ _ _, drawBank_addresses _ _ _⟩ }

theorem State.Inv.respond {s : State} (hs : s.Inv) {v : Nat} (hv : v = 0 ∨ v = 1) : (respond v s).Inv :=
  { hs with
    responses_bits := by
      intro r hr
      obtain hr | hr := List.mem_append.1 hr
      · exact hs.responses_bits r hr
      · obtain rfl := List.mem_singleton.1 hr
        omega }

/-- The port is no part of the invariant (log 6). -/
theorem State.Inv.withPort {s : State} (hs : s.Inv) (p : List Encoded) : ({ s with port := p } : State).Inv :=
  { hs with }

theorem State.Inv.exec {i : Instr} {s t : State} (hs : s.Inv) (h : exec i s = .next t) : t.Inv := by
  have hlock := exec_lock_low h hs.lock_low
  cases exec_effect h with
  | wire hi hw => exact hs.of_wireOnly hw hlock
  | init hw => exact (hs.allocate _).of_wireOnly hw hlock
  | write hi hm => exact inv_withBank hs _ _ hm
  | respond hi hv => exact hs.respond hv
  | activate hi => exact { hs with }

/-- Everything a step that completes can do: wait, or take one operation from the port and run it (R54, R220). -/
theorem step_next {s t : State} (h : step s = .next t) :
    (s.port = [] ∧ t = s) ∨
      ∃ e rest i, s.port = e :: rest ∧ decode e = .ok i ∧ exec i { s with port := rest } = .next t := by
  unfold step fetch at h
  cases hp : s.port with
  | nil =>
    rw [hp] at h
    cases h
    exact .inl ⟨rfl, rfl⟩
  | cons e rest =>
    simp only [hp] at h
    split at h
    · exact .inr ⟨e, rest, _, rfl, ‹_›, h⟩
    · cases h

/-- Settles O4: a step waits or runs an instruction, and each effect of an instruction keeps the invariant. -/
theorem stepKeepsTheInvariant : Obligations.StepKeepsTheInvariant := by
  intro s t hs h
  obtain ⟨-, rfl⟩ | ⟨e, rest, i, -, -, h⟩ := step_next h
  · exact hs
  · exact (hs.withPort rest).exec h

/-! ## Reset, and the reachable states -/

theorem resetActions_length (p : Straps) : (resetActions p).length = 2 * (p.n + if p.hasRd then 4 else 3) := by
  cases h : p.hasRd <;> simp [resetActions, idleActions, h] <;> omega

/-- Settles O1: the values are those of the definition, the lines exist as the straps say. -/
theorem resetGivesTheSpecifiedState : Obligations.ResetGivesTheSpecifiedState := by
  intro p _
  refine ⟨rfl, rfl, fun i => List.getElem?_replicate, rfl, rfl, rfl, rfl, rfl, rfl, rfl, rfl, rfl, rfl, ?_,
    resetActions_length p⟩
  simp [State.resetWith, resetActions, idleActions]

theorem resetWith_inv {p : Straps} (h : p.legal) : (State.resetWith p).Inv where
  straps_legal := h
  cs_count := List.length_replicate
  rd_high := rfl
  wr_high := rfl
  lock_low := rfl
  mask_zero := rfl
  geom_inited := rfl
  banks_absent := fun _ => ⟨rfl, rfl⟩
  banks_present := nofun
  trace_reset := List.prefix_rfl
  trace_levels := fun l => (lastLevel_resetActions p l).symm
  responses_bits := nofun

/-- Settles O2: `State.reset` is the case of the straps of log 1. -/
theorem resetMeetsTheInvariant : Obligations.ResetMeetsTheInvariant :=
  ⟨fun _ => resetWith_inv, resetWith_inv (by decide)⟩

theorem Reachable.inv {s : State} (h : Reachable s) : s.Inv := by
  induction h with
  | reset p hp => exact resetWith_inv hp
  | present s e _ ih => exact ih.withPort _
  | step s t _ hs ih => exact stepKeepsTheInvariant s t ih hs

/-- Settles O6: the two clauses are fields of the invariant. -/
theorem reachableLinesFollowTheTrace : Obligations.ReachableLinesFollowTheTrace :=
  fun _ h => ⟨h.inv, h.inv.trace_levels, h.inv.trace_reset⟩

/-- The banks are absent exactly before the first `INIT`: a bank that exists has bytes (R23 (a)). -/
theorem State.Inv.not_inited_iff_banks {s : State} (hs : s.Inv) : s.inited = false ↔ s.fb0 = [] ∧ s.fb1 = [] := by
  refine ⟨hs.banks_absent, fun ⟨h0, _⟩ => ?_⟩
  cases hg : s.geom with
  | none => rw [hs.geom_inited, hg]; rfl
  | some g =>
    have hempty : List.range (g.bankSize s.n) = [] := by rw [← (hs.banks_present g hg).1, h0]; rfl
    have hsize : 32 ≤ g.bankSize s.n := (g.bankSize_bounds hs.straps_legal.1 hs.straps_legal.2).1
    rw [List.range_eq_nil.1 hempty] at hsize
    cases hsize

theorem State.Inv.addresses_eq {s : State} (hs : s.Inv) : s.fb0.addresses = s.fb1.addresses := by
  cases hg : s.geom with
  | none =>
    have hi : s.inited = false := by rw [hs.geom_inited, hg]; rfl
    obtain ⟨h0, h1⟩ := hs.banks_absent hi
    rw [h0, h1]
  | some g =>
    obtain ⟨h0, h1⟩ := hs.banks_present g hg
    rw [h0, h1]

theorem State.Inv.bank_length {s : State} (hs : s.Inv) {g : Geometry} (hg : s.geom = some g) :
    s.fb0.length = g.bankSize s.n := by
  have h := congrArg List.length (hs.banks_present g hg).1
  rwa [Memory.addresses, List.length_map, List.length_range] at h

/-- Once `INITED = 1` a step leaves it, `GEOM` and `N` (R23 (b)). -/
theorem step_keeps_geometry {s t : State} (h : step s = .next t) (hs : s.inited = true) :
    t.inited = true ∧ t.geom = s.geom ∧ t.n = s.n := by
  obtain ⟨-, rfl⟩ | ⟨e, rest, i, -, -, h⟩ := step_next h
  · exact ⟨hs, rfl, rfl⟩
  · obtain ⟨hn, -, -, hinited, -⟩ := whoWritesWhat i _ t h
    obtain ⟨hi, hg⟩ := hinited hs
    exact ⟨hi, hg, hn⟩

/-- Settles O5, from the invariant of every reachable state. -/
theorem reachableStatesMeetTheInvariants : Obligations.ReachableStatesMeetTheInvariants := by
  intro s h
  have hs := h.inv
  refine ⟨hs.not_inited_iff_banks, by simp [hs.geom_inited], fun t => step_keeps_geometry, hs.addresses_eq,
    fun g => hs.bank_length, ?_, hs.mask_zero, congrArg some hs.wr_high, congrArg some hs.lock_low, fun v hv => ?_⟩
  · cases s.act with
    | bank0 => exact .inl rfl
    | bank1 => exact .inr rfl
  · rw [Lines.level, hs.rd_high] at hv
    split at hv
    · exact (Option.some.inj hv).symm
    · cases hv

end Sys2Proof.Machine
end

section
/-! PROOFS. The transition trace `T2` (`10_state.md` R25). -/

namespace Sys2Proof.Machine

/-- What the replay of R25 knows after a trace: the level of the last `set`, else what it knew before; from there it goes
on with the rest. -/
theorem transitionsFrom_append (pre : List Action) : ∀ known : List (Line × Level), ∃ known' : List (Line × Level),
    (∀ l, known'.lookup l = (lastLevel l pre).or (known.lookup l)) ∧
    ∀ rest, transitionsFrom known (pre ++ rest) = transitionsFrom known pre ++ transitionsFrom known' rest := by
  induction pre with
  | nil => exact fun known => ⟨known, fun _ => rfl, fun _ => rfl⟩
  | cons a pre ih =>
    intro known
    cases a with
    | cfgOut l' => exact ih known
    | set l' v =>
      by_cases hk : known.lookup l' = some v
      · obtain ⟨known', hlookup, happend⟩ := ih known
        refine ⟨known', fun l => ?_, fun rest => by simp [transitionsFrom, hk, happend]⟩
        rw [hlookup, lastLevel, Option.or_assoc]
        by_cases hl : l' = l
        · subst hl; simp [hk]
        · simp [hl]
      · obtain ⟨known', hlookup, happend⟩ := ih ((l', v) :: known)
        refine ⟨known', fun l => ?_, fun rest => by simp [transitionsFrom, hk, happend]⟩
        rw [hlookup, lastLevel, Option.or_assoc, List.lookup_cons]
        by_cases hl : l' = l
        · simp [hl]
        · have hbeq : (l == l') = false := beq_false_of_ne (Ne.symm hl)
          simp [hl, hbeq]

/-- Settles O58: from every line undriven the replay knows exactly the last levels, and one more action is replayed with
these. -/
theorem transitionTraceKeepsChanges : Obligations.TransitionTraceKeepsChanges := by
  refine ⟨fun pre l v => ?_, fun pre l => ?_, rfl, fun _ => rfl⟩
  · obtain ⟨known, hlookup, happend⟩ := transitionsFrom_append pre []
    have hl : known.lookup l = lastLevel l pre := by simpa using hlookup l
    rw [happend, transitionsFrom, hl]
    rfl
  · obtain ⟨known, -, happend⟩ := transitionsFrom_append pre []
    rw [happend, transitionsFrom, transitionsFrom, List.append_nil]

end Sys2Proof.Machine
end

section
/-! PROOFS. From pixels to the bits of a bank (`20_memory.md` R42 to R45). The key fact is that a row of pixels is `STRIDE`
whole bytes: dividing a pixel's address by `STRIDE` gives back its row and, as the remainder, its byte column. -/

namespace Sys2Proof

/-- A row of pixels is `STRIDE` bytes, with no bit left over (R5). -/
theorem Geometry.width_eq_stride (g : Geometry) : g.width = 8 * g.stride := by
  cases g <;> rfl

theorem Geometry.stride_pos (g : Geometry) : 0 < g.stride := by
  cases g <;> decide

namespace Machine

/-! ## The formulas -/

theorem inRange_iff {g : Geometry} {n : Nat} {x y : Int} :
    inRange g n x y = true ↔ 0 ≤ x ∧ x < g.width ∧ 0 ≤ y ∧ y < g.height n := by
  simp [inRange, and_assoc]

theorem inRange_natCast {g : Geometry} {n x y : Nat} :
    inRange g n x y = true ↔ x < g.width ∧ y < g.height n := by
  simp [inRange_iff]

/-- The coordinates of an in-range pixel are natural numbers, so the rest can speak of these (R42). -/
theorem exists_natCast_of_inRange {g : Geometry} {n : Nat} {x y : Int} (h : inRange g n x y = true) :
    ∃ x' y' : Nat, x = x' ∧ y = y' ∧ x' < g.width ∧ y' < g.height n := by
  obtain ⟨hx, -, hy, -⟩ := inRange_iff.1 h
  lift x to Nat using hx
  lift y to Nat using hy
  obtain ⟨hx, hy⟩ := inRange_natCast.1 h
  exact ⟨x, y, rfl, rfl, hx, hy⟩

theorem pixelAddr_natCast (g : Geometry) (x y : Nat) : pixelAddr g x y = x / 8 + g.stride * y := by
  cases g with
  | wide => simp [pixelAddr, Geometry.stride, Nat.shiftRight_eq_div_pow, Nat.shiftLeft_eq, Nat.mul_comm]
  | tall =>
    simp only [pixelAddr, Geometry.stride, Int.toNat_natCast, Nat.shiftRight_eq_div_pow]
    omega

theorem pixelBit_natCast (x : Nat) : pixelBit x = 7 - x % 8 := rfl

theorem pixelBit_lt (x : Int) : pixelBit x < 8 := by
  unfold pixelBit
  omega

/-- The mask is the power of two of the pixel's bit (R161 (4)). -/
theorem pixelMask_eq_two_pow (x : Int) : pixelMask x = BitVec.ofNat 8 (2 ^ pixelBit x) :=
  BitVec.eq_of_toNat_eq (by simp [pixelMask, Nat.shiftLeft_eq])

/-- Settles O33, from the formulas of R42, R43 and R44. -/
theorem pixelAddressingFormula : Obligations.PixelAddressingFormula :=
  ⟨fun _ _ _ _ => inRange_iff, pixelAddr_natCast, fun x => ⟨pixelBit_natCast x, pixelMask_eq_two_pow x⟩⟩

/-! ## A pixel from its address and bit -/

section

variable {g : Geometry} {x : Nat} (hx : x < g.width)
include hx

theorem byteColumn_lt : x / 8 < g.stride :=
  Nat.div_lt_of_lt_mul (g.width_eq_stride ▸ hx)

theorem pixelAddr_div_stride (y : Nat) : pixelAddr g x y / g.stride = y := by
  rw [pixelAddr_natCast, Nat.add_mul_div_left _ _ g.stride_pos, Nat.div_eq_of_lt (byteColumn_lt hx), Nat.zero_add]

theorem pixelAddr_mod_stride (y : Nat) : pixelAddr g x y % g.stride = x / 8 := by
  rw [pixelAddr_natCast, Nat.add_mul_mod_self_left, Nat.mod_eq_of_lt (byteColumn_lt hx)]

/-- The addresses from row `k` on are those of the pixels from row `k` on. -/
theorem stride_mul_le_pixelAddr_iff {k y : Nat} : g.stride * k ≤ pixelAddr g x y ↔ k ≤ y := by
  rw [Nat.mul_comm, ← Nat.le_div_iff_mul_le g.stride_pos, pixelAddr_div_stride hx]

theorem pixelAddr_lt_stride_mul_iff {k y : Nat} : pixelAddr g x y < g.stride * k ↔ y < k := by
  rw [← not_le, stride_mul_le_pixelAddr_iff hx, not_le]

theorem pixelAddr_lt_bankSize_iff {n y : Nat} : pixelAddr g x y < g.bankSize n ↔ y < g.height n := by
  rw [g.bankSize_eq_stride_mul_height, pixelAddr_lt_stride_mul_iff hx]

/-- The rows of module `m` are its `BPM` bytes (R45). -/
theorem module_rows_iff_bytes {m y : Nat} :
    g.moduleHeight * m ≤ y ∧ y < g.moduleHeight * (m + 1) ↔
      g.bytesPerModule * m ≤ pixelAddr g x y ∧ pixelAddr g x y < g.bytesPerModule * (m + 1) := by
  simp only [g.bytesPerModule_eq_stride_mul, Nat.mul_assoc, stride_mul_le_pixelAddr_iff hx,
    pixelAddr_lt_stride_mul_iff hx]

end

/-- Two pixels with the same byte and bit have the same row, the same byte column and the same place in the byte. -/
theorem pixel_injective {g : Geometry} {x x' y y' : Nat} (hx : x < g.width) (hx' : x' < g.width)
    (haddr : pixelAddr g x y = pixelAddr g x' y') (hbit : pixelBit x = pixelBit x') : x = x' ∧ y = y' := by
  have hrow : y = y' := by rw [← pixelAddr_div_stride hx y, haddr, pixelAddr_div_stride hx' y']
  have hcolumn : x / 8 = x' / 8 := by rw [← pixelAddr_mod_stride hx y, haddr, pixelAddr_mod_stride hx' y']
  rw [pixelBit_natCast, pixelBit_natCast] at hbit
  exact ⟨by omega, hrow⟩

/-- Bit `bit` of byte `a` is the pixel `7 - bit` places into byte column `a mod STRIDE` of row `a div STRIDE`. -/
theorem exists_pixel_of_bit {g : Geometry} {n a bit : Nat} (ha : a < g.bankSize n) (hbit : bit < 8) :
    ∃ x y : Nat, inRange g n x y = true ∧ pixelAddr g x y = a ∧ pixelBit x = bit := by
  have hcolumn : a % g.stride < g.stride := Nat.mod_lt _ g.stride_pos
  have hx : 8 * (a % g.stride) + (7 - bit) < g.width := by
    rw [g.width_eq_stride]
    omega
  have haddr : pixelAddr g ↑(8 * (a % g.stride) + (7 - bit)) ↑(a / g.stride) = a := by
    rw [pixelAddr_natCast, Nat.mul_add_div (by decide), Nat.div_eq_of_lt (by omega), Nat.add_zero, Nat.mod_add_div]
  have hy : a / g.stride < g.height n := by rwa [← pixelAddr_lt_bankSize_iff hx, haddr]
  refine ⟨_, _, inRange_natCast.2 ⟨hx, hy⟩, haddr, ?_⟩
  rw [pixelBit_natCast]
  omega

/-- Settles O32: in range the coordinates are natural numbers, and for these each clause is one of the lemmas above. -/
theorem pixelMapIsABijection : Obligations.PixelMapIsABijection := by
  refine fun g n => ⟨fun x y h => ?_, fun x y x' y' h h' haddr hbit => ?_, fun a bit ha hbit => ?_, fun m x y _ h => ?_⟩
  · obtain ⟨x, y, rfl, rfl, hx, hy⟩ := exists_natCast_of_inRange h
    exact ⟨(pixelAddr_lt_bankSize_iff hx).2 hy, pixelBit_lt x⟩
  · obtain ⟨x, y, rfl, rfl, hx, -⟩ := exists_natCast_of_inRange h
    obtain ⟨x', y', rfl, rfl, hx', -⟩ := exists_natCast_of_inRange h'
    exact_mod_cast pixel_injective hx hx' haddr hbit
  · obtain ⟨x, y, hpixel⟩ := exists_pixel_of_bit ha hbit
    exact ⟨x, y, hpixel⟩
  · obtain ⟨x, y, rfl, rfl, hx, -⟩ := exists_natCast_of_inRange h
    rw [← module_rows_iff_bytes hx]
    norm_cast

end Machine

end Sys2Proof
end

section
/-! PROOFS. The bank that is not active (`20_memory.md` R41). -/

namespace Sys2Proof

theorem Bank.other_ne (b : Bank) : b.other ≠ b := by
  cases b <;> decide

namespace Machine

theorem State.sameButWire.bank_eq {s t : State} (h : s.sameButWire t) (b : Bank) : t.bank b = s.bank b := by
  cases b with
  | bank0 => exact h.fb0_eq
  | bank1 => exact h.fb1_eq

/-- Settles O43: of the effects only an allocation and a write touch a bank; an initialised block allocates no more, and
a write goes to the active bank. -/
theorem inactiveBankIsNeverTouched : Obligations.InactiveBankIsNeverTouched := by
  intro i s t hs h
  cases exec_effect h with
  | wire hi hw => exact hw.frame.bank_eq _
  | init hw =>
    rw [allocate_of_inited hs] at hw
    exact hw.frame.bank_eq _
  | write hi hm => exact withBank_bank_ne s _ s.act.other_ne
  | respond hi hv => exact respond_bank _ s _
  | activate hi => rfl

end Machine

end Sys2Proof
end

section
/-! PROOFS. What a step takes from the port (`20_memory.md` R54, `30_encoding.md` R82, R83). -/

namespace Sys2Proof.Machine

theorem fetch_cons {s : State} {e : Encoded} {rest : List Encoded} (h : s.port = e :: rest) :
    fetch s = some (e, { s with port := rest }) := by
  rw [fetch, h]

theorem fetch_nil {s : State} (h : s.port = []) : fetch s = none := by
  rw [fetch, h]

/-- Settles O12: the answer of the fetch, then that of the decoder, picks the branch of the step. -/
theorem stepRunsTheDecodedInstruction : Obligations.StepRunsTheDecodedInstruction := by
  refine ⟨fun s e rest i hport hdecode => ?_, fun s e rest r hport hdecode => ?_, fun s hport => ?_⟩
  · simp only [step, fetch_cons hport, hdecode]
  · simp only [step, fetch_cons hport, hdecode]
  · simp only [step, fetch_nil hport]

end Sys2Proof.Machine
end

section
/-! PROOFS. The two round trips of the encoding (`30_encoding.md` R83). The key fact for decode-then-encode is that
every word a row accepts is the encoding of some operation whose operands fit; the other round trip then says that it is
the one the word decodes to. -/

namespace Sys2Proof

/-- Settles O8, instruction by instruction. -/
theorem decodeOfEncodeIsTheInstruction : Obligations.DecodeOfEncodeIsTheInstruction := by
  intro i
  cases i with
  | shift value k => exact Laws.RoundTrip.shift value k
  | select chip => exact Laws.RoundTrip.select chip
  | release chip => exact Laws.RoundTrip.release chip
  | cmd chip code => exact Laws.RoundTrip.cmd chip code
  | wr chip addr nib => exact Laws.RoundTrip.wr chip addr nib
  | swb chip addr => exact Laws.RoundTrip.swb chip addr
  | swn nib => exact Laws.RoundTrip.swn nib
  | swe chip => exact Laws.RoundTrip.swe chip
  | bright chip level => exact Laws.RoundTrip.bright chip level
  | blink chip on => exact Laws.RoundTrip.blink chip on
  | cclr chip => exact Laws.RoundTrip.cclr chip
  | rdd chip addr => exact Laws.RoundTrip.rdd chip addr
  | setpx x y => exact Laws.RoundTrip.setpx x y
  | clrpx x y => exact Laws.RoundTrip.clrpx x y
  | drawpx x y color => exact Laws.RoundTrip.drawpx x y color
  | getpx x y => exact Laws.RoundTrip.getpx x y
  | cls => exact Laws.RoundTrip.cls
  | fills => exact Laws.RoundTrip.fills
  | setbyte addr val => exact Laws.RoundTrip.setbyte addr val
  | setact idx => exact Laws.RoundTrip.setact idx
  | swap => exact Laws.RoundTrip.swap
  | flush => exact Laws.RoundTrip.flush
  | init chip mode geom => exact Laws.RoundTrip.init chip mode geom
  | frameCommand code => exact Laws.RoundTrip.frameCommand code
  | frameWrite addr nib => exact Laws.RoundTrip.frameWrite addr nib
  | frameSuccessiveHead addr => exact Laws.RoundTrip.frameSuccessiveHead addr

/-! ## The bytes of a word -/

/-- A word is put together from its four bytes (R79). -/
theorem placeBytes_fields (w : OpWord) : placeBytes (opcodeField w) (xField w) (midField w) (lowField w) = w := by
  simp only [placeBytes, place, opcodeField, xField, midField, lowField]
  ext i hi
  interval_cases i <;> simp

theorem placeBytes_inj {o b2 b1 b0 o' b2' b1' b0' : BitVec 8}
    (h : placeBytes o b2 b1 b0 = placeBytes o' b2' b1' b0') : o = o' ∧ b2 = b2' ∧ b1 = b1' ∧ b0 = b0' := by
  refine ⟨?_, ?_, ?_, ?_⟩
  · simpa only [opcodeField_placeBytes] using congrArg opcodeField h
  · simpa only [xField_placeBytes] using congrArg xField h
  · simpa only [midField_placeBytes] using congrArg midField h
  · simpa only [lowField_placeBytes] using congrArg lowField h

/-! ## The rows of the opcode map -/

/-- A row fixes the whole opcode byte, and of the other bits it asks only that some are zero (R81). -/
theorem opRow_shape : ∀ r ∈ opRows,
    opcodeField r.mask = BitVec.allOnes 8 ∧ r.pattern = placeBytes r.opcode 0 0 0 := by
  decide

/-- What a row accepts: its opcode byte, and three bytes that are zero under its mask (R81). -/
theorem bytes_of_accepts {r : OpRow} {w : OpWord} (hr : r ∈ opRows) (ha : r.accepts w = true) :
    ∃ b2 b1 b0, w = placeBytes r.opcode b2 b1 b0 ∧
      b2 &&& xField r.mask = 0#8 ∧ b1 &&& midField r.mask = 0#8 ∧ b0 &&& lowField r.mask = 0#8 := by
  obtain ⟨hopcode, hpattern⟩ := opRow_shape r hr
  have hand : w &&& r.mask = r.pattern := by simpa [OpRow.accepts] using ha
  rw [hpattern, ← placeBytes_fields w, ← placeBytes_fields r.mask, placeBytes_and, hopcode] at hand
  obtain ⟨h3, h2, h1, h0⟩ := placeBytes_inj hand
  refine ⟨xField w, midField w, lowField w, ?_, h2, h1, h0⟩
  rw [← h3, BitVec.and_allOnes, placeBytes_fields]

theorem opcodeField_of_accepts {r : OpRow} {w : OpWord} (hr : r ∈ opRows) (ha : r.accepts w = true) :
    opcodeField w = r.opcode := by
  obtain ⟨b2, b1, b0, rfl, -⟩ := bytes_of_accepts hr ha
  exact opcodeField_placeBytes _ _ _ _

/-- The opcode bytes of the rows differ (R83). -/
theorem opRow_eq_of_opcode {r q : OpRow} (hr : r ∈ opRows) (hq : q ∈ opRows) (h : r.opcode = q.opcode) : r = q :=
  List.inj_on_of_nodup_map (f := OpRow.opcode) (by decide) hr hq h

/-- The decoder looks up the row that accepts the word. -/
theorem rowOf_of_accepts {r : OpRow} {w : OpWord} (hr : r ∈ opRows) (ha : r.accepts w = true) :
    rowOf w = some r := by
  have hopcode := opcodeField_of_accepts hr ha
  obtain ⟨q, hq⟩ : ∃ q, rowOf w = some q :=
    Option.isSome_iff_exists.1 (List.find?_isSome.2 ⟨r, hr, by simp [hopcode]⟩)
  have hqw : q.opcode = opcodeField w := by simpa using List.find?_some hq
  rw [hq, opRow_eq_of_opcode (List.mem_of_find?_eq_some hq) hr (hqw.trans hopcode)]

/-- A word decodes exactly when a row accepts it, to what that row assembles (R80, R81). -/
theorem decodeWord_eq_ok_iff {w : OpWord} {i : Instr} :
    decodeWord w = .ok i ↔ ∃ r ∈ opRows, r.accepts w = true ∧ r.assemble w = i := by
  constructor
  · intro h
    unfold decodeWord at h
    split at h
    · cases h
    · rename_i r hrow
      split at h
      · rename_i ha
        cases h
        exact ⟨r, List.mem_of_find?_eq_some hrow, ha, rfl⟩
      · cases h
  · rintro ⟨r, hr, ha, rfl⟩
    exact decodeWord_of_row (rowOf_of_accepts hr ha) ha

/-! ## Bytes under a mask -/

theorem exists_chipByte {b : BitVec 8} (h : b &&& 0xFC#8 = 0#8) : ∃ chip, b = chipByte chip := by
  revert b; decide

theorem exists_nibByte {b : BitVec 8} (h : b &&& 0xF0#8 = 0#8) : ∃ nib, b = nibByte nib := by
  revert b; decide

theorem exists_bitByte {b : BitVec 8} (h : b &&& 0xFE#8 = 0#8) : ∃ bit, b = bitByte bit := by
  revert b; decide

theorem eq_zero_of_mask {b : BitVec 8} (h : b &&& 0xFF#8 = 0#8) : b = 0#8 := by
  revert b; decide

/-- The byte [23:16] of `SHIFT`: the field `n` above four zero bits (R79). -/
def countByte (n : BitVec 4) : BitVec 8 := n.setWidth 8 <<< 4

theorem exists_countByte {b : BitVec 8} (h : b &&& 0x0F#8 = 0#8) : ∃ n, b = countByte n := by
  revert b; decide

theorem bitOfBank_surjective : Function.Surjective bitOfBank := by
  rintro (_ | _)
  · exact ⟨.bank0, rfl⟩
  · exact ⟨.bank1, rfl⟩

theorem bitOfGeometry_surjective : Function.Surjective bitOfGeometry := by
  rintro (_ | _)
  · exact ⟨.wide, rfl⟩
  · exact ⟨.tall, rfl⟩

/-- Every byte is the field of a coordinate in range (R80). -/
theorem exists_coordField (b : BitVec 8) : ∃ v, coordFits v = true ∧ b = coordField v := by
  refine ⟨b.toInt, ?_, by simp [coordField]⟩
  have hlo := BitVec.le_toInt b
  have hhi := BitVec.toInt_lt (x := b)
  simp only [coordFits, Bool.and_eq_true, decide_eq_true_eq]
  omega

/-! ## Every accepted word is an encoding -/

/-- The word is the encoding of an operation whose operands fit. -/
def IsEncoding (w : OpWord) : Prop := ∃ i : Instr, i.wf = true ∧ i.isOperation = true ∧ encode i = .opWord w

theorem encode_shift (n : BitVec 4) (b1 b0 : BitVec 8) :
    encode (.shift (valueField (placeBytes 0 0 b1 b0)) (n.toNat + 1)) =
      .opWord (placeBytes 0x01 (countByte n) b1 b0) := by
  rw [encode, Nat.add_sub_cancel, BitVec.ofNat_toNat, BitVec.setWidth_eq]
  congr 1
  simp only [valueField, placeBytes, place, countByte]
  ext i hi
  interval_cases i <;> simp

theorem serializerRows_isEncoding {r : OpRow} {w : OpWord} (hr : r ∈ serializerRows) (ha : r.accepts w = true) :
    IsEncoding w := by
  obtain ⟨b2, b1, b0, rfl, h2, h1, h0⟩ := bytes_of_accepts (by simp [opRows, hr]) ha
  simp only [serializerRows, List.mem_cons, List.not_mem_nil, or_false] at hr
  obtain rfl | rfl | rfl := hr
  · obtain ⟨n, rfl⟩ := exists_countByte h2
    exact ⟨_, by simp [Instr.wf, countFits, n.isLt], rfl, encode_shift n b1 b0⟩
  · rcases exists_chipByte h2, eq_zero_of_mask h1, eq_zero_of_mask h0 with ⟨⟨chip, rfl⟩, rfl, rfl⟩
    exact ⟨.select chip, rfl, rfl, rfl⟩
  · rcases exists_chipByte h2, eq_zero_of_mask h1, eq_zero_of_mask h0 with ⟨⟨chip, rfl⟩, rfl, rfl⟩
    exact ⟨.release chip, rfl, rfl, rfl⟩

theorem encoderRows_isEncoding {r : OpRow} {w : OpWord} (hr : r ∈ encoderRows) (ha : r.accepts w = true) :
    IsEncoding w := by
  obtain ⟨b2, b1, b0, rfl, h2, h1, h0⟩ := bytes_of_accepts (by simp [opRows, hr]) ha
  simp only [encoderRows, List.mem_cons, List.not_mem_nil, or_false] at hr
  obtain rfl | rfl | rfl | rfl | rfl | rfl | rfl | rfl | rfl := hr
  · rcases exists_chipByte h2, eq_zero_of_mask h1 with ⟨⟨chip, rfl⟩, rfl⟩
    exact ⟨.cmd chip b0, rfl, rfl, rfl⟩
  · rcases exists_chipByte h2, exists_nibByte h0 with ⟨⟨chip, rfl⟩, ⟨nib, rfl⟩⟩
    exact ⟨.wr chip b1 nib, rfl, rfl, rfl⟩
  · rcases exists_chipByte h2, eq_zero_of_mask h0 with ⟨⟨chip, rfl⟩, rfl⟩
    exact ⟨.swb chip b1, rfl, rfl, rfl⟩
  · rcases eq_zero_of_mask h2, eq_zero_of_mask h1, exists_nibByte h0 with ⟨rfl, rfl, ⟨nib, rfl⟩⟩
    exact ⟨.swn nib, rfl, rfl, rfl⟩
  · rcases exists_chipByte h2, eq_zero_of_mask h1, eq_zero_of_mask h0 with ⟨⟨chip, rfl⟩, rfl, rfl⟩
    exact ⟨.swe chip, rfl, rfl, rfl⟩
  · rcases exists_chipByte h2, eq_zero_of_mask h1, exists_nibByte h0 with ⟨⟨chip, rfl⟩, rfl, ⟨level, rfl⟩⟩
    exact ⟨.bright chip level, rfl, rfl, rfl⟩
  · rcases exists_chipByte h2, eq_zero_of_mask h1, exists_bitByte h0 with ⟨⟨chip, rfl⟩, rfl, ⟨on, rfl⟩⟩
    exact ⟨.blink chip on, rfl, rfl, rfl⟩
  · rcases exists_chipByte h2, eq_zero_of_mask h1, eq_zero_of_mask h0 with ⟨⟨chip, rfl⟩, rfl, rfl⟩
    exact ⟨.cclr chip, rfl, rfl, rfl⟩
  · rcases exists_chipByte h2, eq_zero_of_mask h0 with ⟨⟨chip, rfl⟩, rfl⟩
    exact ⟨.rdd chip b1, rfl, rfl, rfl⟩

theorem framebufferRows_isEncoding {r : OpRow} {w : OpWord} (hr : r ∈ framebufferRows) (ha : r.accepts w = true) :
    IsEncoding w := by
  obtain ⟨b2, b1, b0, rfl, h2, h1, h0⟩ := bytes_of_accepts (by simp [opRows, hr]) ha
  simp only [framebufferRows, List.mem_cons, List.not_mem_nil, or_false] at hr
  obtain rfl | rfl | rfl | rfl | rfl | rfl | rfl | rfl | rfl := hr
  · rcases exists_coordField b2, exists_coordField b1, eq_zero_of_mask h0 with ⟨⟨x, hx, rfl⟩, ⟨y, hy, rfl⟩, rfl⟩
    exact ⟨.setpx x y, by simp [Instr.wf, hx, hy], rfl, rfl⟩
  · rcases exists_coordField b2, exists_coordField b1, eq_zero_of_mask h0 with ⟨⟨x, hx, rfl⟩, ⟨y, hy, rfl⟩, rfl⟩
    exact ⟨.clrpx x y, by simp [Instr.wf, hx, hy], rfl, rfl⟩
  · rcases exists_coordField b2, exists_coordField b1 with ⟨⟨x, hx, rfl⟩, ⟨y, hy, rfl⟩⟩
    exact ⟨.drawpx x y b0, by simp [Instr.wf, hx, hy], rfl, rfl⟩
  · rcases exists_coordField b2, exists_coordField b1, eq_zero_of_mask h0 with ⟨⟨x, hx, rfl⟩, ⟨y, hy, rfl⟩, rfl⟩
    exact ⟨.getpx x y, by simp [Instr.wf, hx, hy], rfl, rfl⟩
  · rcases eq_zero_of_mask h2, eq_zero_of_mask h1, eq_zero_of_mask h0 with ⟨rfl, rfl, rfl⟩
    exact ⟨.cls, rfl, rfl, rfl⟩
  · rcases eq_zero_of_mask h2, eq_zero_of_mask h1, eq_zero_of_mask h0 with ⟨rfl, rfl, rfl⟩
    exact ⟨.fills, rfl, rfl, rfl⟩
  · obtain rfl := eq_zero_of_mask h2
    exact ⟨.setbyte b1 b0, rfl, rfl, rfl⟩
  · rcases eq_zero_of_mask h2, eq_zero_of_mask h1, exists_bitByte h0 with ⟨rfl, rfl, ⟨bit, rfl⟩⟩
    obtain ⟨idx, rfl⟩ := bitOfBank_surjective bit
    exact ⟨.setact idx, rfl, rfl, rfl⟩
  · rcases eq_zero_of_mask h2, eq_zero_of_mask h1, eq_zero_of_mask h0 with ⟨rfl, rfl, rfl⟩
    exact ⟨.swap, rfl, rfl, rfl⟩

theorem flushRows_isEncoding {r : OpRow} {w : OpWord} (hr : r ∈ flushRows) (ha : r.accepts w = true) :
    IsEncoding w := by
  obtain ⟨b2, b1, b0, rfl, h2, h1, h0⟩ := bytes_of_accepts (by simp [opRows, hr]) ha
  simp only [flushRows, List.mem_cons, List.not_mem_nil, or_false] at hr
  obtain rfl | rfl := hr
  · rcases eq_zero_of_mask h2, eq_zero_of_mask h1, eq_zero_of_mask h0 with ⟨rfl, rfl, rfl⟩
    exact ⟨.flush, rfl, rfl, rfl⟩
  · rcases exists_chipByte h2, exists_bitByte h0 with ⟨⟨chip, rfl⟩, ⟨bit, rfl⟩⟩
    obtain ⟨geom, rfl⟩ := bitOfGeometry_surjective bit
    exact ⟨.init chip b1 geom, rfl, rfl, rfl⟩

theorem isEncoding_of_accepts {r : OpRow} {w : OpWord} (hr : r ∈ opRows) (ha : r.accepts w = true) :
    IsEncoding w := by
  simp only [opRows, List.mem_append] at hr
  obtain ((hr | hr) | hr) | hr := hr
  · exact serializerRows_isEncoding hr ha
  · exact encoderRows_isEncoding hr ha
  · exact framebufferRows_isEncoding hr ha
  · exact flushRows_isEncoding hr ha

/-- Settles O9: the row that decodes the word accepts it, so the word encodes some operation, and by O8 that is the one
it decodes to. -/
theorem encodeOfDecodeIsTheWord : Obligations.EncodeOfDecodeIsTheWord := by
  intro w i h
  obtain ⟨r, hr, ha, -⟩ := decodeWord_eq_ok_iff.1 h
  obtain ⟨j, hwf, hop, henc⟩ := isEncoding_of_accepts hr ha
  have hj : decode (.opWord w) = .ok j := henc ▸ decodeOfEncodeIsTheInstruction j hwf
  obtain rfl : i = j := Except.ok.inj (h.symm.trans hj)
  exact ⟨henc, hwf, hop⟩

end Sys2Proof
end

section
/-! PROOFS. Which words are operations (`30_encoding.md` R81, R82). -/

namespace Sys2Proof

/-- The statement's columns are those of the model's rows. -/
theorem mem_opcodeMap {p : OpWord × OpWord} : p ∈ opcodeMap ↔ ∃ r ∈ opRows, (r.pattern, r.mask) = p :=
  (List.mem_map : p ∈ opRows.map (fun r => (r.pattern, r.mask)) ↔ _)

theorem accepts_iff {r : OpRow} {w : OpWord} : r.accepts w = true ↔ w &&& r.mask = r.pattern := beq_iff_eq

/-- A word decodes exactly when it matches a row of the map (R81, R82). -/
theorem decodes_iff_matches {w : OpWord} : (∃ i, decodeWord w = .ok i) ↔ ∃ r ∈ opcodeMap, w &&& r.2 = r.1 := by
  constructor
  · rintro ⟨i, hi⟩
    obtain ⟨r, hr, ha, -⟩ := decodeWord_eq_ok_iff.1 hi
    exact ⟨_, mem_opcodeMap.2 ⟨r, hr, rfl⟩, accepts_iff.1 ha⟩
  · rintro ⟨p, hp, hw⟩
    obtain ⟨r, hr, rfl⟩ := mem_opcodeMap.1 hp
    exact ⟨_, decodeWord_eq_ok_iff.2 ⟨r, hr, accepts_iff.2 hw, rfl⟩⟩

/-- Settles O10: a row of the map is a row of the model; two rows that accept a word have its opcode byte; and a word
that does not decode is refused by the step (O12). -/
theorem legalWordsAreThoseOfTheMap : Obligations.LegalWordsAreThoseOfTheMap := by
  refine ⟨fun w => decodes_iff_matches, fun w p p' hp hp' hw hw' => ?_, fun w s rest hport hnone => ?_⟩
  · obtain ⟨r, hr, rfl⟩ := mem_opcodeMap.1 hp
    obtain ⟨q, hq, rfl⟩ := mem_opcodeMap.1 hp'
    have hrow := rowOf_of_accepts hr (accepts_iff.2 hw)
    have hrow' := rowOf_of_accepts hq (accepts_iff.2 hw')
    rw [Option.some.inj (hrow.symm.trans hrow')]
  · obtain ⟨-, hrefuses, -⟩ := Machine.stepRunsTheDecodedInstruction
    cases h : decodeWord w with
    | ok i =>
      obtain ⟨r, hr, hrw⟩ := decodes_iff_matches.1 ⟨i, h⟩
      exact absurd hrw (hnone r hr)
    | error e => exact hrefuses s (.opWord w) rest e hport h

/-- Settles O11, each word by running the decoder. -/
theorem wordsOfTheVectorsDecode : Obligations.WordsOfTheVectorsDecode :=
  ⟨rfl, rfl, rfl, rfl, rfl, rfl, rfl, rfl, rfl, rfl, rfl⟩

end Sys2Proof
end

section
/-! PROOFS. The wire frames as operations of their own, and a stream of nibbles (`30_encoding.md` R70 to R73, R84). The
key fact is that bits between a select and a release are one frame, however many operations they were sent by. -/

namespace Sys2Proof.Machine

/-! ## Runs of operations -/

@[simp] theorem runOps_nil (s : State) : runOps [] s = .next s := rfl

theorem runOps_cons_next {i : Instr} {s t : State} (h : exec i s = .next t) (rest : List Instr) :
    runOps (i :: rest) s = runOps rest t := by
  rw [runOps, h]

theorem runOps_cons_refused {i : Instr} {s : State} {r : Refusal} (h : exec i s = .refused r) (rest : List Instr) :
    runOps (i :: rest) s = .refused r := by
  rw [runOps, h]

theorem runOps_singleton (i : Instr) (s : State) : runOps [i] s = exec i s := by
  rw [runOps]
  cases exec i s <;> rfl

theorem runOps_append_next {ops : List Instr} : ∀ {s t : State}, runOps ops s = .next t → ∀ rest,
    runOps (ops ++ rest) s = runOps rest t := by
  induction ops with
  | nil =>
    intro s t h rest
    cases h
    rfl
  | cons i ops ih =>
    intro s t h rest
    rw [runOps] at h
    cases hi : exec i s with
    | next u =>
      rw [hi] at h
      rw [List.cons_append, runOps_cons_next hi, ih h]
    | fault f => simp [hi] at h
    | refused r => simp [hi] at h

/-! ## The checks -/

theorem ifChip_of_lt {chip : Chip} {s : State} (h : chip.toNat < s.n) (r : Result) : ifChip chip s r = r := if_pos h

theorem ifChip_of_ge {chip : Chip} {s : State} (h : s.n ≤ chip.toNat) (r : Result) :
    ifChip chip s r = .refused .chipOutOfRange :=
  if_neg (Nat.not_lt.2 h)

/-! ## The operations on the wire -/

theorem exec_select (chip : Chip) (s : State) :
    exec (.select chip) s = ifChip chip s (.next (selectChip chip s)) := rfl

theorem exec_release (chip : Chip) (s : State) :
    exec (.release chip) s = ifChip chip s (.next (releaseChip chip s)) := rfl

theorem exec_cmd (chip : Chip) (code : Byte) (s : State) :
    exec (.cmd chip code) s = ifChip chip s (.next (sendCommand chip code s)) := rfl

theorem exec_wr (chip : Chip) (addr : Byte) (nib : Nibble) (s : State) :
    exec (.wr chip addr nib) s = ifChip chip s (.next (sendWrite chip addr nib s)) := rfl

theorem exec_swb (chip : Chip) (addr : Byte) (s : State) :
    exec (.swb chip addr) s = ifChip chip s (.next (beginStream chip addr s)) := rfl

theorem exec_swn (nib : Nibble) (s : State) : exec (.swn nib) s = .next (shiftNibble nib s) := rfl

theorem exec_swe (chip : Chip) (s : State) :
    exec (.swe chip) s = ifChip chip s (.next (releaseChip chip s)) := rfl

/-- The row FRAME_COMMAND sends the 12 bits of R71. -/
theorem exec_frameCommand (code : Byte) (s : State) :
    exec (.frameCommand code) s = .next (s.afterBits 0 (commandFrameBits code) false) :=
  congrArg Host.Outcome.next (shiftCommand_eq code s)

/-- The row FRAME_SUCCESSIVE_HEAD sends the first 10 bits of R73. -/
theorem exec_frameSuccessiveHead (addr : DeviceAddr) (s : State) :
    exec (.frameSuccessiveHead addr) s =
      .next (s.afterBits (addr.setWidth 16) (writeHeadBits addr) (addr.getLsbD 0)) :=
  congrArg Host.Outcome.next (shiftWriteHead_eq addr s)

/-- The row FRAME_WRITE sends the 14 bits of R72. -/
theorem exec_frameWrite (addr : DeviceAddr) (nib : Nibble) (s : State) :
    exec (.frameWrite addr nib) s =
      .next (s.afterBits (nib.setWidth 16) (writeFrameBits addr nib) (nib.getLsbD 0)) := by
  show Host.Outcome.next (shiftNibble nib (shiftWriteHead addr s)) = _
  rw [shiftNibble_eq, shiftWriteHead_eq, afterBits_afterBits]
  rfl

/-! ## Between a select and a release -/

/-- Bits between a select and a release are one frame (R70). -/
theorem releaseChip_afterBits_selectChip (chip : Chip) (s : State) (v : SerWord) (bits : List Bool) (last : Level) :
    releaseChip chip ((selectChip chip s).afterBits v bits last) = s.afterFrame chip.toNat v bits last := by
  simp [selectChip, releaseChip, State.afterBits, State.afterFrame, frameActions, setLine]

/-- A `SELECT` makes its chip-range check for the whole run that it begins (R105). -/
theorem runOps_select (chip : Chip) (ops : List Instr) (s : State) :
    runOps (.select chip :: ops) s = ifChip chip s (runOps ops (selectChip chip s)) := by
  by_cases hc : chip.toNat < s.n
  · rw [ifChip_of_lt hc, runOps_cons_next ((exec_select chip s).trans (ifChip_of_lt hc _))]
  · have hc := Nat.not_lt.1 hc
    rw [ifChip_of_ge hc, runOps_cons_refused ((exec_select chip s).trans (ifChip_of_ge hc _))]

/-- An operation that sends bits, between a select and a release, sends one frame (R70, R86). -/
theorem runOps_framed {i : Instr} {v : SerWord} {bits : List Bool} {last : Level}
    (hi : ∀ s, exec i s = .next (s.afterBits v bits last)) (chip : Chip) (s : State) :
    runOps [.select chip, i, .release chip] s = ifChip chip s (.next (s.afterFrame chip.toNat v bits last)) := by
  rw [runOps_select, runOps_cons_next (hi _), runOps_singleton, exec_release, releaseChip_afterBits_selectChip]
  by_cases hc : chip.toNat < s.n
  · rw [ifChip_of_lt hc, ifChip_of_lt hc, ifChip_of_lt (s := (selectChip chip s).afterBits v bits last) hc]
  · rw [ifChip_of_ge (Nat.not_lt.1 hc), ifChip_of_ge (Nat.not_lt.1 hc)]

/-- A head takes the low 7 bits of an address, so a 7-bit address may stand in a longer field (R75). -/
theorem shiftWriteHead_setWidth (addr : DeviceAddr) (s : State) :
    shiftWriteHead (addr.setWidth 8) s = shiftWriteHead addr s := by
  rw [shiftWriteHead_eq, shiftWriteHead_eq, msbFirst_setWidth addr 7 (by decide)]
  simp

/-- Settles O29: each row by its bits, and each frame operation as its row between a select and a release. -/
theorem framesAreSelectBitsRelease : Obligations.FramesAreSelectBitsRelease := by
  refine ⟨exec_frameCommand, exec_frameWrite, exec_frameSuccessiveHead, fun chip code s => ?_,
    fun chip addr nib s => ?_, fun chip addr s => ?_, fun addr nib s => rfl⟩
  · rw [runOps_framed (exec_frameCommand code), exec_cmd, sendCommand_eq]
  · rw [runOps_framed (exec_frameWrite _ nib), exec_wr, sendWrite_eq]
    rfl
  · rw [runOps_select, runOps_singleton, exec_swb, beginStream, shiftWriteHead_setWidth]
    rfl

/-! ## A stream of nibbles -/

/-- The bits of a successive write frame (R73), of the low 7 bits of an address (R75) and any number of nibbles. -/
def streamFrameBits {w : Nat} (addr : BitVec w) (nibs : List Nibble) : List Bool :=
  msbFirst writeTag 3 ++ msbFirst addr 7 ++ nibs.flatMap fun d => msbFirst d 4

theorem streamFrameBits_length {w : Nat} (addr : BitVec w) (nibs : List Nibble) :
    (streamFrameBits addr nibs).length = 10 + 4 * nibs.length := by
  simp [streamFrameBits, Nat.mul_comm]
  omega

theorem streamFrameBits_ne_nil {w : Nat} (addr : BitVec w) (nibs : List Nibble) : streamFrameBits addr nibs ≠ [] :=
  List.ne_nil_of_length_pos (by rw [streamFrameBits_length]; omega)

/-- Nibbles after bits are the longer list of bits (R123). -/
theorem runOps_nibbles (s : State) (nibs : List Nibble) : ∀ v bits last, ∃ v' last',
    runOps (nibs.map .swn) (s.afterBits v bits last) =
      .next (s.afterBits v' (bits ++ nibs.flatMap fun d => msbFirst d 4) last') := by
  induction nibs with
  | nil => exact fun v bits last => ⟨v, last, by simp⟩
  | cons d nibs ih =>
    intro v bits last
    obtain ⟨v', last', h⟩ := ih (d.setWidth 16) (bits ++ msbFirst d 4) (d.getLsbD 0)
    refine ⟨v', last', ?_⟩
    rw [List.map_cons, runOps_cons_next (exec_swn d _), shiftNibble_eq, afterBits_afterBits, h, List.flatMap_cons,
      List.append_assoc]

/-- `SWB`, any number of `SWN`, and `SWE` send one frame (R73, R84). -/
theorem runOps_stream {chip : Chip} {s : State} (hc : chip.toNat < s.n) (addr : Byte) (nibs : List Nibble) :
    ∃ v last, runOps (.swb chip addr :: nibs.map .swn ++ [.swe chip]) s =
      .next (s.afterFrame chip.toNat v (streamFrameBits addr nibs) last) := by
  obtain ⟨v, last, hnibs⟩ := runOps_nibbles (selectChip chip s) nibs (addr.setWidth 16)
    (msbFirst writeTag 3 ++ msbFirst addr 7) (addr.getLsbD 0)
  refine ⟨v, last, ?_⟩
  rw [List.cons_append, runOps_cons_next ((exec_swb chip addr s).trans (ifChip_of_lt hc _)), beginStream,
    shiftWriteHead_eq, runOps_append_next hnibs, runOps_singleton, exec_swe, releaseChip_afterBits_selectChip]
  exact ifChip_of_lt hc _

/-! ## What a frame adds to the received-bit view -/

section

variable {s : State} (hs : s.Inv) (hnone : s.noneSelected) {chip : Nat} (hc : chip < s.n)
include hs hnone hc

/-- With no chip selected the select line of every chip that exists is high (R12). -/
theorem level_of_noneSelected : s.lines.level (.cs chip) = some true := by
  have hlt : chip < s.lines.cs.length := by rwa [hs.cs_count]
  rw [Lines.level, List.getElem?_eq_getElem hlt, hnone _ (List.getElem_mem hlt)]

/-- A frame sets the select line back to the level it had (R104). -/
theorem afterFrame_cs (v : SerWord) (bits : List Bool) (last : Level) :
    (s.afterFrame chip v bits last).lines.cs = s.lines.cs := by
  obtain ⟨hlt, hhigh⟩ := List.getElem?_eq_some_iff.1 (level_of_noneSelected hs hnone hc)
  show s.lines.cs.set chip true = s.lines.cs
  rw [← hhigh, List.set_getElem_self]

/-- A frame with bits is one more finished window, and none is left open (R26, R70). -/
theorem windows_afterFrame (v : SerWord) {bits : List Bool} (hbits : bits ≠ []) (last : Level) :
    (s.afterFrame chip v bits last).windows = s.windows ++ [(chip, bits)] ∧
      (s.afterFrame chip v bits last).unfinished = [] := by
  have hhigh : s.received.lines.level (.cs chip) = some true := by
    rw [received_lines hs]
    exact level_of_noneSelected hs hnone hc
  have hreceived : (s.afterFrame chip v bits last).received = (frameActions chip bits).foldl Replay.act s.received :=
    received_append hs.trace_reset rfl rfl
  rw [replay_frame _ chip bits hbits (unfinished_of_noneSelected hs hnone) hhigh] at hreceived
  exact ⟨congrArg Replay.out hreceived, congrArg Replay.opened hreceived⟩

end

/-- Settles O24: the operations send one frame, and a frame is one window. -/
theorem streamIsOneWindow : Obligations.StreamIsOneWindow := by
  intro chip addr nibs s hs hnone hc
  obtain ⟨v, last, hrun⟩ := runOps_stream hc addr nibs
  obtain ⟨hwindows, hunfinished⟩ := windows_afterFrame hs hnone hc v (streamFrameBits_ne_nil addr nibs) last
  exact ⟨_, hrun, hwindows, hunfinished, afterFrame_cs hs hnone hc _ _ _⟩

end Sys2Proof.Machine
end

section
/-! PROOFS. The serializer and the multiplexer (`40_serializer_mux.md` R100 to R105). The key facts are that the bits
of a concatenated word are those of its parts, and that a drive of a select line opens or finishes the window of its own
chip and leaves everything else. -/

namespace Sys2Proof.Machine

/-! ## Bits of a field -/

theorem msbFirst_getElem? {w k j : Nat} (v : BitVec w) (hj : j < k) :
    (msbFirst v k)[j]? = some (v.getLsbD (k - 1 - j)) := by
  induction k generalizing j with
  | zero => omega
  | succ k ih =>
    cases j with
    | zero => rfl
    | succ j =>
      rw [msbFirst, List.getElem?_cons_succ, ih (by omega)]
      congr 2
      omega

/-- The low `k` bits are those of any word with the same low bits. -/
theorem msbFirst_congr {w k : Nat} {u v : BitVec w} (h : ∀ j < k, u.getLsbD j = v.getLsbD j) :
    msbFirst u k = msbFirst v k := by
  induction k with
  | zero => rfl
  | succ k ih => rw [msbFirst, msbFirst, h k (by omega), ih fun j hj => h j (by omega)]

/-- The low `k + m` bits are `k` bits of the word above its low `m`, then the low `m`. -/
theorem msbFirst_add {w k m : Nat} (u : BitVec w) : msbFirst u (k + m) = msbFirst (u >>> m) k ++ msbFirst u m := by
  induction k with
  | zero => simp [msbFirst]
  | succ k ih =>
    rw [Nat.succ_add, msbFirst, msbFirst, ih, BitVec.getLsbD_ushiftRight, Nat.add_comm m k, List.cons_append]

/-- The word `2^m - 1` has exactly its low `m` bits set. -/
theorem getLsbD_lowMask {m : Nat} (hm : m < 16) (j : Nat) : ((1#16 <<< m) - 1#16).getLsbD j = decide (j < m) := by
  have hlt : 2 ^ m < 2 ^ 16 := Nat.pow_lt_pow_right (by decide) hm
  have hpos : 0 < 2 ^ m := Nat.two_pow_pos m
  have hval : ((1#16 <<< m) - 1#16).toNat = 2 ^ m - 1 := by
    rw [BitVec.toNat_sub, BitVec.toNat_shiftLeft, Nat.shiftLeft_eq, BitVec.toNat_ofNat]
    omega
  rw [← BitVec.testBit_toNat, hval, Nat.testBit_two_pow_sub_one]

/-- `{v[k-1:0], w[m-1:0]}`: the word that holds `m` bits of `w` below the bits of `v` (R101). -/
def concatWord (v w : SerWord) (m : Nat) : SerWord := (v <<< m) ||| (w &&& ((1#16 <<< m) - 1#16))

theorem getLsbD_concatWord {v w : SerWord} {m : Nat} (hm : m < 16) {j : Nat} (hj : j < 16) :
    (concatWord v w m).getLsbD j = if j < m then w.getLsbD j else v.getLsbD (j - m) := by
  rw [concatWord, BitVec.getLsbD_or, BitVec.getLsbD_and, BitVec.getLsbD_shiftLeft, getLsbD_lowMask hm]
  by_cases h : j < m <;> simp [h, hj]

/-- The bits of a concatenation are the bits of its parts, in order (R101). -/
theorem msbFirst_concatWord {v w : SerWord} {k m : Nat} (hk : 1 ≤ k) (h16 : k + m ≤ 16) :
    msbFirst (concatWord v w m) (k + m) = msbFirst v k ++ msbFirst w m := by
  have hm : m < 16 := by omega
  have hhigh : msbFirst (concatWord v w m >>> m) k = msbFirst v k := msbFirst_congr fun j hj => by
    rw [BitVec.getLsbD_ushiftRight, getLsbD_concatWord hm (by omega), if_neg (by omega), Nat.add_sub_cancel_left]
  have hlow : msbFirst (concatWord v w m) m = msbFirst w m := msbFirst_congr fun j hj => by
    rw [getLsbD_concatWord hm (by omega), if_pos hj]
  rw [msbFirst_add, hhigh, hlow]

/-! ## Bits on the wire -/

theorem countFits_iff {k : Nat} : countFits k = true ↔ 1 ≤ k ∧ k ≤ 16 := by simp [countFits]

/-- `SHIFT` with a count that a word can carry completes and sends its bits (R101). -/
theorem exec_shift {k : Nat} (hk : 1 ≤ k) (h16 : k ≤ 16) (v : SerWord) (s : State) :
    exec (.shift v k) s = .next (s.afterBits v (msbFirst v k) (v.getLsbD 0)) := by
  rw [exec, execShift, if_pos (countFits_iff.2 ⟨hk, h16⟩), shiftOut_eq v k hk h16]

/-- A `SHIFT` that completes had a count that a word can carry (log 12). -/
theorem exec_shift_next {v : SerWord} {k : Nat} {s t : State} (h : exec (.shift v k) s = .next t) :
    1 ≤ k ∧ k ≤ 16 ∧ t = s.afterBits v (msbFirst v k) (v.getLsbD 0) := by
  by_cases hfits : countFits k = true
  · obtain ⟨hk, h16⟩ := countFits_iff.1 hfits
    rw [exec_shift hk h16] at h
    cases h
    exact ⟨hk, h16, rfl⟩
  · rw [exec, execShift, if_neg hfits] at h
    cases h

theorem encode_shift_count (v : SerWord) (n : BitVec 4) :
    encode (.shift v (n.toNat + 1)) = .opWord (place 0x01#8 24 ||| place n 20 ||| place v 0) := by
  rw [encode, Nat.add_sub_cancel, BitVec.ofNat_toNat, BitVec.setWidth_eq]

/-- Bits go to every open window and finish none (R26, R104). -/
theorem windows_afterBits {s : State} (hs : s.Inv) (v : SerWord) (bits : List Bool) (last : Level) :
    (s.afterBits v bits last).unfinished = s.unfinished.map (fun w => (w.1, w.2 ++ bits)) ∧
      (s.afterBits v bits last).windows = s.windows := by
  have hreceived : (s.afterBits v bits last).received = (bitActions bits).foldl Replay.act s.received :=
    received_append hs.trace_reset rfl rfl
  rw [replay_bits] at hreceived
  exact ⟨congrArg Replay.opened hreceived, (congrArg Replay.out hreceived :)⟩

/-- What an operation that only sends bits adds to the received-bit view (R104). -/
theorem windows_of_sends {i : Instr} {v : SerWord} {bits : List Bool} {last : Level} {s t : State} (hs : s.Inv)
    (hi : exec i s = .next (s.afterBits v bits last)) (h : exec i s = .next t) :
    t.unfinished = s.unfinished.map (fun w => (w.1, w.2 ++ bits)) ∧ t.windows = s.windows := by
  rw [hi] at h
  cases h
  exact windows_afterBits hs v bits last

/-- Two shifts send what one shift of the concatenation sends, and leave the same levels (R101). -/
theorem shift_concatWord {v w : SerWord} {k m : Nat} {s t : State} (hk : 1 ≤ k) (hm : 1 ≤ m) (h16 : k + m ≤ 16)
    (h : runOps [.shift v k, .shift w m] s = .next t) :
    ∃ t', exec (.shift (concatWord v w m) (k + m)) s = .next t' ∧ t'.trace = t.trace ∧ t'.lines = t.lines := by
  rw [runOps_cons_next (exec_shift hk (by omega) v s), runOps_singleton, exec_shift hm (by omega),
    afterBits_afterBits] at h
  cases h
  have hlast : (concatWord v w m).getLsbD 0 = w.getLsbD 0 := by
    rw [getLsbD_concatWord (by omega) (by decide), if_pos (by omega)]
  refine ⟨_, exec_shift (by omega) h16 _ s, ?_, ?_⟩
  · rw [State.afterBits, State.afterBits, msbFirst_concatWord hk h16]
  · rw [State.afterBits, State.afterBits, hlast]

/-- Settles O14: the shift is one update by its bits, and the bits of the concatenation are those of the two parts. -/
theorem shiftSendsTheLowBitsMsbFirst : Obligations.ShiftSendsTheLowBitsMsbFirst := by
  refine ⟨encode_shift_count, fun v k s hk h16 => ⟨exec_shift hk h16 v s, ?_, fun j hj => msbFirst_getElem? v hj⟩,
    fun v k s t hs hk h16 h => windows_of_sends hs (exec_shift hk h16 v s) h,
    fun v w k m s t hk hm h16 h => shift_concatWord hk hm h16 h⟩
  rw [State.afterBits, List.length_append, bitActions_length, msbFirst_length]

/-- Settles O13: the case `k = 1` of the shift. -/
theorem oneBitIsThreeActions : Obligations.OneBitIsThreeActions :=
  fun v s => ⟨_, exec_shift (by decide) (by decide) v s, rfl, rfl, rfl⟩

/-- Settles O17: an open window is a low select line, and each of the five operations is one update by its bits. -/
theorem bitsReachEverySelectedChip : Obligations.BitsReachEverySelectedChip := by
  intro s hs
  refine ⟨fun i => ?_, ?_⟩
  · rw [← received_lines hs]
    exact (received_tracks s).low_iff i
  · rintro i bits t (⟨v, k, hk, h16, rfl, rfl⟩ | ⟨nib, rfl, rfl⟩ | ⟨code, rfl, rfl⟩ |
      ⟨addr, nib, rfl, rfl⟩ | ⟨addr, rfl, rfl⟩) h
    · exact windows_of_sends hs (exec_shift hk h16 v s) h
    · exact windows_of_sends hs ((exec_swn nib s).trans (congrArg _ (shiftNibble_eq nib s))) h
    · exact windows_of_sends hs (exec_frameCommand code s) h
    · exact windows_of_sends hs (exec_frameWrite addr nib s) h
    · exact windows_of_sends hs (exec_frameSuccessiveHead addr s) h

/-! ## One drive of a select line -/

/-- Driving a line to the level it has changes no latch (R9). -/
theorem drive_of_level {ls : Lines} {l : Line} {v : Level} (h : ls.level l = some v) : ls.drive l v = ls := by
  refine lines_ext fun l' => ?_
  rw [level_drive]
  split
  · subst l'
    rw [h]
    rfl
  · rfl

/-- Driving a select line to the level it has opens and finishes no window (R26). -/
theorem replay_same_level {r : Replay} {i : Nat} {v : Level} (h : r.lines.level (.cs i) = some v) :
    r.act (.set (.cs i) v) = r := by
  have hlines : r.lines.perform (.set (.cs i) v) = r.lines := drive_of_level h
  cases v <;> simp [Replay.act, Replay.windows, hlines, h]

/-- Driving the select line of a released chip low opens an empty window for it, after those already open (R26). -/
theorem replay_select {r : Replay} (hr : r.Tracks) {i : Nat} (h : r.lines.level (.cs i) = some true) :
    (r.act (.set (.cs i) false)).opened = r.opened ++ [(i, [])] ∧ (r.act (.set (.cs i) false)).out = r.out := by
  have hclosed : r.opened.filter (fun w => w.1 ≠ i) = r.opened := by
    refine List.filter_eq_self.2 fun w hw => decide_eq_true ?_
    rintro rfl
    have hlow := (hr.low_iff w.1).1 (List.mem_map_of_mem hw)
    simp [h] at hlow
  simp only [Replay.act, Replay.windows, h, and_self, if_true, hclosed]

/-- The window of a chip is the one found by its number, each chip having one at most. -/
theorem lookup_of_mem {ws : List Window} (hnodup : (ws.map Prod.fst).Nodup) {i : Nat} {bits : List Bool}
    (h : (i, bits) ∈ ws) : ws.lookup i = some bits := by
  obtain ⟨before, after, rfl⟩ := List.append_of_mem h
  refine List.lookup_eq_some_iff.2 ⟨before, after, rfl, fun w hw => ?_⟩
  rw [List.map_append, List.map_cons] at hnodup
  refine bne_iff_ne.2 ?_
  rintro rfl
  exact List.disjoint_of_nodup_append hnodup (List.mem_map_of_mem hw) List.mem_cons_self

/-- Driving the select line of a selected chip high finishes its window and leaves the others open (R26). -/
theorem replay_release {r : Replay} (hr : r.Tracks) {i : Nat} {bits : List Bool} (h : (i, bits) ∈ r.opened) :
    (r.act (.set (.cs i) true)).out = r.out ++ [(i, bits)] ∧
      (r.act (.set (.cs i) true)).opened = r.opened.filter (fun w => w.1 ≠ i) := by
  have hlow : r.lines.level (.cs i) = some false := (hr.low_iff i).1 (List.mem_map.2 ⟨_, h, rfl⟩)
  have hbits : r.opened.lookup i = some bits := lookup_of_mem hr.nodup h
  simp [Replay.act, Replay.windows, hlow, hbits]

section

variable {s : State} (hs : s.Inv) {l : Line} {v : Level}
include hs

theorem received_setLine : (setLine l v s).received = s.received.act (.set l v) :=
  received_append (acts := [.set l v]) hs.trace_reset rfl rfl

/-- Driving a line to the level it has is no transition of `T2` (R25). -/
theorem transitionTrace_setLine (h : s.lines.level l = some v) :
    (setLine l v s).transitionTrace = s.transitionTrace := by
  rw [hs.trace_levels] at h
  obtain ⟨hset, -⟩ := transitionTraceKeepsChanges
  rw [State.transitionTrace, setLine_trace, hset, if_pos h, List.append_nil]
  rfl

/-- Driving a select line to the level it has adds nothing to `T3` (R26). -/
theorem received_setLine_same {i : Nat} (h : s.lines.level (.cs i) = some v) :
    (setLine (.cs i) v s).received = s.received := by
  rw [received_setLine hs, replay_same_level (by rwa [received_lines hs])]

end

/-- An operation with a chip operand that completes reaches the state its meaning gives (R105). -/
theorem eq_of_ifChip {chip : Chip} {s t u : State} (h : ifChip chip s (.next u) = .next t) : t = u := by
  obtain ⟨-, h⟩ := ifChip_next h
  cases h
  rfl

/-- Settles O15: `SELECT` is one drive, to the level the line has or opening a window. -/
theorem selectDrivesOnlyItsLineLow : Obligations.SelectDrivesOnlyItsLineLow := by
  refine fun chip s => ⟨rfl, fun hc => ifChip_of_lt hc _, fun hc => ifChip_of_ge hc _, fun t hs h hlow => ?_,
    fun t hs h hhigh => ?_⟩
  · obtain rfl := eq_of_ifChip h
    have hreceived := received_setLine_same hs hlow
    exact ⟨drive_of_level hlow, transitionTrace_setLine hs hlow, congrArg Replay.out hreceived,
      congrArg Replay.opened hreceived⟩
  · obtain rfl := eq_of_ifChip h
    rw [← received_lines hs] at hhigh
    obtain ⟨hopened, hout⟩ := replay_select (received_tracks s) hhigh
    rw [← received_setLine hs] at hopened hout
    exact ⟨hout, hopened⟩

/-- Settles O16: `RELEASE` is one drive, finishing a window or to the level the line has. -/
theorem releaseDrivesOnlyItsLineHigh : Obligations.ReleaseDrivesOnlyItsLineHigh := by
  refine fun chip s => ⟨rfl, fun hc => ifChip_of_lt hc _, fun hc => ifChip_of_ge hc _, fun t bits hs h hopen => ?_,
    fun t hs h hhigh => ?_⟩
  · obtain rfl := eq_of_ifChip h
    have hrelease := replay_release (received_tracks s) hopen
    rwa [← received_setLine hs] at hrelease
  · obtain rfl := eq_of_ifChip h
    have hreceived := received_setLine_same hs hhigh
    exact ⟨drive_of_level hhigh, congrArg Replay.out hreceived, congrArg Replay.opened hreceived⟩

/-- Settles O18: each of the operations makes the chip check first. -/
theorem chipOutOfRangeIsRefused : Obligations.ChipOutOfRangeIsRefused :=
  fun _ _ h => ⟨ifChip_of_ge h _, ifChip_of_ge h _, fun _ => ifChip_of_ge h _, fun _ _ => ifChip_of_ge h _,
    fun _ => ifChip_of_ge h _, ifChip_of_ge h _, fun _ => ifChip_of_ge h _, fun _ => ifChip_of_ge h _,
    ifChip_of_ge h _, fun _ => ifChip_of_ge h _, fun _ _ => ifChip_of_ge h _⟩

end Sys2Proof.Machine
end

section
/-! PROOFS. The wire side and the framebuffer (introduction of `41_frame_encoder.md`). The key fact is that bits and
frames are updates of `LINE`, `SR` and `T` alone, so other framebuffer values may be put in before or after them. -/

namespace Sys2Proof.Machine

/-- The state with other values of `INITED`, `GEOM`, both banks and `ACT`. -/
def State.withFramebuffer (s : State) (b : Bool) (g : Option Geometry) (m m' : Memory) (a : Bank) : State :=
  { s with inited := b, geom := g, fb0 := m, fb1 := m', act := a }

/-- The update neither reads nor writes the framebuffer: other values put in before it or after it give the same. -/
def IgnoresFramebuffer (f : State → State) : Prop :=
  ∀ s b g m m' a, f (s.withFramebuffer b g m m' a) = (f s).withFramebuffer b g m m' a

theorem setLine_ignoresFramebuffer (l : Line) (v : Level) : IgnoresFramebuffer (setLine l v) :=
  fun _ _ _ _ _ _ => rfl

theorem respond_ignoresFramebuffer (v : Nat) : IgnoresFramebuffer (respond v) :=
  fun _ _ _ _ _ _ => rfl

theorem afterBits_ignoresFramebuffer (v : SerWord) (bits : List Bool) (last : Level) :
    IgnoresFramebuffer fun s => s.afterBits v bits last :=
  fun _ _ _ _ _ _ => rfl

theorem afterFrames_ignoresFramebuffer (chip : Nat) (v : SerWord) (frames : List (List Bool)) (last : Level) :
    IgnoresFramebuffer fun s => s.afterFrames chip v frames last :=
  fun _ _ _ _ _ _ => rfl

theorem IgnoresFramebuffer.comp {f f' : State → State} (h : IgnoresFramebuffer f) (h' : IgnoresFramebuffer f') :
    IgnoresFramebuffer fun s => f' (f s) := by
  intro s b g m m' a
  show f' (f _) = _
  rw [h, h']

theorem shiftNibble_ignoresFramebuffer (nib : Nibble) : IgnoresFramebuffer (shiftNibble nib) := by
  rw [funext (shiftNibble_eq nib)]
  exact afterBits_ignoresFramebuffer _ _ _

theorem shiftWriteHead_ignoresFramebuffer {w : Nat} (addr : BitVec w) : IgnoresFramebuffer (shiftWriteHead addr) := by
  rw [funext (shiftWriteHead_eq addr)]
  exact afterBits_ignoresFramebuffer _ _ _

theorem shiftCommand_ignoresFramebuffer (code : Byte) : IgnoresFramebuffer (shiftCommand code) := by
  rw [funext (shiftCommand_eq code)]
  exact afterBits_ignoresFramebuffer _ _ _

theorem sendCommand_ignoresFramebuffer (chip : Chip) (code : Byte) : IgnoresFramebuffer (sendCommand chip code) :=
  ((setLine_ignoresFramebuffer _ _).comp (shiftCommand_ignoresFramebuffer code)).comp (setLine_ignoresFramebuffer _ _)

theorem beginStream_ignoresFramebuffer (chip : Chip) (addr : Byte) : IgnoresFramebuffer (beginStream chip addr) :=
  (setLine_ignoresFramebuffer _ _).comp (shiftWriteHead_ignoresFramebuffer addr)

theorem sendWrite_ignoresFramebuffer (chip : Chip) (addr : Byte) (nib : Nibble) :
    IgnoresFramebuffer (sendWrite chip addr nib) :=
  ((beginStream_ignoresFramebuffer chip addr).comp (shiftNibble_ignoresFramebuffer nib)).comp
    (setLine_ignoresFramebuffer _ _)

theorem clearChip_ignoresFramebuffer (chip : Chip) : IgnoresFramebuffer (clearChip chip) := by
  rw [funext (clearChip_eq chip)]
  exact afterFrames_ignoresFramebuffer _ _ _ _

section

variable {s t : State} {b : Bool} {g : Option Geometry} {m m' : Memory} {a : Bank} {f : State → State}

theorem next_withFramebuffer (hf : IgnoresFramebuffer f) (h : (.next (f s) : Result) = .next t) :
    (.next (f (s.withFramebuffer b g m m' a)) : Result) = .next (t.withFramebuffer b g m m' a) := by
  cases h
  rw [hf]

/-- The chip check reads `N` alone (R105). -/
theorem ifChip_withFramebuffer {chip : Chip} (hf : IgnoresFramebuffer f) (h : ifChip chip s (.next (f s)) = .next t) :
    ifChip chip (s.withFramebuffer b g m m' a) (.next (f (s.withFramebuffer b g m m' a))) =
      .next (t.withFramebuffer b g m m' a) := by
  obtain ⟨hc, h⟩ := ifChip_next h
  rw [ifChip_of_lt (s := s.withFramebuffer b g m m' a) hc, next_withFramebuffer hf h]

theorem exec_shift_withFramebuffer {v : SerWord} {k : Nat} (h : exec (.shift v k) s = .next t) :
    exec (.shift v k) (s.withFramebuffer b g m m' a) = .next (t.withFramebuffer b g m m' a) := by
  obtain ⟨hk, h16, rfl⟩ := exec_shift_next h
  exact exec_shift hk h16 v (s.withFramebuffer b g m m' a)

end

/-- Settles O30, operation by operation. -/
theorem encoderIgnoresTheFramebuffer : Obligations.EncoderIgnoresTheFramebuffer := by
  intro i s t b g m m' a hfb hflush hinit h
  cases i with
  | shift value k => exact exec_shift_withFramebuffer h
  | select chip => exact ifChip_withFramebuffer (setLine_ignoresFramebuffer _ _) h
  | release chip => exact ifChip_withFramebuffer (setLine_ignoresFramebuffer _ _) h
  | cmd chip code => exact ifChip_withFramebuffer (sendCommand_ignoresFramebuffer chip code) h
  | wr chip addr nib => exact ifChip_withFramebuffer (sendWrite_ignoresFramebuffer chip addr nib) h
  | swb chip addr => exact ifChip_withFramebuffer (beginStream_ignoresFramebuffer chip addr) h
  | swn nib => exact next_withFramebuffer (shiftNibble_ignoresFramebuffer nib) h
  | swe chip => exact ifChip_withFramebuffer (setLine_ignoresFramebuffer _ _) h
  | bright chip level => exact ifChip_withFramebuffer (sendCommand_ignoresFramebuffer chip _) h
  | blink chip on => exact ifChip_withFramebuffer (sendCommand_ignoresFramebuffer chip _) h
  | cclr chip => exact ifChip_withFramebuffer (clearChip_ignoresFramebuffer chip) h
  | rdd chip addr => exact ifChip_withFramebuffer (respond_ignoresFramebuffer 0) h
  | flush => exact absurd rfl hflush
  | init chip mode geom => exact absurd rfl (hinit chip mode geom)
  | frameCommand code => exact next_withFramebuffer (shiftCommand_ignoresFramebuffer code) h
  | frameWrite addr nib =>
    exact next_withFramebuffer
      ((shiftWriteHead_ignoresFramebuffer addr).comp (shiftNibble_ignoresFramebuffer nib)) h
  | frameSuccessiveHead addr => exact next_withFramebuffer (shiftWriteHead_ignoresFramebuffer addr) h
  | setpx | clrpx | drawpx | getpx | cls | fills | setbyte | setact | swap => cases hfb

end Sys2Proof.Machine
end

section
/-! PROOFS. The operations of the frame encoder (`41_frame_encoder.md` R120 to R128). The key fact is that a select
leaves the chip with an open window, its old one if it was selected already and an empty one if not, so a frame always
finishes one window: what the chip had received, then the frame's bits. -/

namespace Sys2Proof.Machine

/-! ## Bits and actions of frames -/

theorem commandFrameBits_length (code : Byte) : (commandFrameBits code).length = 12 := by simp [commandFrameBits]

theorem writeHeadBits_length (addr : DeviceAddr) : (writeHeadBits addr).length = 10 := by simp [writeHeadBits]

theorem writeFrameBits_length (addr : DeviceAddr) (nib : Nibble) : (writeFrameBits addr nib).length = 14 := by
  simp [writeFrameBits, writeHeadBits_length]

theorem frameActions_length (chip : Nat) (bits : List Bool) :
    (frameActions chip bits).length = 3 * bits.length + 2 := by
  simp [frameActions, bitActions_length]

/-- Of an 8-bit address the low 7 bits go out, whatever the upper ones are (R72, R75). -/
theorem writeFrameBits_deviceAddr (addr : Byte) (nib : Nibble) :
    writeFrameBits (deviceAddr addr) nib = [true, false, true] ++ msbFirst addr 7 ++ msbFirst nib 4 := by
  rw [writeFrameBits, writeHeadBits, msbFirst_deviceAddr]
  rfl

/-- The frame at device address `a` modulo 128 (R127). -/
theorem clearBits_eq (a : Nat) :
    clearBits a = [true, false, true] ++ msbFirst (BitVec.ofNat 7 a) 7 ++ [false, false, false, false] := by
  have haddr : deviceAddr (BitVec.ofNat 8 a) = BitVec.ofNat 7 a := BitVec.setWidth_ofNat_of_le (by decide) a
  rw [clearBits, haddr]
  rfl

theorem clearBits_length (a : Nat) : (clearBits a).length = 14 := writeFrameBits_length _ _

theorem flatMap_frameActions_length {frames : List (List Bool)} {k : Nat} (chip : Nat)
    (hk : ∀ f ∈ frames, f.length = k) :
    (frames.flatMap (frameActions chip)).length = frames.length * (3 * k + 2) := by
  have hlength : frames.map (fun f => (frameActions chip f).length) = frames.map fun _ => 3 * k + 2 :=
    List.map_congr_left fun f hf => by rw [frameActions_length, hk f hf]
  rw [List.length_flatMap, hlength, List.map_const', List.sum_replicate, smul_eq_mul]

/-! ## What a frame adds to the received-bit view -/

/-- After a select the chip has an open window: the one it had, or else a new, empty one. Nothing else changes (R26). -/
theorem replay_select_opened {r : Replay} (hr : r.Tracks) {i : Nat} {v : Level} (h : r.lines.level (.cs i) = some v) :
    (i, (r.opened.lookup i).getD []) ∈ (r.act (.set (.cs i) false)).opened ∧
      (r.act (.set (.cs i) false)).opened.filter (fun w => w.1 ≠ i) = r.opened.filter (fun w => w.1 ≠ i) ∧
      (r.act (.set (.cs i) false)).out = r.out := by
  cases v with
  | false =>
    obtain ⟨⟨_, bits⟩, hmem, rfl⟩ := List.mem_map.1 ((hr.low_iff i).2 h)
    rw [replay_same_level h, lookup_of_mem hr.nodup hmem]
    exact ⟨hmem, rfl, rfl⟩
  | true =>
    have hclosed : i ∉ r.opened.map Prod.fst := fun hi => by
      have hlow := (hr.low_iff i).1 hi
      simp [h] at hlow
    have hlookup : r.opened.lookup i = none := List.lookup_eq_none_iff.2 fun w hw =>
      bne_iff_ne.2 fun hi => hclosed (hi ▸ List.mem_map_of_mem hw)
    obtain ⟨hopened, hout⟩ := replay_select hr h
    rw [hopened, hlookup, List.filter_append]
    exact ⟨by simp, by simp, hout⟩

/-- One frame to a chip, selected before or not, finishes one window; the other open windows receive the bits (R104). -/
theorem replay_frameActions {r : Replay} (hr : r.Tracks) {i : Nat} {v : Level} (h : r.lines.level (.cs i) = some v)
    (bits : List Bool) :
    ((frameActions i bits).foldl Replay.act r).out = r.out ++ [(i, (r.opened.lookup i).getD [] ++ bits)] ∧
      ((frameActions i bits).foldl Replay.act r).opened =
        (r.opened.filter fun w => w.1 ≠ i).map fun w => (w.1, w.2 ++ bits) := by
  obtain ⟨hmem, hothers, hout⟩ := replay_select_opened hr h
  have hsent := replay_bits bits (r.act (.set (.cs i) false))
  have htracks := tracks_foldl (bitActions bits) (tracks_act hr (.set (.cs i) false))
  have hopen : (i, (r.opened.lookup i).getD [] ++ bits) ∈
      ((bitActions bits).foldl Replay.act (r.act (.set (.cs i) false))).opened := by
    rw [hsent]
    exact List.mem_map.2 ⟨_, hmem, rfl⟩
  obtain ⟨hfinished, hleft⟩ := replay_release htracks hopen
  rw [frameActions, List.cons_append, List.foldl_cons, List.foldl_append, List.foldl_cons, List.foldl_nil,
    hfinished, hleft, hsent, hout, ← hothers, List.filter_map]
  exact ⟨rfl, rfl⟩

/-- A select line that exists has a level (R12). -/
theorem State.Inv.level_cs {s : State} (hs : s.Inv) {i : Nat} (hi : i < s.n) : ∃ v, s.lines.level (.cs i) = some v :=
  ⟨_, List.getElem?_eq_getElem (by rwa [hs.cs_count])⟩

/-- The open window of a chip is finished with the frame's bits at its end (R26, R120 (b)). -/
theorem windows_afterFrame_of_lt {s : State} (hs : s.Inv) {chip : Nat} (hc : chip < s.n) (v : SerWord)
    (bits : List Bool) (last : Level) :
    (s.afterFrame chip v bits last).windows =
        s.windows ++ [(chip, (s.unfinished.lookup chip).getD [] ++ bits)] ∧
      (s.afterFrame chip v bits last).unfinished =
        (s.unfinished.filter fun w => w.1 ≠ chip).map fun w => (w.1, w.2 ++ bits) := by
  obtain ⟨level, hlevel⟩ := hs.level_cs hc
  rw [← received_lines hs] at hlevel
  have hreceived : (s.afterFrame chip v bits last).received = (frameActions chip bits).foldl Replay.act s.received :=
    received_append hs.trace_reset rfl rfl
  have hreplay := replay_frameActions (received_tracks s) hlevel bits
  rwa [← hreceived] at hreplay

/-- With no chip selected each of a list of frames is one more finished window, and none is left open (R127). -/
theorem windows_afterFrames {s : State} (hs : s.Inv) (hnone : s.noneSelected) {chip : Nat} (hc : chip < s.n)
    (v : SerWord) {frames : List (List Bool)} (hframes : ∀ f ∈ frames, f ≠ []) (last : Level) :
    (s.afterFrames chip v frames last).windows = s.windows ++ frames.map (fun f => (chip, f)) ∧
      (s.afterFrames chip v frames last).unfinished = [] := by
  have hhigh := level_of_noneSelected hs hnone hc
  rw [← received_lines hs] at hhigh
  have hreceived : (s.afterFrames chip v frames last).received =
      (frames.flatMap (frameActions chip)).foldl Replay.act s.received := received_append hs.trace_reset rfl rfl
  have hreplay := replay_frames frames chip s.received hframes (unfinished_of_noneSelected hs hnone) hhigh
  rwa [← hreceived] at hreplay

/-! ## Operations that send one frame -/

section

variable {i : Instr} {chip : Chip} {v : SerWord} {bits : List Bool} {last : Level} {s t : State} (hs : s.Inv)
  (hi : exec i s = ifChip chip s (.next (s.afterFrame chip.toNat v bits last))) (h : exec i s = .next t)
include hs hi h

theorem windows_of_sendsFrame :
    t.windows = s.windows ++ [(chip.toNat, (s.unfinished.lookup chip.toNat).getD [] ++ bits)] ∧
      t.unfinished = (s.unfinished.filter fun w => w.1 ≠ chip.toNat).map fun w => (w.1, w.2 ++ bits) := by
  rw [hi] at h
  obtain ⟨hc, ⟨⟩⟩ := ifChip_next h
  exact windows_afterFrame_of_lt hs hc v bits last

theorem windows_of_sendsFrame_noneSelected (hnone : s.noneSelected) (hbits : bits ≠ []) :
    t.windows = s.windows ++ [(chip.toNat, bits)] ∧ t.unfinished = [] ∧
      t.trace.length = s.trace.length + (3 * bits.length + 2) := by
  rw [hi] at h
  obtain ⟨hc, ⟨⟩⟩ := ifChip_next h
  obtain ⟨hwindows, hunfinished⟩ := windows_afterFrame hs hnone hc v hbits last
  refine ⟨hwindows, hunfinished, ?_⟩
  rw [State.afterFrame, List.length_append, frameActions_length]

end

theorem exec_cmd_eq (chip : Chip) (code : Byte) (s : State) : exec (.cmd chip code) s =
    ifChip chip s (.next (s.afterFrame chip.toNat 0 (commandFrameBits code) false)) := by
  rw [exec_cmd, sendCommand_eq]

theorem exec_wr_eq (chip : Chip) (addr : Byte) (nib : Nibble) (s : State) : exec (.wr chip addr nib) s =
    ifChip chip s (.next (s.afterFrame chip.toNat (nib.setWidth 16)
      ([true, false, true] ++ msbFirst addr 7 ++ msbFirst nib 4) (nib.getLsbD 0))) := by
  rw [exec_wr, sendWrite_eq, writeFrameBits_deviceAddr]

/-- Settles O19: a command is one frame, and a frame finishes one window. -/
theorem commandFrameHasTwelveBits : Obligations.CommandFrameHasTwelveBits := by
  intro chip code s
  have hexec := exec_cmd_eq chip code s
  refine ⟨rfl, fun hc => hexec.trans (ifChip_of_lt hc _), fun hc => ifChip_of_ge hc _,
    fun t hs h => windows_of_sendsFrame hs hexec h, fun t hs hnone h => ?_⟩
  have hframe := windows_of_sendsFrame_noneSelected hs hexec h hnone (List.cons_ne_nil _ _)
  rwa [commandFrameBits_length] at hframe

/-- Settles O20: a write is one frame, and a frame finishes one window. -/
theorem writeFrameHasFourteenBits : Obligations.WriteFrameHasFourteenBits := by
  intro chip addr nib s
  have hexec := exec_wr_eq chip addr nib s
  exact ⟨rfl, fun hc => hexec.trans (ifChip_of_lt hc _), fun hc => ifChip_of_ge hc _,
    fun t hs h => windows_of_sendsFrame hs hexec h,
    fun t hs hnone h => windows_of_sendsFrame_noneSelected hs hexec h hnone (List.cons_ne_nil _ _)⟩

/-! ## The commands under a name of their own -/

/-- Settles O25: `BRIGHT` is a `CMD` by its meaning. -/
theorem brightnessIsTheOredCommand : Obligations.BrightnessIsTheOredCommand := by
  intro chip level s
  obtain ⟨-, hnext, hrefused, -⟩ := commandFrameHasTwelveBits chip (brightCode Config.cc level) s
  exact ⟨rfl, rfl, hnext, hrefused⟩

/-- Settles O26: `BLINK` is a `CMD` by its meaning. -/
theorem blinkIsItsCommand : Obligations.BlinkIsItsCommand := by
  intro chip on s
  obtain ⟨-, hnext, hrefused, -⟩ := commandFrameHasTwelveBits chip (blinkCode Config.cc on) s
  exact ⟨rfl, rfl, hnext, hrefused⟩

/-! ## The three parts of a stream -/

/-- The head goes out to a chip that stays selected (R122). -/
theorem exec_swb_eq (chip : Chip) (addr : Byte) (s : State) : exec (.swb chip addr) s =
    ifChip chip s (.next ((selectChip chip s).afterBits (addr.setWidth 16)
      ([true, false, true] ++ msbFirst addr 7) (addr.getLsbD 0))) := by
  rw [exec_swb, beginStream, shiftWriteHead_eq]
  rfl

/-- With no chip selected the select opens a window, and the head is all it holds (R122). -/
theorem windows_of_swb {chip : Chip} {addr : Byte} {s t : State} (hs : s.Inv) (hnone : s.noneSelected)
    (h : exec (.swb chip addr) s = .next t) :
    t.unfinished = [(chip.toNat, [true, false, true] ++ msbFirst addr 7)] ∧ t.windows = s.windows := by
  rw [exec_swb_eq] at h
  obtain ⟨hc, ⟨⟩⟩ := ifChip_next h
  have hselect : exec (.select chip) s = .next (selectChip chip s) := (exec_select chip s).trans (ifChip_of_lt hc _)
  obtain ⟨-, -, -, -, hopens⟩ := selectDrivesOnlyItsLineLow chip s
  obtain ⟨hwindows, hopened⟩ := hopens _ hs hselect (level_of_noneSelected hs hnone hc)
  obtain ⟨hunfinished, hkept⟩ := windows_afterBits (hs.exec hselect) (addr.setWidth 16)
    ([true, false, true] ++ msbFirst addr 7) (addr.getLsbD 0)
  rw [hopened, unfinished_of_noneSelected hs hnone] at hunfinished
  exact ⟨hunfinished, hkept.trans hwindows⟩

/-- Settles O21: a select that opens a window, then bits, which go to the one open window. -/
theorem streamBeginLeavesTheChipSelected : Obligations.StreamBeginLeavesTheChipSelected := by
  intro chip addr s
  have hexec := exec_swb_eq chip addr s
  refine ⟨rfl, fun hc => ?_, fun hc => ifChip_of_ge hc _, fun t hs hnone h => ?_⟩
  · rw [hexec, ifChip_of_lt hc, selectChip, State.afterBits, setLine_trace, List.append_assoc]
    rfl
  · obtain ⟨hunfinished, hwindows⟩ := windows_of_swb hs hnone h
    rw [hexec] at h
    obtain ⟨hc, ⟨⟩⟩ := ifChip_next h
    have hlow := level_drive s.lines (.cs chip.toNat) (.cs chip.toNat) false
    rw [if_pos rfl, level_of_noneSelected hs hnone hc] at hlow
    exact ⟨hunfinished, hwindows, hlow, by simp [State.afterBits, selectChip, bitActions_length]⟩

/-- Settles O22: a nibble is one update by its four bits. -/
theorem streamNibbleSendsFourBits : Obligations.StreamNibbleSendsFourBits := by
  intro nib s
  have hexec : exec (.swn nib) s = .next (s.afterBits (nib.setWidth 16) (msbFirst nib 4) (nib.getLsbD 0)) := by
    rw [exec_swn, shiftNibble_eq]
  refine ⟨rfl, hexec, fun t hs h => ?_⟩
  obtain ⟨hunfinished, hwindows⟩ := windows_of_sends hs hexec h
  rw [hexec] at h
  cases h
  refine ⟨?_, hwindows, hunfinished⟩
  rw [State.afterBits, List.length_append, bitActions_length, msbFirst_length]

/-- Settles O23: `SWE` is `RELEASE` by its meaning. -/
theorem streamEndClosesTheWindow : Obligations.StreamEndClosesTheWindow := by
  intro chip s
  obtain ⟨-, hnext, hrefused, hselected, hreleased⟩ := releaseDrivesOnlyItsLineHigh chip s
  refine ⟨rfl, hnext, hrefused, fun t bits hs h hopen => ?_, fun t hs h hhigh => ?_⟩
  · obtain ⟨hwindows, hunfinished⟩ := hselected t bits hs h hopen
    exact ⟨hwindows, by simp [hunfinished]⟩
  · obtain ⟨hlines, hwindows, hunfinished⟩ := hreleased t hs h hhigh
    exact ⟨hwindows, hunfinished, hlines⟩

/-! ## The clearing of a chip, and the read stub -/

theorem exec_cclr_eq (chip : Chip) (s : State) : exec (.cclr chip) s =
    ifChip chip s (.next (s.afterFrames chip.toNat 0 ((List.range 256).map clearBits) false)) := by
  rw [← clearChip_eq]
  rfl

/-- The 256 frames are 256 windows and 256 times 44 actions (R127). -/
theorem windows_of_cclr {chip : Chip} {s t : State} (hs : s.Inv) (hnone : s.noneSelected)
    (h : exec (.cclr chip) s = .next t) :
    t.windows = s.windows ++ (List.range 256).map (fun a => (chip.toNat, clearBits a)) ∧ t.unfinished = [] ∧
      t.trace.length = s.trace.length + 11264 := by
  rw [exec_cclr_eq] at h
  obtain ⟨hc, ⟨⟩⟩ := ifChip_next h
  have hlength : ∀ f ∈ (List.range 256).map clearBits, f.length = 14 :=
    List.forall_mem_map.2 fun a _ => clearBits_length a
  have hne : ∀ f ∈ (List.range 256).map clearBits, f ≠ [] := fun f hf =>
    List.ne_nil_of_length_eq_add_one (hlength f hf)
  obtain ⟨hwindows, hunfinished⟩ := windows_afterFrames hs hnone hc 0 hne false
  rw [List.map_map] at hwindows
  refine ⟨hwindows, hunfinished, ?_⟩
  rw [State.afterFrames, List.length_append, flatMap_frameActions_length _ hlength, List.length_map, List.length_range]

/-- Settles O27: `CCLR` is one update by its 256 frames, and each frame is one window. -/
theorem chipClearSendsAllAddressesTwice : Obligations.ChipClearSendsAllAddressesTwice := by
  intro chip s
  simp only [← clearBits_eq]
  exact ⟨rfl, fun hc => (exec_cclr_eq chip s).trans (ifChip_of_lt hc _), fun hc => ifChip_of_ge hc _,
    fun t hs hnone h => windows_of_cclr hs hnone h⟩

/-- Settles O28: the response is the one update of `RDD`. -/
theorem readStubAnswersZero : Obligations.ReadStubAnswersZero :=
  fun _ _ _ => ⟨rfl, fun hc => ifChip_of_lt hc _, fun hc => ifChip_of_ge hc _⟩

end Sys2Proof.Machine
end

section
/-! PROOFS. The bits of a pixel's byte (`20_memory.md` R44, `42_framebuffer.md` R161). The key fact is that the mask has
exactly the pixel's own bit, so a pixel write decides that bit and no other. -/

namespace Sys2Proof.Machine

theorem getLsbD_pixelMask (x : Int) (j : Nat) : (pixelMask x).getLsbD j = decide (j = pixelBit x) := by
  rw [pixelMask, ← BitVec.twoPow_eq, BitVec.getLsbD_twoPow, decide_eq_true (pixelBit_lt x), Bool.true_and]
  exact decide_eq_decide.2 eq_comm

theorem getLsbD_setPixelBit (b : Byte) (x : Int) (j : Nat) :
    (setPixelBit b x).getLsbD j = (decide (j = pixelBit x) || b.getLsbD j) := by
  rw [setPixelBit, BitVec.getLsbD_or, getLsbD_pixelMask, Bool.or_comm]

theorem getLsbD_clearPixelBit (b : Byte) (x : Int) {j : Nat} (hj : j < 8) :
    (clearPixelBit b x).getLsbD j = (!decide (j = pixelBit x) && b.getLsbD j) := by
  rw [clearPixelBit, BitVec.getLsbD_and, BitVec.getLsbD_not, getLsbD_pixelMask, decide_eq_true hj, Bool.true_and,
    Bool.and_comm]

theorem testPixelBit_setPixelBit (b : Byte) (x : Int) : testPixelBit (setPixelBit b x) x = 1 := by
  rw [testPixelBit_eq, getLsbD_setPixelBit, decide_eq_true rfl, Bool.true_or, if_pos rfl]

theorem testPixelBit_clearPixelBit (b : Byte) (x : Int) : testPixelBit (clearPixelBit b x) x = 0 := by
  rw [testPixelBit_eq, getLsbD_clearPixelBit b x (pixelBit_lt x), decide_eq_true rfl, Bool.not_true, Bool.false_and]
  rfl

theorem testPixelBit_zero (x : Int) : testPixelBit 0x00#8 x = 0 := by
  rw [testPixelBit_eq, BitVec.getLsbD_zero]
  rfl

theorem testPixelBit_allOnes (x : Int) : testPixelBit 0xFF#8 x = 1 := by
  rw [testPixelBit_eq, show 0xFF#8 = BitVec.allOnes 8 from rfl, BitVec.getLsbD_allOnes, decide_eq_true (pixelBit_lt x),
    if_pos rfl]

/-- A byte update that decides the bit of pixel column `x` keeps what the other columns of the byte show. -/
def KeepsOtherColumns (f : Byte → Int → Byte) : Prop :=
  ∀ (b : Byte) (x x' : Int), pixelBit x' ≠ pixelBit x → testPixelBit (f b x) x' = testPixelBit b x'

theorem setPixelBit_keepsOtherColumns : KeepsOtherColumns setPixelBit := fun b x x' h => by
  rw [testPixelBit_eq, testPixelBit_eq, getLsbD_setPixelBit, decide_eq_false h, Bool.false_or]

theorem clearPixelBit_keepsOtherColumns : KeepsOtherColumns clearPixelBit := fun b x x' h => by
  rw [testPixelBit_eq, testPixelBit_eq, getLsbD_clearPixelBit b x (pixelBit_lt x'), decide_eq_false h, Bool.not_false,
    Bool.true_and]

end Sys2Proof.Machine
end

section
/-! PROOFS. The operations of the framebuffer (`42_framebuffer.md` R150 to R159). The key fact is that in an initialised
state that meets the invariant every byte the operations ask for is there, so the checks pass and a write completes. -/

namespace Sys2Proof

theorem Bank.other_eq_ite (b : Bank) : b.other = if b = .bank0 then .bank1 else .bank0 := by
  cases b <;> rfl

theorem bitOfBank_eq_decide (b : Bank) : bitOfBank b = decide (b = .bank1) := by
  cases b <;> rfl

namespace Machine

/-! ## The checks -/

theorem ifInited_of_inited {s : State} (h : s.inited = true) (r : Result) : ifInited s r = r := if_pos h

theorem ifInited_of_not_inited {s : State} (h : s.inited = false) (r : Result) :
    ifInited s r = .refused .notInitialised :=
  if_neg (Bool.eq_false_iff.1 h)

theorem withGeometry_of_geom {s : State} {g : Geometry} (h : s.geom = some g) (k : Geometry → Result) :
    withGeometry s k = k g := by
  rw [withGeometry, h]

theorem withByte_of_byte {s : State} {a : Nat} {v : Byte} (h : s.byte s.act a = some v) (k : Byte → Result) :
    withByte a s k = k v := by
  rw [withByte, h]

/-- Settles O34: each of the ten makes the check of `INITED` first. -/
theorem uninitialisedIsRefused : Obligations.UninitialisedIsRefused := by
  intro s hs i hi
  obtain hi | rfl := hi
  · cases i with
    | setpx x y => exact ifInited_of_not_inited hs _
    | clrpx x y => exact ifInited_of_not_inited hs _
    | drawpx x y color =>
      rw [exec, execDrawpx]
      split <;> exact ifInited_of_not_inited hs _
    | getpx x y => exact ifInited_of_not_inited hs _
    | cls => exact ifInited_of_not_inited hs _
    | fills => exact ifInited_of_not_inited hs _
    | setbyte addr val => exact ifInited_of_not_inited hs _
    | setact idx => exact ifInited_of_not_inited hs _
    | swap => exact ifInited_of_not_inited hs _
    | _ => cases hi
  · exact ifInited_of_not_inited hs _

theorem exec_setact_of_inited {s : State} (h : s.inited = true) (idx : Bank) :
    exec (.setact idx) s = .next { s with act := idx } := ifInited_of_inited h _

theorem exec_swap_of_inited {s : State} (h : s.inited = true) :
    exec .swap s = .next { s with act := s.act.other } := ifInited_of_inited h _

/-- Settles O41: past the check of `INITED` each of the two is one update of `ACT`. -/
theorem bufferSelectionWritesOnlyAct : Obligations.BufferSelectionWritesOnlyAct := by
  refine fun s => ⟨fun idx => by rw [← bitOfBank_eq_decide]; rfl, rfl,
    fun hs => ⟨exec_setact_of_inited hs, ?_⟩,
    fun hs => ⟨fun idx => uninitialisedIsRefused s hs _ (.inl rfl), uninitialisedIsRefused s hs _ (.inl rfl)⟩⟩
  rw [← Bank.other_eq_ite]
  exact exec_swap_of_inited hs

/-! ## Updates of the banks -/

theorem State.sameButBanks.refl (s : State) : s.sameButBanks s := rfl

theorem withBank_sameButBanks (s : State) (b : Bank) (m : Memory) : s.sameButBanks (s.withBank b m) := by
  cases b <;> rfl

section

variable {s t : State}

theorem State.sameButBanks.n_eq (h : s.sameButBanks t) : t.n = s.n := (congrArg State.n h :)
theorem State.sameButBanks.geom_eq (h : s.sameButBanks t) : t.geom = s.geom := (congrArg State.geom h :)
theorem State.sameButBanks.act_eq (h : s.sameButBanks t) : t.act = s.act := (congrArg State.act h :)
theorem State.sameButBanks.responses_eq (h : s.sameButBanks t) : t.responses = s.responses :=
  (congrArg State.responses h :)

end

/-- The bytes after one bank was replaced. -/
theorem byte_withBank (s : State) (b c : Bank) (m : Memory) (a : Nat) :
    (s.withBank b m).byte c a = if c = b then m.read a else s.byte c a := by
  by_cases h : c = b
  · rw [if_pos h, h, State.byte, withBank_bank_self]
  · rw [if_neg h, State.byte, withBank_bank_ne s m h, State.byte]

/-- A write to a byte that is there completes and replaces that byte alone (R8). -/
theorem memWrite_completes {s : State} {a : Nat} {old : Byte} (h : s.byte s.act a = some old) (v : Byte) :
    ∃ t, memWrite a v s = .next t ∧ s.sameButBanks t ∧
      ∀ b x, t.byte b x = if b = s.act ∧ x = a then some v else s.byte b x := by
  refine ⟨_, withByte_of_byte h _, withBank_sameButBanks s _ _, fun b x => ?_⟩
  rw [byte_withBank]
  by_cases hb : b = s.act
  · subst hb
    have hread : (s.bank s.act).read a = some old := h
    rw [if_pos rfl, read_write, hread, Option.map_some, State.byte]
    exact if_congr (and_iff_right rfl).symm rfl rfl
  · rw [if_neg hb, if_neg fun hba => hb hba.1]

/-- Writes to bytes that are all there complete (R155, R156). -/
theorem writeAll_completes {as : List Nat} (v : Byte) : ∀ {s : State}, (∀ a ∈ as, (s.byte s.act a).isSome) →
    ∃ t, writeAll as v s = .next t := by
  induction as with
  | nil => exact fun {s} _ => ⟨s, rfl⟩
  | cons a as ih =>
    intro s h
    obtain ⟨old, hold⟩ := Option.isSome_iff_exists.1 (h a List.mem_cons_self)
    obtain ⟨u, hu, hsame, hbyte⟩ := memWrite_completes hold v
    have hpresent : ∀ x ∈ as, (u.byte u.act x).isSome := fun x hx => by
      rw [hbyte, hsame.act_eq]
      split
      · rfl
      · exact h x (List.mem_cons_of_mem a hx)
    rw [writeAll, hu]
    exact ih hpresent

/-! ## Operations in an initialised state -/

section

variable {s : State} {g : Geometry} (hs : s.Inv) (hg : s.geom = some g)
include hs hg

theorem State.Inv.inited_of_geom : s.inited = true := by
  rw [hs.geom_inited, hg]
  rfl

/-- Both checks of a framebuffer operation pass. -/
theorem ifInited_withGeometry (k : Geometry → Result) : ifInited s (withGeometry s k) = k g := by
  rw [ifInited_of_inited (hs.inited_of_geom hg), withGeometry_of_geom hg]

theorem exists_byte {a : Nat} (ha : a < g.bankSize s.n) : ∃ v, s.byte s.act a = some v :=
  Option.isSome_iff_exists.1 ((inv_byte_isSome hs hg s.act a).2 ha)

/-- Every in-range pixel has its byte in the active bank (R45). -/
theorem exists_pixel_byte {x y : Int} (hr : inRange g s.n x y = true) :
    ∃ v, s.byte s.act (pixelAddr g x y) = some v :=
  exists_byte hs hg ((pixelMapIsABijection g s.n).1 x y hr).1

theorem updatePixel_of_outOfRange {x y : Int} (hr : inRange g s.n x y = false) (f : Byte → Int → Byte) :
    updatePixel f x y s = .next s := by
  rw [updatePixel, ifInited_withGeometry hs hg, if_neg (Bool.eq_false_iff.1 hr)]

/-- A pixel write in range replaces the pixel's byte and nothing else (R151, R152). -/
theorem updatePixel_of_inRange {x y : Int} (hr : inRange g s.n x y = true) (f : Byte → Int → Byte) :
    ∃ old t, s.byte s.act (pixelAddr g x y) = some old ∧ updatePixel f x y s = .next t ∧ s.sameButBanks t ∧
      ∀ b a, t.byte b a = if b = s.act ∧ a = pixelAddr g x y then some (f old x) else s.byte b a := by
  obtain ⟨old, hold⟩ := exists_pixel_byte hs hg hr
  obtain ⟨t, ht, hwrite⟩ := memWrite_completes hold (f old x)
  refine ⟨old, t, hold, ?_, hwrite⟩
  rw [updatePixel, ifInited_withGeometry hs hg, if_pos hr, withByte_of_byte hold, ht]

theorem updatePixel_completes (f : Byte → Int → Byte) (x y : Int) :
    ∃ t, updatePixel f x y s = .next t ∧ s.sameButBanks t := by
  cases hr : inRange g s.n x y with
  | false => exact ⟨s, updatePixel_of_outOfRange hs hg hr f, .refl s⟩
  | true =>
    obtain ⟨-, t, -, ht, hsame, -⟩ := updatePixel_of_inRange hs hg hr f
    exact ⟨t, ht, hsame⟩

theorem exec_getpx_of_outOfRange {x y : Int} (hr : inRange g s.n x y = false) :
    exec (.getpx x y) s = .next (respond 0 s) := by
  rw [exec, execGetpx, ifInited_withGeometry hs hg, if_neg (Bool.eq_false_iff.1 hr)]

theorem exec_getpx_of_inRange {x y : Int} {v : Byte} (hr : inRange g s.n x y = true)
    (hv : s.byte s.act (pixelAddr g x y) = some v) :
    exec (.getpx x y) s = .next (respond (testPixelBit v x) s) := by
  rw [exec, execGetpx, ifInited_withGeometry hs hg, if_pos hr, withByte_of_byte hv]

/-- Filling a bank gives each of its `S` bytes the value and changes nothing else (R155, R156). -/
theorem fillBank_completes (v : Byte) : ∃ t, fillBank v s = .next t ∧ s.sameButBanks t ∧
    ∀ b a, t.byte b a = if b = s.act then (if a < g.bankSize s.n then some v else none) else s.byte b a := by
  have hpresent : ∀ a ∈ List.range (g.bankSize s.n), (s.byte s.act a).isSome := fun a ha =>
    (inv_byte_isSome hs hg s.act a).2 (List.mem_range.1 ha)
  obtain ⟨t, ht⟩ := writeAll_completes v hpresent
  obtain ⟨m, rfl, -, hread⟩ := writeAll_next ht
  refine ⟨_, (ifInited_withGeometry hs hg _).trans ht, withBank_sameButBanks s _ m, fun b a => ?_⟩
  simp only [byte_withBank, hread, List.mem_range]
  by_cases ha : a < g.bankSize s.n
  · rw [if_pos ha, if_pos ha]
  · have habsent : s.byte s.act a = none :=
      Option.not_isSome_iff_eq_none.1 (mt (inv_byte_isSome hs hg s.act a).1 ha)
    rw [if_neg ha, if_neg ha, habsent]

theorem exec_setbyte_eq (addr val : Byte) : exec (.setbyte addr val) s =
    if addr.toNat < g.bankSize s.n then memWrite addr.toNat val s else .refused .pokeOutOfRange :=
  ifInited_withGeometry hs hg _

end

/-! ## The operations, one by one -/

theorem exec_drawpx_of_ne_zero {color : Byte} (h : color ≠ 0) (x y : Int) (s : State) :
    exec (.drawpx x y color) s = exec (.setpx x y) s := if_pos h

theorem exec_drawpx_of_eq_zero {color : Byte} (h : color = 0) (x y : Int) (s : State) :
    exec (.drawpx x y color) s = exec (.clrpx x y) s := if_neg (not_not_intro h)

/-- Whatever the colour, `DRAWPX` is one of the two pixel writes (R153). -/
theorem exec_drawpx_eq_updatePixel (color : Byte) : ∃ f, KeepsOtherColumns f ∧
    ∀ x y s, exec (.drawpx x y color) s = updatePixel f x y s := by
  by_cases h : color = 0
  · exact ⟨clearPixelBit, clearPixelBit_keepsOtherColumns, exec_drawpx_of_eq_zero h⟩
  · exact ⟨setPixelBit, setPixelBit_keepsOtherColumns, exec_drawpx_of_ne_zero h⟩

/-- Settles O35: `SETPX` is the pixel write by OR with the mask. -/
theorem setPixelTurnsOnOneBit : Obligations.SetPixelTurnsOnOneBit := by
  refine fun x y s => ⟨fun _ _ => rfl, fun hs => uninitialisedIsRefused s hs _ (.inl rfl),
    fun g hs hg hr => updatePixel_of_outOfRange hs hg hr _, fun g hs hg hr => ?_⟩
  obtain ⟨old, t, hold, ht, hsame, hbyte⟩ := updatePixel_of_inRange hs hg hr setPixelBit
  exact ⟨old, t, hold, ht, hsame, hbyte, fun j _ => getLsbD_setPixelBit old x j⟩

/-- Settles O36: `CLRPX` is the pixel write by AND with the complement of the mask. -/
theorem clearPixelTurnsOffOneBit : Obligations.ClearPixelTurnsOffOneBit := by
  refine fun x y s => ⟨fun _ _ => rfl, fun hs => uninitialisedIsRefused s hs _ (.inl rfl),
    fun g hs hg hr => updatePixel_of_outOfRange hs hg hr _, fun g hs hg hr => ?_⟩
  obtain ⟨old, t, hold, ht, hsame, hbyte⟩ := updatePixel_of_inRange hs hg hr clearPixelBit
  exact ⟨old, t, hold, ht, hsame, hbyte, fun j hj => getLsbD_clearPixelBit old x hj⟩

/-- Settles O37: the colour picks one of two pixel writes, and each of them completes. -/
theorem drawPixelChoosesByColour : Obligations.DrawPixelChoosesByColour := by
  refine fun x y color s => ⟨fun _ _ => rfl, fun h => exec_drawpx_of_ne_zero h x y s,
    fun h => exec_drawpx_of_eq_zero h x y s, fun hs hinited => ?_⟩
  obtain ⟨g, hg⟩ := Option.isSome_iff_exists.1 (hs.geom_inited.symm.trans hinited)
  obtain ⟨f, -, hf⟩ := exec_drawpx_eq_updatePixel color
  rw [hf]
  exact updatePixel_completes hs hg f x y

/-- Settles O38: in range the answer is the pixel's bit of the byte, which is there. -/
theorem getPixelAnswersTheBit : Obligations.GetPixelAnswersTheBit := by
  refine fun x y s => ⟨fun _ _ => rfl, fun hs => uninitialisedIsRefused s hs _ (.inl rfl),
    fun g hs hg hr => exec_getpx_of_outOfRange hs hg hr, fun g hs hg hr => ?_⟩
  obtain ⟨old, hold⟩ := exists_pixel_byte hs hg hr
  refine ⟨old, hold, ?_⟩
  rw [exec_getpx_of_inRange hs hg hr hold, testPixelBit_eq]
  rfl

/-- Settles O39: both operations are the fill of the active bank, each with its byte. -/
theorem fillsWriteTheWholeActiveBank : Obligations.FillsWriteTheWholeActiveBank := by
  rintro i v s (⟨rfl, rfl⟩ | ⟨rfl, rfl⟩)
  · exact ⟨rfl, rfl, fun hs => uninitialisedIsRefused s hs _ (.inl rfl), fun g hs hg => fillBank_completes hs hg _⟩
  · exact ⟨rfl, rfl, fun hs => uninitialisedIsRefused s hs _ (.inl rfl), fun g hs hg => fillBank_completes hs hg _⟩

/-- Settles O40: the range check of the address decides between the refusal and the write of a byte that is there. -/
theorem setByteWritesOneByte : Obligations.SetByteWritesOneByte := by
  refine fun addr val s => ⟨rfl, fun hs => uninitialisedIsRefused s hs _ (.inl rfl), fun g hs hg ha => ?_,
    fun g hs hg ha => ?_⟩
  · rw [exec_setbyte_eq hs hg, if_neg (Nat.not_lt.2 ha)]
  · obtain ⟨old, hold⟩ := exists_byte hs hg ha
    rw [exec_setbyte_eq hs hg, if_pos ha]
    exact memWrite_completes hold val

end Machine

end Sys2Proof
end

section
/-! PROOFS. The laws of the framebuffer (`42_framebuffer.md` R160). The key facts are that `GETPX` after a write answers
the bit of the byte written, and that two in-range pixels of one byte have different bits of it. -/

namespace Sys2Proof.Machine

/-! ## `GETPX` after a write: (a), (e) -/

section

variable {s t : State} {g : Geometry} {i : Instr} {x y : Int} (hs : s.Inv) (hg : s.geom = some g)
  (h : exec i s = .next t) (hsame : s.sameButBanks t)
include hs hg h hsame

theorem runOps_getpx_of_inRange {v : Byte} (hr : inRange g s.n x y = true)
    (hv : t.byte s.act (pixelAddr g x y) = some v) :
    ∃ u, runOps [i, .getpx x y] s = .next u ∧ u.responses = s.responses ++ [testPixelBit v x] := by
  rw [← hsame.n_eq] at hr
  rw [← hsame.act_eq] at hv
  rw [runOps_cons_next h, runOps_singleton, exec_getpx_of_inRange (hs.exec h) (hsame.geom_eq.trans hg) hr hv]
  exact ⟨_, rfl, by rw [respond_responses, hsame.responses_eq]⟩

theorem runOps_getpx_of_outOfRange (hr : inRange g s.n x y = false) :
    ∃ u, runOps [i, .getpx x y] s = .next u ∧ u.responses = s.responses ++ [0] := by
  rw [← hsame.n_eq] at hr
  rw [runOps_cons_next h, runOps_singleton, exec_getpx_of_outOfRange (hs.exec h) (hsame.geom_eq.trans hg) hr]
  exact ⟨_, rfl, by rw [respond_responses, hsame.responses_eq]⟩

end

section

variable {s : State} {g : Geometry} {i : Instr} {x y : Int} (hs : s.Inv) (hg : s.geom = some g)
include hs hg

/-- `GETPX` after a write of the same pixel answers the pixel's bit of the byte written (R160 (a)). -/
theorem runOps_updatePixel_getpx {f : Byte → Int → Byte} {bit : Nat} (hi : exec i s = updatePixel f x y s)
    (hbit : ∀ b, testPixelBit (f b x) x = bit) (hr : inRange g s.n x y = true) :
    ∃ u, runOps [i, .getpx x y] s = .next u ∧ u.responses = s.responses ++ [bit] := by
  obtain ⟨old, t, -, ht, hsame, hbyte⟩ := updatePixel_of_inRange hs hg hr f
  rw [← hbit old]
  exact runOps_getpx_of_inRange hs hg (hi.trans ht) hsame hr ((hbyte _ _).trans (if_pos ⟨rfl, rfl⟩))

/-- `GETPX` in range after a fill answers the bit of the fill (R160 (e)). -/
theorem runOps_fillBank_getpx {v : Byte} (hi : exec i s = fillBank v s) (hr : inRange g s.n x y = true) :
    ∃ u, runOps [i, .getpx x y] s = .next u ∧ u.responses = s.responses ++ [testPixelBit v x] := by
  obtain ⟨t, ht, hsame, hbyte⟩ := fillBank_completes hs hg v
  have haddr : pixelAddr g x y < g.bankSize s.n := ((pixelMapIsABijection g s.n).1 x y hr).1
  have hv : t.byte s.act (pixelAddr g x y) = some v := by rw [hbyte, if_pos rfl, if_pos haddr]
  exact runOps_getpx_of_inRange hs hg (hi.trans ht) hsame hr hv

/-- After `CLS` every `GETPX` answers 0, in range or not (R160 (e)). -/
theorem runOps_cls_getpx (x y : Int) :
    ∃ u, runOps [.cls, .getpx x y] s = .next u ∧ u.responses = s.responses ++ [0] := by
  cases hr : inRange g s.n x y with
  | false =>
    obtain ⟨t, ht, hsame, -⟩ := fillBank_completes hs hg 0x00#8
    exact runOps_getpx_of_outOfRange hs hg ht hsame hr
  | true => simpa only [testPixelBit_zero] using runOps_fillBank_getpx hs hg (v := 0x00#8) (i := .cls) rfl hr

/-! ## `SWAP`, and the other pixels: (c), (d) -/

/-- The bank chosen back after a `SWAP` gives the whole state back (R160 (c)). -/
theorem runOps_swap_setact : runOps [.swap, .setact s.act] s = .next s := by
  have hinited := hs.inited_of_geom hg
  rw [runOps_cons_next (exec_swap_of_inited hinited), runOps_singleton]
  exact exec_setact_of_inited hinited s.act

/-- A pixel write keeps every other in-range pixel of either bank (R160 (d)). -/
theorem pixel_of_updatePixel {f : Byte → Int → Byte} (hf : KeepsOtherColumns f) {t : State}
    (h : updatePixel f x y s = .next t) {x' y' : Int} (hr' : inRange g s.n x' y' = true) (hne : (x', y') ≠ (x, y))
    (b : Bank) : t.pixel b g x' y' = s.pixel b g x' y' := by
  cases hr : inRange g s.n x y with
  | false =>
    rw [updatePixel_of_outOfRange hs hg hr] at h
    cases h
    rfl
  | true =>
    obtain ⟨old, u, hold, hu, -, hbyte⟩ := updatePixel_of_inRange hs hg hr f
    rw [hu] at h
    cases h
    rw [State.pixel, State.pixel, hbyte]
    by_cases hsame : b = s.act ∧ pixelAddr g x' y' = pixelAddr g x y
    · obtain ⟨rfl, haddr⟩ := hsame
      have hcolumn : pixelBit x' ≠ pixelBit x := fun hbit =>
        hne (Prod.ext_iff.2 ((pixelMapIsABijection g s.n).2.1 x' y' x y hr' hr haddr hbit))
      rw [if_pos ⟨rfl, haddr⟩, haddr, hold, Option.map_some, Option.map_some, hf old x x' hcolumn]
    · rw [if_neg hsame]

end

/-! ## What no framebuffer operation touches: (f) -/

section

variable {s t : State} {i : Instr}

/-- No framebuffer operation performs a line action (introduction of `42_framebuffer.md`). -/
theorem framebuffer_emits {p : Action → Bool} (hi : i.isFramebuffer = true) (h : exec i s = .next t) :
    Emits p s t := by
  cases i with
  | setpx x y => exact updatePixel_emits h
  | clrpx x y => exact updatePixel_emits h
  | drawpx x y color => exact execDrawpx_emits h
  | getpx x y => exact execGetpx_emits h
  | cls => exact fillBank_emits h
  | fills => exact fillBank_emits h
  | setbyte addr val => exact execSetbyte_emits h
  | setact idx => exact emits_of_ifInited h (.of_same_wire rfl rfl)
  | swap => exact emits_of_ifInited h (.of_same_wire rfl rfl)
  | _ => cases hi

/-- With no action allowed, latches and trace stay. -/
theorem Emits.same_wire (h : Emits (fun _ => false) s t) : t.lines = s.lines ∧ t.trace = s.trace := by
  obtain ⟨acts, htrace, hlines, hacts⟩ := h
  obtain rfl : acts = [] := List.eq_nil_iff_forall_not_mem.2 fun a ha => Bool.false_ne_true (hacts a ha)
  exact ⟨hlines, htrace.trans (List.append_nil _)⟩

theorem framebuffer_frame (hinited : s.inited = true) (hi : i.isFramebuffer = true) (h : exec i s = .next t) :
    (∀ a, t.byte s.act.other a = s.byte s.act.other a) ∧ t.geom = s.geom ∧ t.inited = s.inited ∧
      t.lines = s.lines ∧ t.trace = s.trace := by
  have hbank : t.bank s.act.other = s.bank s.act.other := inactiveBankIsNeverTouched i s t hinited h
  obtain ⟨-, -, -, hkeeps, -⟩ := whoWritesWhat i s t h
  obtain ⟨hinited', hgeom⟩ := hkeeps hinited
  refine ⟨fun a => ?_, hgeom, hinited'.trans hinited.symm, (framebuffer_emits hi h).same_wire⟩
  rw [State.byte, State.byte, hbank]

end

/-- Settles O42: the laws (a) to (f), in order. -/
theorem framebufferLaws : Obligations.FramebufferLaws := by
  refine fun s g hs hg => ⟨fun x y hr => ⟨?_, ?_⟩, fun x y color hr => ⟨?_, ?_, ?_, ?_⟩, ?_,
    fun x y color t h b x' y' hr' hne => ?_, fun x y => ⟨?_, fun hr => ?_⟩, fun i t hi h => ?_⟩
  · exact runOps_updatePixel_getpx hs hg rfl (testPixelBit_setPixelBit · x) hr
  · exact runOps_updatePixel_getpx hs hg rfl (testPixelBit_clearPixelBit · x) hr
  · exact exec_getpx_of_outOfRange hs hg hr
  · exact updatePixel_of_outOfRange hs hg hr _
  · exact updatePixel_of_outOfRange hs hg hr _
  · obtain ⟨f, -, hf⟩ := exec_drawpx_eq_updatePixel color
    rw [hf]
    exact updatePixel_of_outOfRange hs hg hr f
  · exact runOps_swap_setact hs hg
  · obtain h | h | h := h
    · exact pixel_of_updatePixel hs hg setPixelBit_keepsOtherColumns h hr' hne b
    · exact pixel_of_updatePixel hs hg clearPixelBit_keepsOtherColumns h hr' hne b
    · obtain ⟨f, hkeeps, hf⟩ := exec_drawpx_eq_updatePixel color
      exact pixel_of_updatePixel hs hg hkeeps ((hf x y s).symm.trans h) hr' hne b
  · exact runOps_cls_getpx hs hg x y
  · simpa only [testPixelBit_allOnes] using runOps_fillBank_getpx hs hg (v := 0xFF#8) (i := .fills) rfl hr
  · exact framebuffer_frame (hs.inited_of_geom hg) hi h

end Sys2Proof.Machine
end

section
/-! PROOFS. The walk of a flush (`43_flush_init.md` R181). The key fact is that the walk lists as many addresses as a
bank has, and every address of the bank, so it is a permutation of these. -/

namespace Sys2Proof.Machine

theorem mem_walk_of_lt {g : Geometry} {n a : Nat} (ha : a < g.bankSize n) : a ∈ walk g n := by
  have hrow : a / g.stride < g.height n := Nat.div_lt_of_lt_mul (g.bankSize_eq_stride_mul_height n ▸ ha)
  exact List.mem_flatMap.2 ⟨a % g.stride, List.mem_range.2 (Nat.mod_lt _ g.stride_pos),
    List.mem_map.2 ⟨a / g.stride, List.mem_range.2 hrow, Nat.mod_add_div _ _⟩⟩

theorem walk_length (g : Geometry) (n : Nat) : (walk g n).length = g.bankSize n := by
  simp [walk, List.length_flatMap, g.bankSize_eq_stride_mul_height]

theorem walk_perm_range (g : Geometry) (n : Nat) : (walk g n).Perm (List.range (g.bankSize n)) := by
  have hsub : List.range (g.bankSize n) ⊆ walk g n := fun _ ha => mem_walk_of_lt (List.mem_range.1 ha)
  have hlength : (walk g n).length ≤ (List.range (g.bankSize n)).length := by rw [walk_length, List.length_range]
  exact ((List.subperm_of_subset List.nodup_range hsub).perm_of_length_le hlength).symm

theorem mem_walk_iff {g : Geometry} {n a : Nat} : a ∈ walk g n ↔ a < g.bankSize n := by
  rw [(walk_perm_range g n).mem_iff, List.mem_range]

/-- Position `p` of a list of `m` columns with `h` entries each is entry `p mod h` of column `p div h`. -/
theorem getElem?_columns {α : Type} (f : Nat → Nat → α) {m h p : Nat} (hp : p < m * h) :
    ((List.range m).flatMap fun c => (List.range h).map (f c))[p]? = some (f (p / h) (p % h)) := by
  induction m with
  | zero => simp at hp
  | succ m ih =>
    have hlength : ((List.range m).flatMap fun c => (List.range h).map (f c)).length = m * h := by
      simp [List.length_flatMap]
    rw [List.range_succ, List.flatMap_append, List.flatMap_singleton]
    by_cases hlt : p < m * h
    · rw [List.getElem?_append_left (by rwa [hlength]), ih hlt]
    · obtain ⟨y, rfl⟩ := Nat.exists_eq_add_of_le (Nat.not_lt.1 hlt)
      have hy : y < h := by rw [Nat.succ_mul] at hp; omega
      rw [List.getElem?_append_right (by rw [hlength]; omega), hlength, Nat.add_sub_cancel_left, List.getElem?_map,
        List.getElem?_range hy, Nat.mul_comm, Nat.mul_add_div (by omega), Nat.mul_add_mod, Nat.div_eq_of_lt hy,
        Nat.mod_eq_of_lt hy]
      rfl

theorem walk_getElem? {g : Geometry} {n p : Nat} (hp : p < g.bankSize n) :
    (walk g n)[p]? = some (p / g.height n + g.stride * (p % g.height n)) :=
  getElem?_columns (fun c y => c + g.stride * y) (g.bankSize_eq_stride_mul_height n ▸ hp)

/-- The walk ends at the last row of the last byte column, the last byte of the bank. -/
theorem walk_getLast? {g : Geometry} {n : Nat} (hn : 1 ≤ n) : (walk g n).getLast? = some (g.bankSize n - 1) := by
  have hheight : 0 < g.height n := Nat.mul_pos (by cases g <;> decide) hn
  have hstride := g.stride_pos
  obtain ⟨rows, hrows⟩ := Nat.exists_eq_add_of_le' hheight
  obtain ⟨columns, hcolumns⟩ := Nat.exists_eq_add_of_le' hstride
  have hlast : g.bankSize n - 1 = g.height n * columns + rows := by
    rw [g.bankSize_eq_stride_mul_height, hcolumns, Nat.succ_mul, Nat.mul_comm]
    omega
  have hlast' : g.bankSize n - 1 = columns + g.stride * rows := by
    rw [g.bankSize_eq_stride_mul_height, hrows, Nat.mul_succ]
    omega
  have hlt : g.bankSize n - 1 < g.bankSize n := by
    rw [g.bankSize_eq_stride_mul_height]
    exact Nat.sub_one_lt (Nat.mul_pos hstride hheight).ne'
  rw [List.getLast?_eq_getElem?, walk_length, walk_getElem? hlt, hlast, Nat.mul_add_div hheight, Nat.mul_add_mod,
    Nat.div_eq_of_lt (by omega), Nat.mod_eq_of_lt (by omega), Nat.add_zero, ← hlast', hlast]

/-- Settles O44: a permutation of the addresses of the bank, in the order of its columns and rows. -/
theorem walkIsByteColumnOrder : Obligations.WalkIsByteColumnOrder :=
  ⟨fun g n => ⟨walk_length g n, (walk_perm_range g n).nodup_iff.2 List.nodup_range, fun _ => mem_walk_iff,
    fun _ hp => walk_getElem? hp⟩, rfl, rfl⟩

end Sys2Proof.Machine
end

section
/-! PROOFS. The flush (`43_flush_init.md` R180, R182, R186). The key fact is that a `FLUSH` is one frame to chip 0
between the two drives of `LOCK`; it completes when the active bank has a byte at each address of the walk. -/

namespace Sys2Proof.Machine

/-! ## The bytes of a walk -/

theorem State.sameButWire.activeByte_eq {s t : State} (h : s.sameButWire t) (a : Nat) :
    t.byte t.act a = s.byte s.act a := by
  rw [State.byte, State.byte, h.act_eq, h.bank_eq]

/-- A walk that completes found a byte at each of its addresses. -/
theorem streamBytes_present {as : List Nat} : ∀ {s t : State}, streamBytes as s = .next t →
    ∀ a ∈ as, (s.byte s.act a).isSome := by
  induction as with
  | nil => exact fun _ _ h => nomatch h
  | cons a rest ih =>
    intro s t h
    obtain ⟨b, hb, h⟩ := withByte_next h
    have hframe := ((shiftNibble_wireOnly (highNibble b) s).trans (shiftNibble_wireOnly (lowNibble b) _)).frame
    exact List.forall_mem_cons.2 ⟨Option.isSome_of_mem hb, fun x hx => hframe.activeByte_eq x ▸ ih h x hx⟩

/-- The bits of the bytes at a list of addresses of the active bank (R47, R180). -/
def State.bytesBits (s : State) (as : List Nat) : List Bool := as.flatMap fun a => msbFirst (s.byteD a) 8

theorem bytesBits_length (s : State) (as : List Nat) : (s.bytesBits as).length = 8 * as.length := by
  simp [State.bytesBits, List.length_flatMap, Nat.mul_comm]

/-- The level the bytes at a list of addresses leave `DATA` at: bit 0 of the last byte, the old level if there is no
byte. -/
def State.lastBit (s : State) (as : List Nat) (old : Level) : Level :=
  (as.getLast?.map fun a => (s.byteD a).getLsbD 0).getD old

/-- The bytes of a walk after other bits are the longer list of bits. -/
theorem streamBytes_afterBits {as : List Nat} {s : State} (h : ∀ a ∈ as, (s.byte s.act a).isSome) (v : SerWord)
    (bits : List Bool) (last : Level) : ∃ v', streamBytes as (s.afterBits v bits last) =
      .next (s.afterBits v' (bits ++ s.bytesBits as) (s.lastBit as last)) := by
  have hbyte := State.sameButWire.activeByte_eq (s := s) (t := s.afterBits v bits last) rfl
  have hbyteD : ∀ a, (s.afterBits v bits last).byteD a = s.byteD a := fun a => congrArg (Option.getD · 0) (hbyte a)
  rw [streamBytes_eq as _ fun a ha => hbyte a ▸ h a ha]
  cases hlast : as.getLast? with
  | none =>
    obtain rfl := List.getLast?_eq_none_iff.1 hlast
    exact ⟨v, by simp [State.bytesBits, State.lastBit]⟩
  | some a =>
    exact ⟨_, by simp only [afterBits_afterBits, hbyteD, State.bytesBits, State.lastBit, hlast]; rfl⟩

/-! ## The frame -/

/-- The bits of a flush: the head of a write at device address 0, then the active bank in the order of the walk. -/
def State.flushBits (s : State) (g : Geometry) : List Bool :=
  [true, false, true] ++ List.replicate 7 false ++ s.bytesBits (walk g s.n)

theorem flushBits_length (s : State) (g : Geometry) : (s.flushBits g).length = 10 + 8 * g.bankSize s.n := by
  simp [State.flushBits, bytesBits_length, walk_length]
  omega

/-- The state after a flush: the frame to chip 0 inside `LOCK`, `SR.val` left at `v`. -/
def State.afterFlush (s : State) (g : Geometry) (v : SerWord) : State :=
  setLine .lock false
    ((setLine .lock true s).afterFrame 0 v (s.flushBits g) (s.lastBit (walk g s.n) false))

theorem afterFlush_trace (s : State) (g : Geometry) (v : SerWord) : (s.afterFlush g v).trace =
    s.trace ++ (.set .lock true :: frameActions 0 (s.flushBits g) ++ [.set .lock false]) := by
  simp [State.afterFlush, State.afterFrame]

theorem afterFlush_trace_length (s : State) (g : Geometry) (v : SerWord) :
    (s.afterFlush g v).trace.length = s.trace.length + 4 + 3 * (10 + 8 * g.bankSize s.n) := by
  simp [afterFlush_trace, frameActions_length, flushBits_length]
  omega

theorem exec_flush_of_present {s : State} {g : Geometry} (hinited : s.inited = true) (hg : s.geom = some g)
    (h : ∀ a ∈ walk g s.n, (s.byte s.act a).isSome) : ∃ v, exec .flush s = .next (s.afterFlush g v) := by
  obtain ⟨v, hstream⟩ := streamBytes_afterBits (s := selectChip 0 (setLine .lock true s)) h 0
    ([true, false, true] ++ List.replicate 7 false) false
  have hhead : beginStream 0 0 (setLine .lock true s) = (selectChip 0 (setLine .lock true s)).afterBits 0
      ([true, false, true] ++ List.replicate 7 false) false := shiftWriteHead_eq 0#8 _
  refine ⟨v, ?_⟩
  rw [exec, execFlush, ifInited_of_inited hinited, withGeometry_of_geom hg, hhead, hstream]
  exact congrArg (Host.Outcome.next ∘ setLine .lock false) (releaseChip_afterBits_selectChip 0 _ v _ _)

/-- A flush that completes was one frame inside `LOCK`, in every state. -/
theorem exec_flush_next {s t : State} {g : Geometry} (hg : s.geom = some g) (h : exec .flush s = .next t) :
    ∃ v, t = s.afterFlush g v := by
  obtain ⟨hinited, hbody⟩ := ifInited_next h
  rw [withGeometry_of_geom hg] at hbody
  split at hbody
  · rename_i u hu
    have hframe := ((setLock_wireOnly true s).trans (beginStream_wireOnly (chip := 0) (.inl rfl) 0)).frame
    obtain ⟨v, hexec⟩ := exec_flush_of_present hinited hg fun a ha =>
      hframe.activeByte_eq a ▸ streamBytes_present hu a ha
    rw [hexec] at h
    exact ⟨v, by cases h; rfl⟩
  · cases hbody
  · cases hbody

/-! ## The received-bit view -/

/-- With no chip selected a flush is one window of chip 0; the drives of `LOCK` are no part of a window (R26, R186). -/
theorem windows_afterFlush {s : State} (hs : s.Inv) (hnone : s.noneSelected) (g : Geometry) (v : SerWord) :
    (s.afterFlush g v).unfinished = [] ∧ (s.afterFlush g v).windows = s.windows ++ [(0, s.flushBits g)] := by
  have hbits : s.flushBits g ≠ [] := List.cons_ne_nil _ _
  have hhigh : s.received.lines.level (.cs 0) = some true := by
    rw [received_lines hs]
    exact level_of_noneSelected hs hnone hs.straps_legal.1
  have hreceived : (s.afterFlush g v).received = _ := received_append hs.trace_reset rfl (afterFlush_trace s g v)
  rw [List.cons_append, List.foldl_cons, List.foldl_append, replay_frame (s.received.act (.set .lock true)) 0 _ hbits
    (unfinished_of_noneSelected hs hnone) hhigh] at hreceived
  exact ⟨congrArg Replay.opened hreceived, congrArg Replay.out hreceived⟩

/-- Settles O45: in an initialised state that meets the invariant the walk finds its bytes, so the flush is one frame
inside `LOCK`; the last byte walked is the last of the bank. -/
theorem flushStreamsTheActiveBank : Obligations.FlushStreamsTheActiveBank := by
  refine fun s => ⟨rfl, fun hs => uninitialisedIsRefused s hs _ (.inr rfl), fun g hs hg => ?_⟩
  obtain ⟨v, hexec⟩ := exec_flush_of_present (hs.inited_of_geom hg) hg fun a ha =>
    (inv_byte_isSome hs hg s.act a).2 (mem_walk_iff.1 ha)
  have hlast : s.lastBit (walk g s.n) false = ((s.byte s.act (g.bankSize s.n - 1)).getD 0).getLsbD 0 := by
    have hn : 1 ≤ s.n := hs.straps_legal.1
    rw [State.lastBit, walk_getLast? hn]
    rfl
  refine ⟨_, hexec, ?_, afterFlush_trace_length s g v, ?_, rfl, rfl, fun hnone => windows_afterFlush hs hnone g v⟩
  · simp [afterFlush_trace, frameActions, State.flushBits, State.bytesBits, State.byteD]
  · rw [← hlast]
    rfl

/-! ## What a flush depends on -/

theorem State.flushBits_congr {s s' : State} (hn : s.n = s'.n) (hbank : s.bank s.act = s'.bank s'.act)
    (g : Geometry) : s.flushBits g = s'.flushBits g := by
  simp only [State.flushBits, State.bytesBits, State.byteD, State.byte, hn, hbank]

/-- Settles O46: the actions of a flush are fixed by its bits. -/
theorem flushShowsOnlyTheActiveBank : Obligations.FlushShowsOnlyTheActiveBank := by
  intro s s' t t' _ _ hn hgeom hbank h h'
  obtain ⟨-, hbody⟩ := ifInited_next h
  obtain ⟨g, hg, -⟩ := withGeometry_next hbody
  obtain ⟨v, rfl⟩ := exec_flush_next hg h
  obtain ⟨v', rfl⟩ := exec_flush_next (hgeom ▸ hg) h'
  refine ⟨_, afterFlush_trace s g v, ?_⟩
  rw [State.flushBits_congr hn hbank]
  exact afterFlush_trace s' g v'

end Sys2Proof.Machine
end

section
/-! PROOFS. Initialization (`43_flush_init.md` R183, R184). The key fact is that every `INIT` is its allocation
followed by one update by its frames. -/

namespace Sys2Proof

theorem bitOfGeometry_eq_decide (g : Geometry) : bitOfGeometry g = decide (g = .tall) := by
  cases g <;> rfl

namespace Machine

/-- The frames of an `INIT`: a command for each code of `INIT_CMDS(mode)`, then the 256 writes of `CCLR`. -/
def initFrames (mode : Byte) : List (List Bool) :=
  (Config.initCmds mode).map commandFrameBits ++ (List.range 256).map clearBits

theorem exec_init_eq (chip : Chip) (mode : Byte) (geom : Geometry) (s : State) : exec (.init chip mode geom) s =
    ifChip chip s (.next ((allocate geom s).afterFrames chip.toNat 0 (initFrames mode) false)) := by
  rw [initFrames, ← initFrames_eq]
  rfl

/-- The first `INIT` gives the block its geometry and both banks (R183). -/
theorem allocate_of_not_inited {s : State} (h : s.inited = false) (g : Geometry) : allocate g s =
    { s with
      geom := some g
      fb0 := drawBank s.draws .bank0 (g.bankSize s.n)
      fb1 := drawBank s.draws .bank1 (g.bankSize s.n)
      inited := true
      draws := s.draws + 1 } :=
  if_neg (Bool.eq_false_iff.1 h)

/-- Settles O47: the allocation of a block not initialised, then the frames. -/
theorem firstInitAllocatesAndSends : Obligations.FirstInitAllocatesAndSends := by
  intro chip mode geom s hc hs
  simp only [← clearBits_eq]
  refine ⟨_, (exec_init_eq chip mode geom s).trans (ifChip_of_lt hc _), ?_⟩
  rw [allocate_of_not_inited hs]
  refine ⟨rfl, rfl, rfl, drawBank_addresses _ _ _, drawBank_addresses _ _ _, ?_, rfl, rfl, rfl, rfl, rfl, rfl⟩
  rw [State.afterFrames, initFrames, List.flatMap_append, List.flatMap_map, List.flatMap_map, ← List.append_assoc]
  rfl

/-! ## The received-bit view -/

theorem initFrames_ne_nil {mode : Byte} {f : List Bool} (hf : f ∈ initFrames mode) : f ≠ [] := by
  obtain hf | hf := List.mem_append.1 hf
  · obtain ⟨code, -, rfl⟩ := List.mem_map.1 hf
    exact List.cons_ne_nil _ _
  · obtain ⟨a, -, rfl⟩ := List.mem_map.1 hf
    exact List.cons_ne_nil _ _

@[simp] theorem allocate_lines (g : Geometry) (s : State) : (allocate g s).lines = s.lines := by
  unfold allocate; split <;> rfl
@[simp] theorem allocate_trace (g : Geometry) (s : State) : (allocate g s).trace = s.trace := by
  unfold allocate; split <;> rfl

/-- An allocation is no part of the received-bit view. -/
theorem allocate_windows (g : Geometry) (s : State) : (allocate g s).windows = s.windows := by
  simp only [State.windows, State.received, State.straps, allocate_n, allocate_hasRd, allocate_trace]

/-- With no chip selected each frame of an `INIT` is one window, the first `INIT` or a later one. -/
theorem windows_of_init {chip : Chip} {mode : Byte} {geom : Geometry} {s t : State} (hs : s.Inv)
    (hnone : s.noneSelected) (h : exec (.init chip mode geom) s = .next t) :
    t.unfinished = [] ∧ t.windows = s.windows ++ (initFrames mode).map fun f => (chip.toNat, f) := by
  rw [exec_init_eq] at h
  obtain ⟨hc, ⟨⟩⟩ := ifChip_next h
  have hnone' : (allocate geom s).noneSelected := by rwa [State.noneSelected, allocate_lines]
  have hc' : chip.toNat < (allocate geom s).n := by rwa [allocate_n]
  obtain ⟨hwindows, hunfinished⟩ :=
    windows_afterFrames (hs.allocate geom) hnone' hc' 0 (fun _ => initFrames_ne_nil) false
  rw [allocate_windows] at hwindows
  exact ⟨hunfinished, hwindows⟩

/-- Settles O48: an initialised block allocates nothing, and each frame is one window. -/
theorem laterInitOnlySendsFrames : Obligations.LaterInitOnlySendsFrames := by
  intro chip mode geom s
  simp only [← clearBits_eq]
  refine ⟨?_, fun hc => ifChip_of_ge hc _, fun hc hs => ?_, fun t hs hnone h => ?_⟩
  · rw [← bitOfGeometry_eq_decide]
    rfl
  · rw [exec_init_eq, ifChip_of_lt hc, allocate_of_inited hs]
    rfl
  · obtain ⟨hunfinished, hwindows⟩ := windows_of_init hs hnone h
    rw [initFrames, List.map_append, List.map_map, List.map_map, ← List.append_assoc] at hwindows
    exact ⟨hunfinished, hwindows⟩

end Machine

end Sys2Proof
end

section
/-! PROOFS. How many actions an operation performs (`43_flush_init.md` R185). The key fact is that each operation is one
update by bits or frames, and `n` bits are `3·n` actions, a frame two more. -/

namespace Sys2Proof.Machine

theorem afterBits_trace_length (s : State) (v : SerWord) (bits : List Bool) (last : Level) :
    (s.afterBits v bits last).trace.length = s.trace.length + 3 * bits.length := by
  rw [State.afterBits, List.length_append, bitActions_length]

theorem afterFrame_trace_length (s : State) (chip : Nat) (v : SerWord) (bits : List Bool) (last : Level) :
    (s.afterFrame chip v bits last).trace.length = s.trace.length + (3 * bits.length + 2) := by
  rw [State.afterFrame, List.length_append, frameActions_length]

theorem setLine_trace_length (l : Line) (v : Level) (s : State) :
    (setLine l v s).trace.length = s.trace.length + 1 := by
  rw [setLine_trace, List.length_append, List.length_singleton]

/-- The 256 writes of `CCLR` are 256 times 44 actions. -/
theorem clearFrames_actions_length (chip : Nat) :
    (((List.range 256).map clearBits).flatMap (frameActions chip)).length = 11264 := by
  rw [flatMap_frameActions_length chip (List.forall_mem_map.2 fun a _ => clearBits_length a), List.length_map,
    List.length_range]

theorem initFrames_actions_length (chip : Nat) (mode : Byte) :
    ((initFrames mode).flatMap (frameActions chip)).length = 38 * (Config.initCmds mode).length + 11264 := by
  have hcommands := flatMap_frameActions_length (frames := (Config.initCmds mode).map commandFrameBits) chip
    (List.forall_mem_map.2 fun code _ => commandFrameBits_length code)
  rw [initFrames, List.flatMap_append, List.length_append, clearFrames_actions_length, hcommands, List.length_map,
    Nat.mul_comm]

section

variable {s t : State}

theorem trace_length_of_sendCommand {chip : Chip} {code : Byte}
    (h : ifChip chip s (.next (sendCommand chip code s)) = .next t) : t.trace.length = s.trace.length + 38 := by
  rw [eq_of_ifChip h, sendCommand_eq, afterFrame_trace_length, commandFrameBits_length]

theorem trace_length_of_wr {chip : Chip} {addr : Byte} {nib : Nibble} (h : exec (.wr chip addr nib) s = .next t) :
    t.trace.length = s.trace.length + 44 := by
  rw [exec_wr] at h
  rw [eq_of_ifChip h, sendWrite_eq, afterFrame_trace_length, writeFrameBits_length]

theorem trace_length_of_swb {chip : Chip} {addr : Byte} (h : exec (.swb chip addr) s = .next t) :
    t.trace.length = s.trace.length + 31 := by
  rw [exec_swb_eq] at h
  rw [eq_of_ifChip h, afterBits_trace_length, selectChip, setLine_trace_length, List.length_append, msbFirst_length]
  rfl

theorem trace_length_of_swn {nib : Nibble} (h : exec (.swn nib) s = .next t) :
    t.trace.length = s.trace.length + 12 := by
  rw [exec_swn, shiftNibble_eq] at h
  cases h
  rw [afterBits_trace_length, msbFirst_length]

theorem trace_length_of_cclr {chip : Chip} (h : exec (.cclr chip) s = .next t) :
    t.trace.length = s.trace.length + 11264 := by
  rw [exec_cclr_eq] at h
  rw [eq_of_ifChip h, State.afterFrames, List.length_append, clearFrames_actions_length]

theorem trace_length_of_init {chip : Chip} {mode : Byte} {geom : Geometry}
    (h : exec (.init chip mode geom) s = .next t) :
    t.trace.length = s.trace.length + 38 * (Config.initCmds mode).length + 11264 := by
  rw [exec_init_eq] at h
  rw [eq_of_ifChip h, State.afterFrames, List.length_append, allocate_trace, initFrames_actions_length, Nat.add_assoc]

end

/-- Settles O49, operation by operation. -/
theorem actionCounts : Obligations.ActionCounts := by
  refine fun s t => ⟨fun v k hk h16 h => ?_, ?_, ?_, fun _ _ _ => trace_length_of_wr, fun _ _ => trace_length_of_swb,
    fun _ => trace_length_of_swn, fun _ => trace_length_of_cclr, ?_, fun g hg h => ?_,
    fun _ _ _ => trace_length_of_init⟩
  · obtain ⟨-, -, rfl⟩ := exec_shift_next h
    rw [afterBits_trace_length, msbFirst_length]
  · rintro _ chip (rfl | rfl | rfl) h
    all_goals
      obtain rfl := eq_of_ifChip h
      exact setLine_trace_length _ _ s
  · rintro _ chip code level on (rfl | rfl | rfl) h
    all_goals exact trace_length_of_sendCommand h
  · rintro i chip addr (rfl | hi) h
    · obtain rfl := eq_of_ifChip h
      rfl
    · obtain ⟨-, htrace⟩ := (framebuffer_emits hi h).same_wire
      rw [htrace]
  · obtain ⟨v, rfl⟩ := exec_flush_next hg h
    exact afterFlush_trace_length s g v

end Sys2Proof.Machine
end

section
/-! PROOFS. Who drives `LOCK` (`43_flush_init.md` R182, `60_exceptions.md` R204). The key fact is that every operation
but `FLUSH`, and a `FLUSH` between its first action and its last, performs serial actions only. -/

namespace Sys2Proof.Machine

/-- Settles O54, from what each operation emits. -/
theorem onlyFlushDrivesLock : Obligations.OnlyFlushDrivesLock := by
  intro i s t h
  by_cases hi : i = .flush
  · subst hi
    obtain ⟨u, ⟨mid, htrace, -, hmid⟩, rfl⟩ := execFlush_emits h
    refine ⟨.set .lock true :: mid ++ [.set .lock false], ?_, fun hne => absurd rfl hne, fun _ =>
      ⟨mid, rfl, fun a ha => Action.not_drives_lock_of_isSerial a (hmid a ha)⟩⟩
    rw [setLine_trace, htrace, setLine_trace]
    simp
  · obtain ⟨acts, htrace, -, hacts⟩ := exec_emits_serial hi h
    exact ⟨acts, htrace, fun _ a ha => Action.not_drives_lock_of_isSerial a (hacts a ha), fun h => absurd h hi⟩

end Sys2Proof.Machine
end

section
/-! PROOFS. Which answer an instruction gives (`60_exceptions.md` R200 to R205). The key fact is `exec_answers`: in a
state that meets the invariant every instruction is refused for the reason `expectedRefusal` names, or completes where
it names none. No answer of that kind is a fault. -/

namespace Sys2Proof.Machine

/-- The answers that an expected refusal allows: that refusal, or completion where none is expected. -/
inductive Answers : Option Refusal → Result → Prop where
  | completed (t : State) : Answers none (.next t)
  | refused (r : Refusal) : Answers (some r) (.refused r)

theorem Answers.of_completes {r : Result} (h : ∃ t, r = .next t) : Answers none r := by
  obtain ⟨t, rfl⟩ := h
  exact .completed t

theorem Answers.ne_fault {expected : Option Refusal} {r : Result} (h : Answers expected r) (f : Fault) :
    r ≠ .fault f := by
  cases h with
  | completed t => exact nofun
  | refused r => exact nofun

/-! ## The checks of R205 -/

theorem answers_ifChip (chip : Chip) (s t : State) : Answers (chipRefusal chip s) (ifChip chip s (.next t)) := by
  by_cases hc : chip.toNat < s.n
  · rw [chipRefusal, if_pos hc, ifChip_of_lt hc]
    exact .completed t
  · rw [chipRefusal, if_neg hc, ifChip_of_ge (Nat.not_lt.1 hc)]
    exact .refused .chipOutOfRange

/-- A `SHIFT` looks at its count alone (log 12). -/
theorem answers_shift (value : SerWord) (k : Nat) (s : State) :
    Answers (expectedRefusal s (.shift value k)) (exec (.shift value k) s) := by
  rw [expectedRefusal, exec, execShift]
  by_cases hk : countFits k = true
  · rw [if_pos hk, if_pos hk]
    exact .completed _
  · rw [if_neg hk, if_neg hk]
    exact .refused .illegalOpWord

section

variable {s : State}

/-- The invariant ties `INITED` to `GEOM` (R23 (a)). -/
theorem State.Inv.not_inited_of_no_geom (hs : s.Inv) (hg : s.geom = none) : s.inited = false := by
  rw [hs.geom_inited, hg]
  rfl

/-- An operation on the banks that completes once there is a geometry is refused for `INITED` and nothing else. -/
theorem answers_bankRefusal (hs : s.Inv) {i : Instr} (hi : i.isFramebuffer = true ∨ i = .flush)
    (h : ∀ g, s.geom = some g → ∃ t, exec i s = .next t) : Answers (bankRefusal s) (exec i s) := by
  cases hg : s.geom with
  | none =>
    have hinited := hs.not_inited_of_no_geom hg
    rw [bankRefusal, if_neg (Bool.eq_false_iff.1 hinited), uninitialisedIsRefused s hinited i hi]
    exact .refused .notInitialised
  | some g =>
    rw [bankRefusal, if_pos (hs.inited_of_geom hg)]
    exact .of_completes (h g hg)

/-- `SETBYTE` checks `INITED`, then the poke range (R157). -/
theorem answers_setbyte (hs : s.Inv) (addr val : Byte) :
    Answers (expectedRefusal s (.setbyte addr val)) (exec (.setbyte addr val) s) := by
  rw [expectedRefusal]
  cases hg : s.geom with
  | none =>
    rw [uninitialisedIsRefused s (hs.not_inited_of_no_geom hg) _ (.inl rfl)]
    exact .refused .notInitialised
  | some g =>
    dsimp only
    rw [exec_setbyte_eq hs hg]
    by_cases ha : addr.toNat < g.bankSize s.n
    · obtain ⟨old, hold⟩ := exists_byte hs hg ha
      obtain ⟨t, ht, -⟩ := memWrite_completes hold val
      rw [if_pos ha, if_pos ha, ht]
      exact .completed t
    · rw [if_neg ha, if_neg ha]
      exact .refused .pokeOutOfRange

/-! ## Completion with a geometry -/

section

variable {g : Geometry} (hs : s.Inv) (hg : s.geom = some g)
include hs hg

theorem exec_getpx_completes (x y : Int) : ∃ t, exec (.getpx x y) s = .next t := by
  cases hr : inRange g s.n x y with
  | false => exact ⟨_, exec_getpx_of_outOfRange hs hg hr⟩
  | true =>
    obtain ⟨v, hv⟩ := exists_pixel_byte hs hg hr
    exact ⟨_, exec_getpx_of_inRange hs hg hr hv⟩

theorem exec_drawpx_completes (x y : Int) (color : Byte) : ∃ t, exec (.drawpx x y color) s = .next t := by
  obtain ⟨f, -, hf⟩ := exec_drawpx_eq_updatePixel color
  obtain ⟨t, ht, -⟩ := updatePixel_completes hs hg f x y
  exact ⟨t, (hf x y s).trans ht⟩

/-- The walk of a flush finds every byte it asks for (R181). -/
theorem exec_flush_completes : ∃ t, exec .flush s = .next t := by
  obtain ⟨v, hexec⟩ := exec_flush_of_present (hs.inited_of_geom hg) hg fun a ha =>
    (inv_byte_isSome hs hg s.act a).2 (mem_walk_iff.1 ha)
  exact ⟨_, hexec⟩

end

/-! ## Every instruction -/

theorem exec_answers (hs : s.Inv) (i : Instr) : Answers (expectedRefusal s i) (exec i s) := by
  cases i with
  | shift value k => exact answers_shift value k s
  | select chip => exact answers_ifChip chip s _
  | release chip => exact answers_ifChip chip s _
  | cmd chip code => exact answers_ifChip chip s _
  | wr chip addr nib => exact answers_ifChip chip s _
  | swb chip addr => exact answers_ifChip chip s _
  | swn nib => exact .completed _
  | swe chip => exact answers_ifChip chip s _
  | bright chip level => exact answers_ifChip chip s _
  | blink chip on => exact answers_ifChip chip s _
  | cclr chip => exact answers_ifChip chip s _
  | rdd chip addr => exact answers_ifChip chip s _
  | setpx x y =>
    exact answers_bankRefusal hs (.inl rfl) fun g hg => (updatePixel_completes hs hg _ x y).imp fun _ => And.left
  | clrpx x y =>
    exact answers_bankRefusal hs (.inl rfl) fun g hg => (updatePixel_completes hs hg _ x y).imp fun _ => And.left
  | drawpx x y color => exact answers_bankRefusal hs (.inl rfl) fun g hg => exec_drawpx_completes hs hg x y color
  | getpx x y => exact answers_bankRefusal hs (.inl rfl) fun g hg => exec_getpx_completes hs hg x y
  | cls => exact answers_bankRefusal hs (.inl rfl) fun g hg => (fillBank_completes hs hg _).imp fun _ => And.left
  | fills => exact answers_bankRefusal hs (.inl rfl) fun g hg => (fillBank_completes hs hg _).imp fun _ => And.left
  | setbyte addr val => exact answers_setbyte hs addr val
  | setact idx =>
    exact answers_bankRefusal hs (.inl rfl) fun g hg => ⟨_, exec_setact_of_inited (hs.inited_of_geom hg) idx⟩
  | swap => exact answers_bankRefusal hs (.inl rfl) fun g hg => ⟨_, exec_swap_of_inited (hs.inited_of_geom hg)⟩
  | flush => exact answers_bankRefusal hs (.inr rfl) fun g hg => exec_flush_completes hs hg
  | init chip mode geom => exact answers_ifChip chip s _
  | frameCommand code => exact .completed _
  | frameWrite addr nib => exact .completed _
  | frameSuccessiveHead addr => exact .completed _

end

/-- Settles O52: the answer of the instruction is the one the expected refusal allows. -/
theorem refusedExactlyWhenTheRulesSay : Obligations.RefusedExactlyWhenTheRulesSay := by
  intro i s hs
  have h := exec_answers hs i
  generalize expectedRefusal s i = expected, exec i s = answer at h
  cases h with
  | completed t => exact ⟨nofun, fun _ => ⟨t, rfl⟩⟩
  | refused r => exact ⟨fun _ hr => congrArg Host.Outcome.refused (Option.some.inj hr), nofun⟩

/-- Settles O51: a step waits, refuses what is no instruction, or answers as an instruction does, and none of the three
is a fault. -/
theorem noStepFaults : Obligations.NoStepFaults := by
  intro s f hs
  obtain ⟨hrun, hillegal, hwait⟩ := stepRunsTheDecodedInstruction
  cases hport : s.port with
  | nil =>
    rw [hwait s hport]
    exact nofun
  | cons e rest =>
    cases hdecode : decode e with
    | error r =>
      rw [hillegal s e rest r hport hdecode]
      exact nofun
    | ok i =>
      rw [hrun s e rest i hport hdecode]
      exact (exec_answers (hs.withPort rest) i).ne_fault f

/-- Settles O53: `INITED` is the first check of the framebuffer operations, the chip range that of `INIT` and `RDD`. -/
theorem checkOrder : Obligations.CheckOrder :=
  fun s => ⟨fun hs _ _ => uninitialisedIsRefused s hs _ (.inl rfl),
    fun hs _ _ => ⟨uninitialisedIsRefused s hs _ (.inl rfl), uninitialisedIsRefused s hs _ (.inl rfl)⟩,
    fun _ _ _ hc => ifChip_of_ge hc _, fun _ _ hc => ifChip_of_lt hc _⟩

end Sys2Proof.Machine
end

section
/-! PROOFS. The select lines (`40_serializer_mux.md` R102 to R104, `70_reset_and_hazards.md` R232). The key fact is
`exec_cs`: what an instruction does to the select lines comes down to one drive at most, of the line and to the level
that `Instr.selectDrive` names, in every state. -/

namespace Sys2Proof

/-- The select line an instruction drives last, and the level it leaves it at; `none` where it drives none. A frame
selects its chip before it releases it, and only the release is left to see. -/
def Instr.selectDrive : Instr → Option (Chip × Level)
  | .select chip | .swb chip _ => some (chip, false)
  | .release chip | .swe chip | .cmd chip _ | .wr chip _ _ | .bright chip _ | .blink chip _ => some (chip, true)
  | .cclr chip | .init chip _ _ => some (chip, true)
  | .flush => some (0, true)
  | _ => none

theorem Instr.selectDrive_of_isFramebuffer {i : Instr} : i.isFramebuffer = true → i.selectDrive = none := by
  cases i <;> simp [Instr.isFramebuffer, Instr.selectDrive]

/-- No select line is left lowered: the last drive of one, if there is any, raises it. -/
def Instr.lowersNoSelect (i : Instr) : Bool := i.selectDrive.all Prod.snd

theorem Instr.lowersNoSelect_of_ne {i : Instr} (hselect : ∀ c, i ≠ .select c) (hswb : ∀ c a, i ≠ .swb c a) :
    i.lowersNoSelect = true := by
  cases i with
  | select chip => exact absurd rfl (hselect chip)
  | swb chip addr => exact absurd rfl (hswb chip addr)
  | _ => rfl

namespace Machine

/-- The levels of the select lines after a drive of one of them, or of none. -/
def State.csAfter (s : State) : Option (Chip × Level) → List Level
  | none => s.lines.cs
  | some (chip, v) => s.lines.cs.set chip.toNat v

section

variable {i : Instr} {s t : State}

/-- What an instruction that completes does to the select lines. -/
theorem exec_cs (h : exec i s = .next t) : t.lines.cs = s.csAfter i.selectDrive := by
  by_cases hfb : i.isFramebuffer = true
  · obtain ⟨hlines, -⟩ := (framebuffer_emits hfb h).same_wire
    rw [Instr.selectDrive_of_isFramebuffer hfb]
    exact congrArg Lines.cs hlines
  cases i with
  | shift value k => obtain ⟨-, -, rfl⟩ := exec_shift_next h; rfl
  | select chip => obtain rfl := eq_of_ifChip h; rfl
  | release chip => obtain rfl := eq_of_ifChip h; rfl
  | cmd chip code => rw [exec_cmd_eq] at h; obtain rfl := eq_of_ifChip h; rfl
  | wr chip addr nib => rw [exec_wr_eq] at h; obtain rfl := eq_of_ifChip h; rfl
  | swb chip addr => rw [exec_swb_eq] at h; obtain rfl := eq_of_ifChip h; rfl
  | swn nib => rw [exec_swn, shiftNibble_eq] at h; cases h; rfl
  | swe chip => obtain rfl := eq_of_ifChip h; rfl
  | bright chip level => obtain rfl := eq_of_ifChip h; rw [sendCommand_eq]; rfl
  | blink chip on => obtain rfl := eq_of_ifChip h; rw [sendCommand_eq]; rfl
  | cclr chip => rw [exec_cclr_eq] at h; obtain rfl := eq_of_ifChip h; rfl
  | rdd chip addr => obtain rfl := eq_of_ifChip h; rfl
  | flush =>
    obtain ⟨-, hbody⟩ := ifInited_next h
    obtain ⟨g, hg, -⟩ := withGeometry_next hbody
    obtain ⟨v, rfl⟩ := exec_flush_next hg h
    rfl
  | init chip mode geom =>
    rw [exec_init_eq] at h
    obtain rfl := eq_of_ifChip h
    exact congrArg (fun ls : Lines => ls.cs.set chip.toNat true) (allocate_lines geom s)
  | frameCommand code => rw [exec_frameCommand] at h; cases h; rfl
  | frameWrite addr nib => rw [exec_frameWrite] at h; cases h; rfl
  | frameSuccessiveHead addr => rw [exec_frameSuccessiveHead] at h; cases h; rfl
  | _ => exact absurd rfl hfb

/-- An instruction that lowers no select line leaves all of them alone or raises one. -/
theorem exec_cs_raised (hi : i.lowersNoSelect = true) (h : exec i s = .next t) :
    t.lines.cs = s.lines.cs ∨ ∃ k, t.lines.cs = s.lines.cs.set k true := by
  have hcs := exec_cs h
  rw [Instr.lowersNoSelect] at hi
  generalize i.selectDrive = drive at hcs hi
  match drive with
  | none => exact .inl hcs
  | some (chip, true) => exact .inr ⟨chip.toNat, hcs⟩
  | some (_, false) => cases hi

/-- A line raised is one low line fewer, or as many. -/
theorem length_filter_low_set_true (cs : List Level) (k : Nat) :
    ((cs.set k true).filter fun v => v = false).length ≤ (cs.filter fun v => v = false).length := by
  rw [← List.countP_eq_length_filter, ← List.countP_eq_length_filter]
  by_cases hk : k < cs.length
  · rw [List.countP_set hk]
    simp
  · rw [List.set_eq_of_length_le (Nat.not_lt.1 hk)]

theorem oneSelected_of_exec (hi : i.lowersNoSelect = true) (h : exec i s = .next t) (hs : s.oneSelected) :
    t.oneSelected := by
  unfold State.oneSelected
  obtain hcs | ⟨k, hcs⟩ := exec_cs_raised hi h
  · rwa [hcs]
  · rw [hcs]
    exact (length_filter_low_set_true s.lines.cs k).trans hs

theorem noneSelected_of_exec (hi : i.lowersNoSelect = true) (h : exec i s = .next t) (hs : s.noneSelected) :
    t.noneSelected := by
  unfold State.noneSelected
  obtain hcs | ⟨k, hcs⟩ := exec_cs_raised hi h
  · rwa [hcs]
  · rw [hcs]
    exact fun v hv => (List.mem_or_eq_of_mem_set hv).elim (hs v) id

/-- An instruction whose last drive raises the line of a chip that exists leaves that chip released (R103). -/
theorem released_of_selectDrive {chip : Chip} (hd : i.selectDrive = some (chip, true))
    (hc : chip.toNat < s.lines.cs.length) (h : exec i s = .next t) : t.lines.level (.cs chip.toNat) = some true := by
  rw [Lines.level, exec_cs h, hd]
  exact List.getElem?_set_self hc

end

/-- Settles O59: no instruction but the two excepted lowers a select line, and the last drive of the seven raises that
of their own chip, which the chip check let pass. -/
theorem framesReleaseTheirChip : Obligations.FramesReleaseTheirChip := by
  refine fun i s t h => ⟨fun hselect hswb => oneSelected_of_exec (Instr.lowersNoSelect_of_ne hselect hswb) h,
    fun c code addr nib level on mode geom hlen hi => ?_⟩
  have hown : i.selectDrive = some (c, true) ∧ c.toNat < s.n := by
    obtain rfl | rfl | rfl | rfl | rfl | rfl | rfl := hi <;> exact ⟨rfl, (ifChip_next h).1⟩
  obtain ⟨hd, hc⟩ := hown
  exact released_of_selectDrive hd (hlen.symm ▸ hc) h

end Machine

end Sys2Proof
end

section
/-! PROOFS. A later reset (`70_reset_and_hazards.md` R224), and the boot of R223 steps 1 and 2. The key
predicate of the boot is `State.Ready`: the first `INIT` makes the block ready, and a ready block stays ready under every
instruction but `SELECT` and `SWB`. -/

namespace Sys2Proof.Machine

/-- Settles O3: of the state before, the reset reads the counter of draws alone. -/
theorem laterResetForgetsEverything : Obligations.LaterResetForgetsEverything :=
  fun p s s' h => ⟨by rw [State.reconstruct, State.reconstruct, h], fun _ => rfl⟩

/-- A block of `n` chips that meets the invariant, is initialised with the geometry `g`, and has no chip selected. -/
structure State.Ready (n : Nat) (g : Geometry) (s : State) : Prop where
  inv : s.Inv
  chips : s.n = n
  geometry : s.geom = some g
  idle : s.noneSelected

theorem noneSelected_resetWith (p : Straps) : (State.resetWith p).noneSelected :=
  fun _ hv => List.eq_of_mem_replicate hv

theorem exec_init_completes {chip : Chip} {s : State} (hc : chip.toNat < s.n) (mode : Byte) (g : Geometry) :
    ∃ t, exec (.init chip mode g) s = .next t ∧ t.geom = (allocate g s).geom :=
  ⟨_, (exec_init_eq chip mode g s).trans (ifChip_of_lt hc _), rfl⟩

/-- The first `INIT` after reset makes the block ready. -/
theorem ready_of_first_init {p : Straps} (hp : p.legal) {chip : Chip} (hc : chip.toNat < p.n) (mode : Byte)
    (g : Geometry) : ∃ t, exec (.init chip mode g) (State.resetWith p) = .next t ∧ t.Ready p.n g := by
  obtain ⟨t, h, hgeom⟩ := exec_init_completes (s := State.resetWith p) hc mode g
  obtain ⟨hn, -⟩ := whoWritesWhat _ _ _ h
  exact ⟨t, h, (resetWith_inv hp).exec h, hn, hgeom, noneSelected_of_exec rfl h (noneSelected_resetWith p)⟩

section

variable {n : Nat} {g : Geometry} {s : State} (hs : s.Ready n g)
include hs

theorem State.Ready.inited : s.inited = true := hs.inv.inited_of_geom hs.geometry

theorem State.Ready.exec {i : Instr} {t : State} (hi : i.lowersNoSelect = true) (h : exec i s = .next t) :
    t.Ready n g := by
  obtain ⟨hn, -, -, hkeeps, -⟩ := whoWritesWhat i s t h
  obtain ⟨-, hgeom⟩ := hkeeps hs.inited
  exact ⟨hs.inv.exec h, hn.trans hs.chips, hgeom.trans hs.geometry, noneSelected_of_exec hi h hs.idle⟩

/-- `SETACT` and `CLS` set every byte of the chosen bank to 0 and leave the other bank alone (R223 step 2). -/
theorem State.Ready.clear_bank (b : Bank) : ∃ t, runOps [.setact b, .cls] s = .next t ∧ t.Ready n g ∧
    ∀ c a, t.byte c a = if c = b then (if a < g.bankSize n then some 0 else none) else s.byte c a := by
  have hact := exec_setact_of_inited hs.inited b
  have hu : ({ s with act := b } : State).Ready n g := hs.exec rfl hact
  obtain ⟨t, ht, -, hbyte⟩ := fillBank_completes hu.inv hu.geometry 0x00#8
  rw [hu.chips] at hbyte
  exact ⟨t, by rw [runOps_cons_next hact, runOps_singleton]; exact ht, hu.exec (i := .cls) rfl ht, hbyte⟩

end

/-- Later `INIT`s of chips that exist complete and leave the block ready. -/
theorem State.Ready.runOps_inits {n : Nat} {g : Geometry} (mode : Byte) (chips : List Chip) : ∀ {s : State},
    s.Ready n g → (∀ c ∈ chips, c.toNat < n) →
    ∃ t, runOps (chips.map fun c => .init c mode g) s = .next t ∧ t.Ready n g := by
  induction chips with
  | nil => exact fun {s} hs _ => ⟨s, rfl, hs⟩
  | cons chip chips ih =>
    intro s hs hc
    obtain ⟨hchip, hchips⟩ := List.forall_mem_cons.1 hc
    obtain ⟨u, hu, -⟩ := exec_init_completes (hs.chips.symm ▸ hchip) mode g
    obtain ⟨t, ht, hready⟩ := ih (hs.exec rfl hu) hchips
    exact ⟨t, (runOps_cons_next hu _).trans ht, hready⟩

/-- Every chip of a block is named by its two-bit index (R4, R80). -/
theorem toNat_chip_of_lt {p : Straps} (hp : p.legal) {k : Nat} (hk : k < p.n) : (BitVec.ofNat 2 k).toNat = k := by
  obtain ⟨-, h4⟩ := hp
  exact Nat.mod_eq_of_lt (by omega)

/-- `INIT` of every chip after reset leaves the block ready (R223 step 1). -/
theorem runOps_inits_of_reset {p : Straps} (hp : p.legal) (mode : Byte) (g : Geometry) :
    ∃ t, runOps ((List.range p.n).map fun k => .init (BitVec.ofNat 2 k) mode g) (State.resetWith p) = .next t ∧
      t.Ready p.n g := by
  have hrange : List.range p.n = 0 :: (List.range (p.n - 1)).map Nat.succ := by
    rw [← List.range_succ_eq_map, Nat.sub_add_cancel hp.1]
  have hchip : ∀ k ∈ List.range p.n, (BitVec.ofNat 2 k).toNat < p.n := fun k hk => by
    rw [toNat_chip_of_lt hp (List.mem_range.1 hk)]
    exact List.mem_range.1 hk
  rw [hrange] at hchip ⊢
  obtain ⟨hfirst, hrest⟩ := List.forall_mem_cons.1 hchip
  obtain ⟨u, hu, hready⟩ := ready_of_first_init hp hfirst mode g
  obtain ⟨t, ht, hready⟩ := hready.runOps_inits mode
    (((List.range (p.n - 1)).map Nat.succ).map (BitVec.ofNat 2)) (List.forall_mem_map.2 hrest)
  rw [List.map_map] at ht
  exact ⟨t, (runOps_cons_next hu _).trans ht, hready⟩

/-- Settles O50: `INIT`s, then a clear of each bank, the second of which leaves the first bank cleared. -/
theorem bootClearsBothBanks : Obligations.BootClearsBothBanks := by
  intro p mode g hp
  obtain ⟨s, hinits, hs⟩ := runOps_inits_of_reset hp mode g
  obtain ⟨u, hclear0, hu, hbyte0⟩ := hs.clear_bank .bank0
  obtain ⟨t, hclear1, ht, hbyte1⟩ := hu.clear_bank .bank1
  have hrun : runOps (bootOps p.n mode g) (State.resetWith p) = .next t := calc
    runOps (bootOps p.n mode g) (State.resetWith p)
    _ = runOps ([.setact .bank0, .cls] ++ [.setact .bank1, .cls]) s := runOps_append_next hinits _
    _ = runOps [.setact .bank1, .cls] u := runOps_append_next hclear0 _
    _ = .next t := hclear1
  refine ⟨t, hrun, ht.inv, ht.inited, ht.geometry, ht.idle, fun b a => ?_⟩
  cases b with
  | bank0 => rw [hbyte1, if_neg nofun, hbyte0, if_pos rfl]
  | bank1 => rw [hbyte1, if_pos rfl]

end Sys2Proof.Machine
end
